-- ==== Sys2Proof/Word.lean ====
section
/-! DEFINITION. The widths of HX711-ACQ: machine words, bytes, raw conversions (00_scope.md R8, R9). -/

namespace Sys2Proof

/-- A 32-bit machine word: bus data, readings, accumulator, offset, binary32 patterns (R9 `WORD_W`). -/
abbrev Word := BitVec 32

/-- One 8-bit transfer of the serial link (R122). -/
abbrev Byte := BitVec 8

/-- One 24-bit conversion as it comes from the converter (R9 `RAW_W`). -/
abbrev Raw := BitVec 24

/-- A sample count (R9 `CNT_W` = 8). DESIGN CHOICE: `CNT_W` is an open parameter of 92_eei_decisions.md; the model takes its
default (log 22). -/
abbrev Count := BitVec 8

end Sys2Proof
end

