-- ==== Sys2Proof/Syntax.lean ====
section
/-! DEFINITION. Host transactions, the fifteen host operations of spec/opcode_table.json, the fault codes, and the
moves of the block's environment (30_encoding.md, 60_exceptions.md R241, 00_scope.md R18). -/

namespace Sys2Proof

/-- A host bus transaction (R91): `bus_we`, `bus_addr`, `bus_wdata`; a read's `wdata` means nothing. -/
structure Txn where
  we    : Bool
  addr  : BitVec 5
  wdata : Word
  deriving DecidableEq, Repr, Inhabited

/-- The host operations, one constructor per row of the opcode table (R98). Every field has exactly the width its
encoding gives it, so every value of this type is an encodable operation. -/
inductive Instr where
  | beginSetup (factor : BitVec 16)
  | setGain (factor : BitVec 16)
  | startAverage (sink : Bool) (count : Count)
  | startValue (sink : Bool) (count : Count)
  | startUnits (sink : Bool) (count : Count)
  | tare (count : Count)
  | irqAck
  | rdStatus
  | rdResult
  | rdOffset
  | wrOffset (v : Word)
  | rdScale
  | wrScale (v : Word)
  | rdAcc
  | rdCounts
  deriving DecidableEq, Repr, Inhabited

/-- The fault codes of R241, in the order of their numbers 1 to 8. A step that raises one goes on (R242): the code is
recorded in `FAULTS` and the transaction is answered with a bus error. -/
inductive FaultCode where
  | busMisaligned
  | busUnmapped
  | busDirection
  | illegalCommand
  | notBegun
  | beginTwice
  | startWhileBusy
  | countZero
  deriving DecidableEq, Repr, Inhabited

/-- The levels of the block's input ports in one cycle of `clk` (R90): `rst_n`, `dout`, and the host's request
(`bus_req` with `bus_we`, `bus_addr`, `bus_wdata`), if it asserts one. -/
structure Pins where
  rstN : Bool
  dout : Bool
  req  : Option Txn
  deriving DecidableEq, Repr, Inhabited

/-- What happens next. `host` and `readyEdge` are the spec's atomic steps (R18, R70); `clock` is one rising edge of
`clk` (R90), at which the sequencer, the edge detector and the reset work cycle by cycle. -/
inductive Move where
  /-- The host issues a transaction. -/
  | host (t : Txn)
  /-- The converter signals a ready edge and supplies `d` = `Draw24()` (R137, R155). -/
  | readyEdge (d : Raw)
  /-- One cycle of `clk` with these pin levels. -/
  | clock (p : Pins)
  deriving DecidableEq, Repr, Inhabited

end Sys2Proof
end

