-- ==== Sys2Proof/WellFormed.lean ====
section
/-! DEFINITION. Which host transactions are legal (20_memory.md R64, 30_encoding.md R93-R99): the checks, one
definition each. An `Instr` needs no check: its fields have the widths of its encoding. -/

namespace Sys2Proof

/-- The address is a multiple of four (R64). -/
def Txn.aligned (t : Txn) : Bool := t.addr.extractLsb' 0 2 == 0

/-- The address is in the register map (R61, R62): all but 0x1C. -/
def Txn.mapped (t : Txn) : Bool := t.addr != 0x1C

/-- The register may be accessed in this direction (R61, R64). -/
def Txn.directed (t : Txn) : Bool :=
  if t.we then t.addr != 0x04 && t.addr != 0x08 && t.addr != 0x14 && t.addr != 0x18 else t.addr != 0x00

/-- The transaction is a command (R92): a write to CMD, `TD` = 0x20. -/
def Txn.isCommand (t : Txn) : Bool := t.we && t.addr == 0x00

/-- The opcode `w[31:28]` is assigned (R93, R104): 1 to 7. -/
def opAssigned (w : Word) : Bool :=
  let op := w.extractLsb' 28 4
  op != 0 && op.ult 8

/-- Every bit not assigned to a field of the command's sub-format is 0 (R93-R97). -/
def reservedZero (w : Word) : Bool :=
  let op := w.extractLsb' 28 4
  if op == 1 || op == 2 then w.extractLsb' 16 12 == 0
  else if op == 3 || op == 4 || op == 5 then w.extractLsb' 9 19 == 0
  else if op == 6 then w.extractLsb' 8 20 == 0
  else w.extractLsb' 0 28 == 0

/-- A legal transaction: none of the illegal encodings of R99. -/
def Txn.WellFormed (t : Txn) : Bool :=
  t.aligned && t.mapped && t.directed && (!t.isCommand || (opAssigned t.wdata && reservedZero t.wdata))

end Sys2Proof
end

