-- ==== Sys2Proof/Decode.lean ====
section
/-! DEFINITION. The decoder of host transactions (20_memory.md R64, 30_encoding.md R92-R99), the encoder, and the
opcode table of R98 as rows of match and mask. -/

namespace Sys2Proof

/-- What the decoder makes of a transaction: an operation, or a refusal by the fault it raises. -/
inductive Decoded where
  | op (i : Instr)
  | refuse (c : FaultCode)
  deriving DecidableEq, Repr

/-- The transaction descriptor `TD = {bus_we, bus_addr[4:0]}` (R92). -/
def Txn.td (t : Txn) : BitVec 6 := BitVec.ofBool t.we ++ t.addr

/-- The transaction with this descriptor and write data. -/
def Txn.ofTd (td : BitVec 6) (w : Word) : Txn := ⟨td.getLsbD 5, td.extractLsb' 0 5, w⟩

/-- The write of the command word `w` to CMD. -/
def Txn.command (w : Word) : Txn := ⟨true, 0x00, w⟩

/-- The check of R64, in its order (R245). -/
def checkBus (t : Txn) : Option FaultCode :=
  if !t.aligned then some .busMisaligned
  else if !t.mapped then some .busUnmapped
  else if !t.directed then some .busDirection
  else none

/-- The command decode of R93, with the operands assembled as R101 says. -/
def decodeCommand (w : Word) : Decoded :=
  if !opAssigned w || !reservedZero w then .refuse .illegalCommand
  else
    let factor := w.extractLsb' 0 16
    let count := w.extractLsb' 0 8
    let sink := w.getLsbD 8
    let op := w.extractLsb' 28 4
    if op == 1 then .op (.beginSetup factor)
    else if op == 2 then .op (.setGain factor)
    else if op == 3 then .op (.startAverage sink count)
    else if op == 4 then .op (.startValue sink count)
    else if op == 5 then .op (.startUnits sink count)
    else if op == 6 then .op (.tare count)
    else .op .irqAck

/-- The register operation selected by a checked `TD` other than CMD's (R98); nothing else passes `checkBus`. -/
def decodeRegister (t : Txn) : Decoded :=
  if t.we then
    if t.addr == 0x0C then .op (.wrOffset t.wdata)
    else if t.addr == 0x10 then .op (.wrScale t.wdata)
    else .refuse .busDirection
  else if t.addr == 0x04 then .op .rdStatus
  else if t.addr == 0x08 then .op .rdResult
  else if t.addr == 0x0C then .op .rdOffset
  else if t.addr == 0x10 then .op .rdScale
  else if t.addr == 0x14 then .op .rdAcc
  else if t.addr == 0x18 then .op .rdCounts
  else .refuse .busUnmapped

/-- The decoder, total on transactions (R190): the bus check, then the command decode or the register operation. -/
def decode (t : Txn) : Decoded :=
  match checkBus t with
  | some c => .refuse c
  | none => if t.isCommand then decodeCommand t.wdata else decodeRegister t

/-- The command word of sub-format G (R94). -/
def wordG (op : BitVec 4) (factor : BitVec 16) : Word := op ++ (0 : BitVec 12) ++ factor

/-- The command word of sub-format S (R95). -/
def wordS (op : BitVec 4) (sink : Bool) (count : Count) : Word := op ++ (0 : BitVec 19) ++ BitVec.ofBool sink ++ count

/-- The command word of sub-format T (R96). -/
def wordT (count : Count) : Word := (6 : BitVec 4) ++ (0 : BitVec 20) ++ count

/-- The encoder: the transaction of an operation (R94-R98). A read carries no write data; 0 stands for it (log 18). -/
def encode : Instr → Txn
  | .beginSetup f     => .command (wordG 1 f)
  | .setGain f        => .command (wordG 2 f)
  | .startAverage s c => .command (wordS 3 s c)
  | .startValue s c   => .command (wordS 4 s c)
  | .startUnits s c   => .command (wordS 5 s c)
  | .tare c           => .command (wordT c)
  | .irqAck           => .command 0x70000000
  | .rdStatus         => .ofTd 0x04 0
  | .rdResult         => .ofTd 0x08 0
  | .rdOffset         => .ofTd 0x0C 0
  | .wrOffset v       => .ofTd 0x2C v
  | .rdScale          => .ofTd 0x10 0
  | .wrScale v        => .ofTd 0x30 v
  | .rdAcc            => .ofTd 0x14 0
  | .rdCounts         => .ofTd 0x18 0

/-- A row of the opcode table of R98: `command` rows match the command word of a CMD write, the others match `TD`. -/
structure TableRow where
  mnemonic : String
  command  : Bool
  pattern  : Word
  mask     : Word
  deriving DecidableEq, Repr

/-- The opcode table (R98, spec/opcode_table.json). -/
def opcodeTable : List TableRow :=
  [⟨"BEGIN", true, 0x10000000, 0xFFFF0000⟩, ⟨"SET_GAIN", true, 0x20000000, 0xFFFF0000⟩,
   ⟨"START_AVERAGE", true, 0x30000000, 0xFFFFFE00⟩, ⟨"START_VALUE", true, 0x40000000, 0xFFFFFE00⟩,
   ⟨"START_UNITS", true, 0x50000000, 0xFFFFFE00⟩, ⟨"TARE", true, 0x60000000, 0xFFFFFF00⟩,
   ⟨"IRQ_ACK", true, 0x70000000, 0xFFFFFFFF⟩, ⟨"RD_STATUS", false, 0x04, 0x3F⟩, ⟨"RD_RESULT", false, 0x08, 0x3F⟩,
   ⟨"RD_OFFSET", false, 0x0C, 0x3F⟩, ⟨"WR_OFFSET", false, 0x2C, 0x3F⟩, ⟨"RD_SCALE", false, 0x10, 0x3F⟩,
   ⟨"WR_SCALE", false, 0x30, 0x3F⟩, ⟨"RD_ACC", false, 0x14, 0x3F⟩, ⟨"RD_COUNTS", false, 0x18, 0x3F⟩]

/-- The row matches the transaction (R92). -/
def TableRow.covers (r : TableRow) (t : Txn) : Bool :=
  if r.command then t.isCommand && (t.wdata &&& r.mask == r.pattern)
  else t.td.setWidth 32 &&& r.mask == r.pattern

/-- The mnemonic of an operation in the opcode table. -/
def Instr.mnemonic : Instr → String
  | .beginSetup _     => "BEGIN"
  | .setGain _        => "SET_GAIN"
  | .startAverage _ _ => "START_AVERAGE"
  | .startValue _ _   => "START_VALUE"
  | .startUnits _ _   => "START_UNITS"
  | .tare _           => "TARE"
  | .irqAck           => "IRQ_ACK"
  | .rdStatus         => "RD_STATUS"
  | .rdResult         => "RD_RESULT"
  | .rdOffset         => "RD_OFFSET"
  | .wrOffset _       => "WR_OFFSET"
  | .rdScale          => "RD_SCALE"
  | .wrScale _        => "WR_SCALE"
  | .rdAcc            => "RD_ACC"
  | .rdCounts         => "RD_COUNTS"

/-- The transaction a word of the opcode table stands for (log 17): rows of at most 8 bits give `TD` in bits 5:0 and no
write data; rows of 32 bits give the command word of a CMD write. -/
def tableTxn (nbits w : Nat) : Txn :=
  if nbits ≤ 8 then .ofTd (BitVec.ofNat 6 w) 0 else .command (BitVec.ofNat 32 w)

/-- The operation the decoder reads from a word of the opcode table; a `TD` has six bits, so a larger number is none. -/
def decodeTableWord (nbits w : Nat) : Option Instr :=
  if nbits ≤ 8 && 64 ≤ w then none
  else
    match decode (tableTxn nbits w) with
    | .op i => some i
    | .refuse _ => none

end Sys2Proof
end

