-- ==== Sys2Proof/Config.lean ====
section
/-! DEFINITION. What an implementation fixes (92_eei_decisions.md, open parameters) and the free values: constants
without a body, of which nothing can be proved. -/

namespace Sys2Proof

/-- The timing parameters of R12, in stages and in cycles of `clk`, as the slack above the least value each may have, so
that every value of this type satisfies `SYNC ≥ 2` (92_eei_decisions.md, open parameters), R288
(`T_H ≥ SYNC + ceil(T_DV × F_CLK) + 1`), `T_L ≥ 1` and `T_FIN ≥ 1` (R289). -/
structure Timing where
  /-- `SYNC` above 2. -/
  syncSlack : Nat
  /-- `T_SU`. -/
  setup     : Nat
  /-- `ceil(T_DV × F_CLK)` of R288. -/
  dataValid : Nat
  /-- `T_H` above its least value. -/
  highSlack : Nat
  /-- `T_L` above 1. -/
  lowSlack  : Nat
  /-- `T_FIN` above 1. -/
  finSlack  : Nat
  /-- `T_PD`. -/
  powerDown : Nat
  deriving DecidableEq, Repr, Inhabited

/-- `SYNC`: the synchroniser stages on `dout`. -/
def Timing.sync (tm : Timing) : Nat := tm.syncSlack + 2

/-- `T_SU`: cycles PD_SCK is low before the first pulse. -/
def Timing.tSU (tm : Timing) : Nat := tm.setup

/-- `T_H`: cycles PD_SCK is high in every pulse. -/
def Timing.tH (tm : Timing) : Nat := tm.sync + tm.dataValid + 1 + tm.highSlack

/-- `T_L`: cycles PD_SCK is low after every pulse. -/
def Timing.tL (tm : Timing) : Nat := tm.lowSlack + 1

/-- `T_FIN`: cycles for accumulation and finalisation. -/
def Timing.tFIN (tm : Timing) : Nat := tm.finSlack + 1

/-- `T_PD`: the least time PD_SCK is held high for a power-down. -/
def Timing.tPD (tm : Timing) : Nat := tm.powerDown

/-- `T_H + T_L`: the length of one pulse. -/
def Timing.pulse (tm : Timing) : Nat := tm.tH + tm.tL

/-- The timing of the implementation at hand: OPEN (R12, U19; log 9). -/
opaque Config.timing : Timing

/-- The block's response to a START or TARE while busy, as R244 leaves it open: refuse the command with a bus error, or
perform any combination of the writes of R194 (log 3). -/
structure BusyStart where
  refuse    : Bool
  acc       : Bool
  remaining : Bool
  requested : Bool
  mode      : Bool
  sinkEn    : Bool
  tareF     : Bool
  ready     : Bool
  pwr       : Bool
  armed     : Bool
  deriving DecidableEq, Repr, Inhabited

/-- Free value: which of R244's responses is taken, at each occasion (log 3). -/
opaque Config.busyStart : Nat → BusyStart

/-- Free value: the average finalisation would compute for `REQUESTED` = 0, to which the spec gives no value: `n` is
"1 .. 255" in R163 (log 4). -/
opaque Config.zeroCountAverage : Word → Word

/-- Free value: the move that comes next when none is scheduled, so that an unscheduled run is any run (log 1). -/
opaque Config.freeMove : Nat → Move

/-- Free value: the data line in the wait states of a stalled host transaction (log 14). -/
opaque Config.freeDout : Nat → Bool

end Sys2Proof
end

