-- ==== Sys2Proof/Machine/State.lean ====
section
/-! DEFINITION. The state of HX711-ACQ: every element of 10_state.md R20 under its own name, and its reset value
(R271); the bus outputs and the schedule of the environment's moves are the model's own fields (log 1, 13). -/

namespace Sys2Proof.Machine

/-- `GAIN_CODE` (R24): the values 1, 2, 3; "the value 0 is never held". -/
inductive GainCode where
  | one
  | two
  | three
  deriving DecidableEq, Repr, Inhabited

/-- `MODE` (R27, R103): the finalisation formula; "the value 3 is never held". -/
inductive Mode where
  | rawAverage
  | offsetValue
  | scaledUnits
  deriving DecidableEq, Repr, Inhabited

/-- `SEQ` (R46): the sequencer's phase with its counters. `bit` counts the data bits already received (0..23), `pulse`
the gain pulses already sent, `c` the cycles already spent in the phase, the bit or the pulse. -/
inductive Seq where
  | idle
  | setup (c : Nat)
  | data (bit c : Nat)
  | gainp (pulse c : Nat)
  | fin (c : Nat)
  deriving DecidableEq, Repr, Inhabited

/-- The controller's registers (R24-R39), each the spec's element of the same name. -/
structure Regs where
  gainCode  : GainCode
  offset    : Word
  scale     : Word
  mode      : Mode
  sinkEn    : Bool
  tareF     : Bool
  remaining : Count
  requested : Count
  acc       : Word
  result    : Word
  ready     : Bool
  irqPend   : Bool
  begun     : Bool
  armed     : Bool
  pwr       : Bool
  deriving DecidableEq, Repr

/-- The bus outputs of a step (R90, R91): `bus_ack`, `bus_err`, and `bus_rdata` where the spec gives it a value
(log 13). -/
structure BusResp where
  ack   : Bool
  err   : Bool
  rdata : Option Word
  deriving DecidableEq, Repr

/-- The whole state (R20). -/
structure State where
  /-- The controller's registers. -/
  regs    : Regs
  /-- `SR` (R45): the transport's shift register. -/
  sr      : Raw
  /-- `SEQ` (R46). -/
  seq     : Seq
  /-- `DSYNC` (R47): the synchroniser's `SYNC` flip-flops, `DSYNC[0]` first. -/
  dsync   : List Bool
  /-- `DPREV` (R47): the previous synchronised sample. -/
  dprev   : Bool
  /-- `PDHOLD` (R48): cycles since PD_SCK last rose for a power-down, saturating at `T_PD` (log 8). -/
  pdHold  : Nat
  /-- `PD_SCK_Q` (R49). -/
  pdSck   : Bool
  /-- `STALL` (R50). -/
  stall   : Bool
  /-- `EVENTS` (R51): the results of the `Sink` events, oldest first. -/
  events  : List Word
  /-- `FAULTS` (R52): the recorded codes, in rising order of their numbers, no repeats (log 15). -/
  faults  : List FaultCode
  /-- The model's own: the bus outputs of the last step. -/
  resp    : BusResp
  /-- The model's own: what the environment does next (log 1). -/
  sched   : List Move
  /-- The model's own: the index of the next free value (log 1). -/
  freeIdx : Nat
  deriving DecidableEq, Repr

/-- No step of this block stops with a fault: "The block raises no exception, saves no state, and changes no control
flow on an error" (R240); the fault codes of R241 are recorded in `FAULTS` and the step goes on. So this type has no
constructor. -/
inductive Fault where
  deriving DecidableEq, Repr

/-- Why a step has no meaning. -/
inductive Refusal where
  /-- Raised by an arm of `exec` for an operation that has no meaning yet: none is left. Safe: the run stops. -/
  | notModelled (mnemonic : String)
  deriving DecidableEq, Repr

/-- The registers after reset (R271). -/
def Regs.reset : Regs where
  gainCode := .one
  offset := 0
  scale := 0x3F800000
  mode := .rawAverage
  sinkEn := false
  tareF := false
  remaining := 0
  requested := 0
  acc := 0
  result := 0
  ready := false
  irqPend := false
  begun := false
  armed := false
  pwr := false

/-- The bus outputs of a step in which no transaction is acknowledged. R90 and R91 give `bus_err` a meaning only with
`bus_ack`; that it is 0 here is the model's choice (log 13). -/
def BusResp.idle : BusResp := ⟨false, false, none⟩

/-- The state after reset (R271), at the start of a run, of a block with these timing parameters: `DSYNC` is all 1 in
`SYNC` flip-flops. -/
def State.atReset (tm : Timing) : State where
  regs := .reset
  sr := 0
  seq := .idle
  dsync := List.replicate tm.sync true
  dprev := true
  pdHold := 0
  pdSck := true
  stall := false
  events := []
  faults := []
  resp := .idle
  sched := []
  freeIdx := 0

/-- The machine right after reset (R271): the implementation at hand. -/
def State.reset : State := .atReset Config.timing

end Sys2Proof.Machine
end

