-- ==== Sys2Proof/Machine/Float32.lean ====
section
/-! DEFINITION. Binary32 arithmetic (00_scope.md R16): `i2f` and `fdiv`, rounding to nearest, ties to even, subnormals
kept, one canonical NaN. Magnitudes are counted in units of 2^-149, the least positive binary32, so that every finite
pattern is a whole number (log 12). -/

namespace Sys2Proof.Machine

/-- The exponent bits 30:23 of a pattern (R106). -/
def f32Exp (p : Word) : Nat := (p.extractLsb' 23 8).toNat

/-- The fraction bits 22:0 of a pattern (R106). -/
def f32Frac (p : Word) : Nat := (p.extractLsb' 0 23).toNat

/-- The sign bit 31 of a pattern (R106): set for negative values and for -0. -/
def f32Neg (p : Word) : Bool := p.msb

/-- The pattern is a NaN. -/
def f32IsNaN (p : Word) : Bool := f32Exp p == 255 && f32Frac p != 0

/-- The pattern is an infinity. -/
def f32IsInf (p : Word) : Bool := f32Exp p == 255 && f32Frac p == 0

/-- The magnitude of a finite pattern, in units of 2^-149. -/
def f32Mag (p : Word) : Nat :=
  if f32Exp p == 0 then f32Frac p else (2 ^ 23 + f32Frac p) * 2 ^ (f32Exp p - 1)

/-- The canonical NaN (R16). -/
def canonicalNaN : Word := 0x7FC00000

/-- The quotient `n / d` rounded to the nearest whole number, ties to even. -/
def divNearestEven (n d : Nat) : Nat :=
  let q := n / d
  let r := n % d
  if d < 2 * r || (2 * r == d && q % 2 == 1) then q + 1 else q

/-- The low 31 bits of the binary32 nearest to the positive fraction `n / d`, ties to even; infinity's on overflow.
`x` is the exponent field, less one for normal numbers: the fraction is rounded to a multiple of `2^x` units, and a
carry out of the significand moves on into the exponent by the addition. -/
def roundRatio (n d : Nat) : Nat :=
  let units := n * 2 ^ 149
  let x := Nat.log2 (units / d) - 23
  min (x * 2 ^ 23 + divNearestEven units (d * 2 ^ x)) 0x7F800000

/-- A sign and 31 bits of magnitude, as a pattern. -/
def packFloat (neg : Bool) (m : Nat) : Word := BitVec.ofBool neg ++ BitVec.ofNat 31 m

/-- `i2f` (R16): a mathematical integer to binary32; `i2f(0)` is +0.0. -/
def i2f (z : Int) : Word := packFloat (decide (z < 0)) (roundRatio z.natAbs 1)

/-- `fdiv` (R16, R166): IEEE 754 binary32 division. -/
def fdiv (a b : Word) : Word :=
  let neg := f32Neg a != f32Neg b
  if f32IsNaN a || f32IsNaN b then canonicalNaN
  else if f32IsInf a then if f32IsInf b then canonicalNaN else packFloat neg 0x7F800000
  else if f32IsInf b then packFloat neg 0
  else if f32Mag b == 0 then if f32Mag a == 0 then canonicalNaN else packFloat neg 0x7F800000
  else packFloat neg (roundRatio (f32Mag a) (f32Mag b))

end Sys2Proof.Machine
end

