-- ==== Sys2Proof/Machine/Operands.lean ====
section
/-! DEFINITION. Operands and their value encodings: the gain map, gain codes and modes as numbers (30_encoding.md
R101-R103, 41_transport.md R128). -/

namespace Sys2Proof.Machine

/-- `gain_map` (R102): 128, 64, 32 to the codes 1, 3, 2; every other factor to none. -/
def gainMap (factor : BitVec 16) : Option GainCode :=
  if factor == 128 then some .one
  else if factor == 64 then some .three
  else if factor == 32 then some .two
  else none

/-- `GAIN_CODE` after a gain selection: an unmapped factor leaves it unchanged (R102). -/
def selectGain (factor : BitVec 16) (g : GainCode) : GainCode := (gainMap factor).getD g

/-- `GAIN_CODE` as the two bits STATUS shows. -/
def GainCode.code : GainCode → BitVec 2
  | .one   => 1
  | .two   => 2
  | .three => 3

/-- The number of gain-select pulses (R127, R128): the gain code itself. -/
def GainCode.pulses : GainCode → Nat
  | .one   => 1
  | .two   => 2
  | .three => 3

/-- `MODE` as the two bits STATUS shows (R103). -/
def Mode.code : Mode → BitVec 2
  | .rawAverage  => 0
  | .offsetValue => 1
  | .scaledUnits => 2

/-- The number of a fault code (R241). -/
def faultNumber : FaultCode → Nat
  | .busMisaligned  => 1
  | .busUnmapped    => 2
  | .busDirection   => 3
  | .illegalCommand => 4
  | .notBegun       => 5
  | .beginTwice     => 6
  | .startWhileBusy => 7
  | .countZero      => 8

end Sys2Proof.Machine
end

