-- ==== Sys2Proof/Machine/Flags.lean ====
section
/-! DEFINITION. Flags and packed registers: BUSY, STATUS, COUNTS, and the output pins (10_state.md R37, R40-R42,
60_exceptions.md R249). No flag is a side effect of arithmetic (R37). -/

namespace Sys2Proof.Machine

/-- `BUSY = (REMAINING != 0)` (R40): the controller is Acquiring (R44). -/
def Regs.busy (r : Regs) : Bool := r.remaining != 0

/-- STATUS (R41). -/
def Regs.statusWord (r : Regs) : Word :=
  (0 : BitVec 20) ++ BitVec.ofBool r.irqPend ++ r.gainCode.code ++ r.mode.code ++ BitVec.ofBool r.tareF ++
    BitVec.ofBool r.sinkEn ++ BitVec.ofBool r.begun ++ BitVec.ofBool r.pwr ++ BitVec.ofBool r.armed ++
    BitVec.ofBool r.busy ++ BitVec.ofBool r.ready

/-- COUNTS (R42). -/
def Regs.countsWord (r : Regs) : Word := (0 : BitVec 16) ++ r.requested ++ r.remaining

/-- The `irq` output, a level (R249). -/
def State.irq (s : State) : Bool := s.regs.irqPend

/-- The `pd_sck` output (R90). -/
def State.pdSckPin (s : State) : Bool := s.pdSck

end Sys2Proof.Machine
end

