-- ==== Sys2Proof/Machine/Ops.lean ====
section
/-! DEFINITION. The shared operations of host transactions: acknowledging, `raise Fault` (60_exceptions.md R241, R242),
the start of an acquisition (43_host_commands.md R194) and its unspecified case (R244). -/

namespace Sys2Proof.Machine

/-- The state with these bus outputs. -/
def State.withResp (s : State) (b : BusResp) : State := { s with resp := b }

/-- The state with these registers. -/
def State.withRegs (s : State) (r : Regs) : State := { s with regs := r }

/-- An acknowledged write: no error; `bus_rdata` has no value (R90, log 13). -/
def BusResp.wrote : BusResp := ⟨true, false, none⟩

/-- An acknowledged read of `v`. -/
def BusResp.read (v : Word) : BusResp := ⟨true, false, some v⟩

/-- A refused transaction (R242): `bus_err` with the acknowledgement, `bus_rdata = 0` for a read. -/
def BusResp.refused (isRead : Bool) : BusResp := ⟨true, true, if isRead then some 0 else none⟩

/-- A transaction that leaves the registers `r` and answers a write. -/
def State.finishWrite (s : State) (r : Regs) : State := (s.withRegs r).withResp .wrote

/-- A transaction that leaves the registers `r` and answers the read of `v`. -/
def State.finishRead (s : State) (v : Word) (r : Regs) : State := (s.withRegs r).withResp (.read v)

/-- A code added to the set of recorded codes, which is kept in rising order without repeats (R52, R246). -/
def insertFault (c : FaultCode) : List FaultCode → List FaultCode
  | [] => [c]
  | d :: ds =>
    if faultNumber c < faultNumber d then c :: d :: ds
    else if c = d then d :: ds
    else d :: insertFault c ds

/-- The code recorded in `FAULTS`. -/
def State.recordFault (s : State) (c : FaultCode) : State := { s with faults := insertFault c s.faults }

/-- `raise Fault(c)` of a refused transaction (R241, R242): the code is recorded, the bus answers an error, and no block
state changes. The block has no exception entry (R240, R255): nothing else is saved, and no control is transferred. -/
def State.raiseFault (s : State) (c : FaultCode) (isRead : Bool) : State :=
  (s.recordFault c).withResp (.refused isRead)

/-- The end of a pending completion interrupt (R199, R256): the only "return" the block has. -/
def Regs.acknowledgeIrq (r : Regs) : Regs := { r with irqPend := false }

/-- The writes of the common start sequence (R194). -/
def Regs.started (r : Regs) (mode : Mode) (count : Count) (sink tare : Bool) : Regs :=
  { r with
    acc := 0, remaining := count, requested := count, mode := mode, sinkEn := sink, tareF := tare, ready := false,
    pwr := true, armed := true }

/-- The registers `r` with those writes of `full` that the response `b` performs (R244). -/
def Regs.partlyStarted (r full : Regs) (b : BusyStart) : Regs :=
  { r with
    acc := if b.acc then full.acc else r.acc
    remaining := if b.remaining then full.remaining else r.remaining
    requested := if b.requested then full.requested else r.requested
    mode := if b.mode then full.mode else r.mode
    sinkEn := if b.sinkEn then full.sinkEn else r.sinkEn
    tareF := if b.tareF then full.tareF else r.tareF
    ready := if b.ready then full.ready else r.ready
    pwr := if b.pwr then full.pwr else r.pwr
    armed := if b.armed then full.armed else r.armed }

/-- The response `b` to a start while busy (R244): the code is recorded; the command is refused with a bus error, or
some of the writes are performed. -/
def State.respondBusy (s : State) (full : Regs) (b : BusyStart) : State :=
  if b.refuse then s.raiseFault .startWhileBusy false
  else (s.recordFault .startWhileBusy).finishWrite (s.regs.partlyStarted full b)

/-- A start while busy (R244, log 3): the response is a free value. -/
def State.startBusy (s : State) (full : Regs) : State :=
  { s.respondBusy full (Config.busyStart s.freeIdx) with freeIdx := s.freeIdx + 1 }

/-- The common start sequence (R194), with the faults in R245's order. -/
def State.start (s : State) (mode : Mode) (count : Count) (sink tare : Bool) : State :=
  if !s.regs.begun then s.raiseFault .notBegun false
  else if s.regs.busy then s.startBusy (s.regs.started mode count sink tare)
  else if count == 0 then s.raiseFault .countZero false
  else s.finishWrite (s.regs.started mode count sink tare)

end Sys2Proof.Machine
end

