-- ==== Sys2Proof/Machine/Transport.lean ====
section
/-! DEFINITION. The transport (41_transport.md): the order of bits and bytes, sign extension, and the edge detector's
synchroniser (42_controller.md R151, R152). -/

namespace Sys2Proof.Machine

/-- One received bit into a byte, the earlier bits moving up: the first bit received ends as bit 7 (R122). -/
def shiftIntoByte (b : Byte) (bit : Bool) : Byte := (b.concat bit).setWidth 8

/-- `SHIFT_BYTE` (R122): eight bits, in the order received. -/
def shiftByte (bits : List Bool) : Byte := bits.foldl shiftIntoByte 0

/-- The 24-bit value `b2:b1:b0` (R124), `b2` the byte received first. -/
def assembleRaw (b2 b1 b0 : Byte) : Raw := b2 ++ b1 ++ b0

/-- One received bit into `SR`: the first of 24 ends as bit 23, the last as bit 0 (R66, R124). -/
def shiftIntoSr (sr : Raw) (bit : Bool) : Raw := (sr.concat bit).setWidth 24

/-- `SIGN_EXTEND` (R126): bit 23 fills bits 31..24. -/
def signExtend24 (v : Raw) : Word := if v.getLsbD 23 then (0xFF : Byte) ++ v else (0x00 : Byte) ++ v

/-- `Sample(DOUT)` = `d_s = DSYNC[SYNC-1]` (R151): the last of the `SYNC` flip-flops. -/
def State.dataLine (s : State) : Bool := s.dsync.getLastD true

/-- `edge = DPREV and not d_s` (R152). That a data line low from reset release on gives an edge `SYNC` cycles later is the
model's reading of R47 (log 21). -/
def State.fallingEdge (s : State) : Bool := s.dprev && !s.dataLine

/-- `DSYNC <- {DSYNC[SYNC-2:0], dout}` (R151): the pin enters as `DSYNC[0]`, `DSYNC[SYNC-1]` drops out. -/
def shiftIntoSync (d : List Bool) (dout : Bool) : List Bool := (dout :: d).dropLast

/-- The sample step may start (R155): armed, samples remaining, sequencer idle. -/
def State.sampleEnabled (s : State) : Bool := s.seq == .idle && s.regs.armed && s.regs.busy

end Sys2Proof.Machine
end

