-- ==== Sys2Proof/Machine/Controller.lean ====
section
/-! DEFINITION. The read controller's atomic steps: finalisation and the sample step (42_controller.md R154-R170). -/

namespace Sys2Proof.Machine

/-- `avg = tdiv(s32(ACC), u(REQUESTED))` (R163, R164): exact, truncating toward zero. `REQUESTED` = 0 occurs only after
`StartWhileBusy`; the spec gives no quotient for it (log 4). -/
def Regs.average (r : Regs) : Int :=
  if r.requested == 0 then (Config.zeroCountAverage r.acc).toInt else r.acc.toInt.tdiv r.requested.toNat

/-- The new `RESULT` (R163-R166): the difference is exact and rounded once. -/
def Regs.finalResult (r : Regs) : Word :=
  match r.mode with
  | .rawAverage  => i2f r.average
  | .offsetValue => i2f (r.average - r.offset.toInt)
  | .scaledUnits => fdiv (i2f (r.average - r.offset.toInt)) r.scale

/-- The registers after `FINALIZE` (R163, R167-R170): power down, result, tare's offset, READY, the interrupt. -/
def Regs.finalized (r : Regs) : Regs :=
  { r with
    pwr := false
    result := r.finalResult
    offset := if r.tareF then BitVec.ofInt 32 r.average else r.offset
    ready := true
    irqPend := r.irqPend || r.sinkEn }

/-- `FINALIZE` (R163): with a completion sink, one `Sink` event (R170). -/
def State.finalize (s : State) : State :=
  { s with
    regs := s.regs.finalized
    events := if s.regs.sinkEn then s.events ++ [s.regs.finalResult] else s.events }

/-- `ARMED <- 0` (R157). -/
def State.detach (s : State) : State := { s with regs := { s.regs with armed := false } }

/-- `ACC <- ACC + raw; REMAINING <- REMAINING - 1` (R158, R159). -/
def Regs.accumulate (r : Regs) (raw : Word) : Regs :=
  { r with acc := r.acc + raw, remaining := r.remaining - 1 }

/-- The end of a sample step (R156): accumulate, then re-arm (R160) or finalise (R161). -/
def State.finishSample (s : State) (raw : Word) : State :=
  let r := s.regs.accumulate raw
  if r.busy then s.withRegs { r with armed := true } else (s.withRegs r).finalize

/-- PD_SCK is high in a power-down whose hold has not ended (R287): it may not fall yet. -/
def State.lineHeld (tm : Timing) (s : State) : Bool := s.pdSck && decide (s.pdHold < tm.tPD)

/-- PD_SCK at the end of a transfer: `PD_SCK_Q = not PWR` (R49). A rise is a power-down, from which `PDHOLD` counts. -/
def State.settleClockLine (s : State) : State :=
  { s with pdSck := !s.regs.pwr, pdHold := if !s.regs.pwr && !s.pdSck then 0 else s.pdHold }

/-- `READ_RAW` with `Draw24() = d`, then `SELECT_GAIN` (R123, R127): `SR` holds `d`, PD_SCK has gone low after the last
pulse, nothing else changes (R133). The pulses come after the end of a power-down hold (R287), so `PDHOLD` has reached
`T_PD` (log 6, log 10). -/
def State.transfer (tm : Timing) (s : State) (d : Raw) : State := { s with sr := d, pdSck := false, pdHold := tm.tPD }

/-- `SAMPLE_STEP` as one atomic step (R156) with `Draw24() = d`. -/
def State.sampleStep (tm : Timing) (s : State) (d : Raw) : State :=
  ((s.detach.transfer tm d).finishSample (signExtend24 d)).settleClockLine

/-- A ready edge as an atomic step: a sample step where one may start (R155); otherwise it is lost (R154, R251). -/
def State.readyEdge (tm : Timing) (s : State) (d : Raw) : State :=
  if s.sampleEnabled then (s.sampleStep tm d).withResp .idle else s.withResp .idle

end Sys2Proof.Machine
end

