-- ==== Sys2Proof/Machine/Interrupt.lean ====
section
/-! DEFINITION. The meaning of IRQ_ACK (43_host_commands.md R199). -/

namespace Sys2Proof.Machine

/-- IRQ_ACK (R199): `IRQ_PEND <- 0`, in every state. -/
def execIrqAck (s : State) : Host.Outcome State Fault Refusal := .next (s.finishWrite s.regs.acknowledgeIrq)

end Sys2Proof.Machine
end

