-- ==== Sys2Proof/Machine/Registers.lean ====
section
/-! DEFINITION. The meanings of the register reads and writes (43_host_commands.md R200-R207, 20_memory.md R61, R68). -/

namespace Sys2Proof.Machine

/-- RD_STATUS (R200). -/
def execRdStatus (s : State) : Host.Outcome State Fault Refusal := .next (s.finishRead s.regs.statusWord s.regs)

/-- RD_RESULT (R201): returns `RESULT` and clears `READY` in one step. -/
def execRdResult (s : State) : Host.Outcome State Fault Refusal :=
  .next (s.finishRead s.regs.result { s.regs with ready := false })

/-- RD_OFFSET (R202). -/
def execRdOffset (s : State) : Host.Outcome State Fault Refusal := .next (s.finishRead s.regs.offset s.regs)

/-- WR_OFFSET (R203): every value is accepted. -/
def execWrOffset (v : Word) (s : State) : Host.Outcome State Fault Refusal :=
  .next (s.finishWrite { s.regs with offset := v })

/-- RD_SCALE (R204). -/
def execRdScale (s : State) : Host.Outcome State Fault Refusal := .next (s.finishRead s.regs.scale s.regs)

/-- WR_SCALE (R205): every pattern is stored unchanged (R210). -/
def execWrScale (v : Word) (s : State) : Host.Outcome State Fault Refusal :=
  .next (s.finishWrite { s.regs with scale := v })

/-- RD_ACC (R206). -/
def execRdAcc (s : State) : Host.Outcome State Fault Refusal := .next (s.finishRead s.regs.acc s.regs)

/-- RD_COUNTS (R207). -/
def execRdCounts (s : State) : Host.Outcome State Fault Refusal := .next (s.finishRead s.regs.countsWord s.regs)

end Sys2Proof.Machine
end

