-- ==== Sys2Proof/Machine/Setup.lean ====
section
/-! DEFINITION. The meanings of BEGIN and SET_GAIN (43_host_commands.md R191-R193). -/

namespace Sys2Proof.Machine

/-- BEGIN (R191). -/
def execBegin (factor : BitVec 16) (s : State) : Host.Outcome State Fault Refusal :=
  if s.regs.begun then .next (s.raiseFault .beginTwice false)
  else .next (s.finishWrite
    { s.regs with gainCode := selectGain factor s.regs.gainCode, pwr := false, armed := true, begun := true })

/-- SET_GAIN (R193): legal in every state, no fault. -/
def execSetGain (factor : BitVec 16) (s : State) : Host.Outcome State Fault Refusal :=
  .next (s.finishWrite { s.regs with gainCode := selectGain factor s.regs.gainCode })

end Sys2Proof.Machine
end

