-- ==== Sys2Proof/Machine/Starts.lean ====
section
/-! DEFINITION. The meanings of START_AVERAGE, START_VALUE, START_UNITS and TARE (43_host_commands.md R194-R198). -/

namespace Sys2Proof.Machine

/-- START_AVERAGE (R195): `START(0, COUNT, SINK, 0)`. -/
def execStartAverage (sink : Bool) (count : Count) (s : State) : Host.Outcome State Fault Refusal :=
  .next (s.start .rawAverage count sink false)

/-- START_VALUE (R196): `START(1, COUNT, SINK, 0)`. -/
def execStartValue (sink : Bool) (count : Count) (s : State) : Host.Outcome State Fault Refusal :=
  .next (s.start .offsetValue count sink false)

/-- START_UNITS (R197): `START(2, COUNT, SINK, 0)`. -/
def execStartUnits (sink : Bool) (count : Count) (s : State) : Host.Outcome State Fault Refusal :=
  .next (s.start .scaledUnits count sink false)

/-- TARE (R198): `START(0, COUNT, 0, 1)`. -/
def execTare (count : Count) (s : State) : Host.Outcome State Fault Refusal :=
  .next (s.start .rawAverage count false true)

end Sys2Proof.Machine
end

