-- ==== Sys2Proof/Machine/Dispatch.lean ====
section
/-! DEFINITION. Which meaning each host operation has. -/

namespace Sys2Proof.Machine

def exec (i : Instr) (s : State) : Host.Outcome State Fault Refusal :=
  match i with
  | .beginSetup factor => Sys2Proof.Machine.execBegin factor s
  | .setGain factor => Sys2Proof.Machine.execSetGain factor s
  | .startAverage sink count => Sys2Proof.Machine.execStartAverage sink count s
  | .startValue sink count => Sys2Proof.Machine.execStartValue sink count s
  | .startUnits sink count => Sys2Proof.Machine.execStartUnits sink count s
  | .tare count => Sys2Proof.Machine.execTare count s
  | .irqAck => Sys2Proof.Machine.execIrqAck s
  | .rdStatus => Sys2Proof.Machine.execRdStatus s
  | .rdResult => Sys2Proof.Machine.execRdResult s
  | .rdOffset => Sys2Proof.Machine.execRdOffset s
  | .wrOffset v => Sys2Proof.Machine.execWrOffset v s
  | .rdScale => Sys2Proof.Machine.execRdScale s
  | .wrScale v => Sys2Proof.Machine.execWrScale v s
  | .rdAcc => Sys2Proof.Machine.execRdAcc s
  | .rdCounts => Sys2Proof.Machine.execRdCounts s

end Sys2Proof.Machine
end

