-- ==== Sys2Proof/Machine/Clock.lean ====
section
/-! DEFINITION. One rising edge of `clk`: host port, edge detector, sequencer, clock line, reset (42_controller.md
R151-R155, 41_transport.md R121-R136, 70_reset_and_hazards.md R270-R273, R287, R289). -/

namespace Sys2Proof.Machine

/-- A state's image in an outcome. -/
def mapNext (f : State → State) : Host.Outcome State Fault Refusal → Host.Outcome State Fault Refusal
  | .next s    => .next (f s)
  | .fault r   => .fault r
  | .refused r => .refused r

/-- A host transaction performed by the block (R190): the operation it decodes to, or the fault it raises. -/
def perform (t : Txn) (s : State) : Host.Outcome State Fault Refusal :=
  match decode t with
  | .op i     => exec i s
  | .refuse c => .next (s.raiseFault c (!t.we))

/-- The host port in one cycle (R91): a request is performed in a cycle in which `STALL` = 0, else it waits. -/
def hostPort (req : Option Txn) (s : State) : Host.Outcome State Fault Refusal :=
  match req with
  | none   => .next (s.withResp .idle)
  | some t => if s.stall then .next (s.withResp .idle) else perform t s

/-- A sample step starts in the next cycle (R155): the edge is qualified by the registers of this cycle, and by the state
that a transaction acknowledged in the same cycle leaves (log 11). -/
def startsSample (before after : State) : Bool := before.fallingEdge && before.sampleEnabled && after.sampleEnabled

/-- The next position of a sequencer that does not wait (R46, R289): 1 + `T_SU` cycles of setup, 24 data bits and
`GAIN_CODE` gain pulses of `T_H + T_L` cycles each, `T_FIN` cycles to finish. -/
def Seq.advance (tm : Timing) (pulses : Nat) : Seq → Seq
  | .idle      => .idle
  | .setup c   => if c < tm.tSU then .setup (c + 1) else .data 0 0
  | .data i c  =>
    if c + 1 < tm.pulse then .data i (c + 1) else if i + 1 < 24 then .data (i + 1) 0 else .gainp 0 0
  | .gainp k c =>
    if c + 1 < tm.pulse then .gainp k (c + 1) else if k + 1 < pulses then .gainp (k + 1) 0 else .fin 0
  | .fin c     => if c + 1 < tm.tFIN then .fin (c + 1) else .idle

/-- A sample step that has started during a power-down hold waits in its setup until PD_SCK has fallen (R287, log 10): only
then can the line be low for `T_SU` and make its pulses (R128, R136). -/
def State.waitsForHold (s : State) : Bool :=
  match s.seq with
  | .setup _ => s.pdSck
  | _        => false

/-- The sequencer's next position (R46). -/
def State.nextSeq (tm : Timing) (s : State) : Seq :=
  if s.waitsForHold then s.seq else s.seq.advance tm s.regs.gainCode.pulses

/-- What the sample step does in this cycle: detach first (R157), sample a bit in the last high cycle of a data pulse
(R121), accumulate and finish in the last cycle (R156, log 7). -/
def State.sequencerWork (tm : Timing) (s : State) : State :=
  match s.seq with
  | .idle      => s
  | .setup c   => if c = 0 then s.detach else s
  | .data _ c  => if c + 1 = tm.tH then { s with sr := shiftIntoSr s.sr s.dataLine } else s
  | .gainp _ _ => s
  | .fin c     => if c + 1 < tm.tFIN then s else s.finishSample (signExtend24 s.sr)

/-- The next level of PD_SCK, the sequencer going on to `q` (R49, R136): the pulse train inside a sample step, outside it
`not PWR`; a power-down's hold that has not ended keeps it high, before the pulses too (R287, log 10). -/
def nextPdSck (tm : Timing) (q : Seq) (s : State) : Bool :=
  match q with
  | .idle      => s.lineHeld tm || !s.regs.pwr
  | .setup _   => s.lineHeld tm
  | .data _ c  => decide (c < tm.tH)
  | .gainp _ c => decide (c < tm.tH)
  | .fin _     => false

/-- The clock line and the power-down hold (R48, R49): a rise outside a sample step is a power-down and restarts
`PDHOLD`; the counter saturates at `T_PD` (log 8). -/
def State.driveClockLine (tm : Timing) (q : Seq) (s : State) : State :=
  let level := nextPdSck tm q s
  { s with
    pdSck := level
    pdHold := if q == .idle && level && !s.pdSck then 0 else min (s.pdHold + 1) tm.tPD }

/-- The sequencer moves on to `q`; `STALL` is 1 while a sample step runs (R50). -/
def State.goTo (s : State) (q : Seq) : State := { s with seq := q, stall := q != .idle }

/-- The edge detector's cycle (R151, R152), whether or not armed. -/
def State.detectorCycle (s : State) (dout : Bool) : State :=
  { s with dprev := s.dataLine, dsync := shiftIntoSync s.dsync dout }

/-- The block's cycle after its host port: `before` is the state at the start of the cycle, `s` the one the host port
leaves. -/
def clockEdge (tm : Timing) (dout : Bool) (before s : State) : State :=
  let q := if startsSample before s then .setup 0 else s.nextSeq tm
  (((s.sequencerWork tm).driveClockLine tm q).goTo q).detectorCycle dout

/-- A cycle with `rst_n` = 0 (R270, R273): every element takes its reset value, nothing is acknowledged. The model-only
records are those of the whole run (R246, log 5), and the environment is not the block's. -/
def State.resetCycle (tm : Timing) (s : State) : State :=
  { State.atReset tm with events := s.events, faults := s.faults, sched := s.sched, freeIdx := s.freeIdx }

/-- One rising edge of `clk` with these pin levels (R90). -/
def clockCycle (tm : Timing) (p : Pins) (s : State) : Host.Outcome State Fault Refusal :=
  if p.rstN then mapNext (clockEdge tm p.dout s) (hostPort p.req s) else .next (s.resetCycle tm)

/-- PD_SCK after a host transaction as an atomic step, no time passing (log 6): a transaction that switches `PWR` takes
PD_SCK with it (R49), but for the power-up delay, in which it stays high (R287); any other leaves the line alone, a refused
one among them (R190). A rise is a power-down, from which `PDHOLD` counts. -/
def State.followPower (tm : Timing) (before : Bool) (s : State) : State :=
  if s.regs.pwr = before then s else
    let level := nextPdSck tm .idle s
    { s with pdSck := level, pdHold := if level && !s.pdSck then 0 else s.pdHold }

/-- A host transaction as an atomic step (R70, R190). -/
def hostStep (tm : Timing) (t : Txn) (s : State) : Host.Outcome State Fault Refusal :=
  mapNext (State.followPower tm s.regs.pwr) (perform t s)

/-- A wait state of a stalled transaction (R70, R91): a cycle passes, the host holds its request, the data line is free
(log 14). -/
def waitState (tm : Timing) (t : Txn) (s : State) : Host.Outcome State Fault Refusal :=
  clockCycle tm ⟨true, Config.freeDout s.freeIdx, some t⟩
    { s with sched := .host t :: s.sched, freeIdx := s.freeIdx + 1 }

/-- The next move and the state with it taken from the schedule; past the schedule's end the move is free (log 1). -/
def State.takeMove (s : State) : Move × State :=
  match s.sched with
  | m :: ms => (m, { s with sched := ms })
  | []      => (Config.freeMove s.freeIdx, { s with freeIdx := s.freeIdx + 1 })

/-- One move. -/
def runMove (tm : Timing) (m : Move) (s : State) : Host.Outcome State Fault Refusal :=
  match m with
  | .host t      => if s.stall then waitState tm t s else hostStep tm t s
  | .readyEdge d => .next (s.readyEdge tm d)
  | .clock p     => clockCycle tm p s

/-- The next move of the schedule, run. -/
def runNext (tm : Timing) (s : State) : Host.Outcome State Fault Refusal := runMove tm s.takeMove.1 s.takeMove.2

end Sys2Proof.Machine
end

