-- ==== Sys2Proof/Machine/Step.lean ====
section
/-! DEFINITION. One step of the machine, and how a host operation is placed as the next one (log 1, 2). -/

namespace Sys2Proof.Machine

/-- One step: the next move, with the timing of the implementation at hand. -/
def step (s : State) : Host.Outcome State Fault Refusal := runNext Config.timing s

/-- The block fetches nothing (R23, R76): its next operation is the host's next transaction. So the word is placed as a
transaction at the head of the schedule. -/
def State.withFetchWord (s : State) (nbits w : Nat) : State :=
  { s with sched := .host (tableTxn nbits w) :: s.sched }

end Sys2Proof.Machine
end

