-- ==== Sys2Proof/Safety.lean ====
section
/-! DEFINITION. What claims are stated in terms of: correct states, the invariant of 10_state.md R53, runs of moves and
of clock cycles, and the timing contract with the converter (70_reset_and_hazards.md R285-R289). -/

namespace Sys2Proof.Machine

/-- A state in which nothing has been used wrongly (R52): "a model state with a recorded fault is never a correct final
state". -/
abbrev State.Correct (s : State) : Prop := s.faults = []

/-- The canonical form of `FAULTS`: rising order of the codes' numbers, no repeats (log 15). -/
abbrev CanonicalFaults (l : List FaultCode) : Prop := l.Pairwise (fun a b => faultNumber a < faultNumber b)

/-- The sequencer's counters are within their ranges (R46). -/
def Seq.InRange (tm : Timing) (pulses : Nat) : Seq → Prop
  | .idle      => True
  | .setup c   => c ≤ tm.tSU
  | .data i c  => i < 24 ∧ c < tm.pulse
  | .gainp k c => k < pulses ∧ c < tm.pulse
  | .fin c     => c < tm.tFIN

/-- PD_SCK has the level of the sequencer's position (R49, R136): outside a sample step it is high while the converter is
powered down; in setup it is high only in a sample step that waits for a power-down hold; in the finish it is low to the
end (log 7); and a hold that has not ended
finds it high, before any pulse (R287). -/
structure State.ClockLineAgrees (tm : Timing) (s : State) : Prop where
  level : match s.seq with
    | .idle      => s.regs.pwr = false → s.pdSck = true
    | .setup c   => s.pdSck = true → c = 0
    | .data _ c  => s.pdSck = decide (c < tm.tH)
    | .gainp _ c => s.pdSck = decide (c < tm.tH)
    | .fin _     => s.pdSck = false
  held  : s.pdHold ≠ tm.tPD → s.pdSck = true ∧ (s.seq = .idle ∨ s.seq = .setup 0)

/-- `ACC` lies within the range of a sum of `REQUESTED - REMAINING` readings, so it has not overflowed (R10, R53). -/
def Regs.Accounted (r : Regs) : Prop :=
  -(2 ^ 23 * ((r.requested.toNat : Int) - r.remaining.toNat)) ≤ r.acc.toInt ∧
    r.acc.toInt ≤ (2 ^ 23 - 1) * ((r.requested.toNat : Int) - r.remaining.toNat)

/-- The clauses of R53 and R54 on the controller's registers. -/
structure Regs.Consistent (r : Regs) : Prop where
  remaining_le : r.remaining.toNat ≤ r.requested.toNat
  busy_powered : r.busy = true → r.pwr = true
  busy_unread  : r.busy = true → r.ready = false
  busy_begun   : r.busy = true → r.begun = true
  idle_off     : r.busy = false → r.pwr = false
  tare_plain   : r.tareF = true → r.mode = .rawAverage ∧ r.sinkEn = false
  accounted    : r.Accounted

/-- The invariant of every step: the sequencer, `STALL` and PD_SCK agree, `DSYNC` has `SYNC` stages, `FAULTS` is
canonical, a sample step has a sample to take and is detached after its first cycle (R157); and, unless a start while busy
was recorded, after which the state has no meaning (R244), the registers are consistent and an acquisition waits armed
(R53). -/
structure State.Inv (tm : Timing) (s : State) : Prop where
  stall_iff   : s.stall = (s.seq != .idle)
  in_range    : s.seq.InRange tm s.regs.gainCode.pulses
  sampling    : s.stall = true → s.regs.busy = true
  detached    : s.seq = .idle ∨ s.seq = .setup 0 ∨ s.regs.armed = false
  sync_stages : s.dsync.length = tm.sync
  clock_line  : s.ClockLineAgrees tm
  hold_le     : s.pdHold ≤ tm.tPD
  faults_wf   : CanonicalFaults s.faults
  consistent  : FaultCode.startWhileBusy ∉ s.faults → s.regs.Consistent
  waits_armed : FaultCode.startWhileBusy ∉ s.faults → s.seq = .idle → s.regs.busy = true → s.regs.armed = true

/-- The cycles for which a sample step in its first position waits for a power-down hold to end (R287, log 10): until
`PDHOLD` is `T_PD`, and one more in which PD_SCK falls. -/
def State.holdWait (tm : Timing) (s : State) : Nat := if s.pdSck then tm.tPD - s.pdHold + 1 else 0

/-- A run of moves, stopping where a move stops. -/
def runMoves (tm : Timing) : List Move → State → Host.Outcome State Fault Refusal
  | [], s => .next s
  | m :: ms, s =>
    match runMove tm m s with
    | .next t    => runMoves tm ms t
    | .fault r   => .fault r
    | .refused r => .refused r

/-- A run of clock cycles. -/
def runCycles (tm : Timing) (ps : List Pins) (s : State) : Host.Outcome State Fault Refusal :=
  runMoves tm (ps.map Move.clock) s

/-- The rising edges of PD_SCK in a run of clock cycles. -/
def pdSckRises (tm : Timing) : List Pins → State → Nat
  | [], _ => 0
  | p :: ps, s =>
    match clockCycle tm p s with
    | .next t => (if !s.pdSck && t.pdSck then 1 else 0) + pdSckRises tm ps t
    | _ => 0

/-- The exact sum of readings (R156: each a 24-bit two's-complement number). -/
def readingSum (ds : List Raw) : Int := (ds.map BitVec.toInt).sum

/-- The value of a finite binary32 pattern in units of 2^-149 (log 12). -/
def f32Scaled (p : Word) : Int := if f32Neg p then -(f32Mag p : Int) else f32Mag p

/-- The pattern is neither an infinity nor a NaN. -/
def f32Finite (p : Word) : Bool := f32Exp p != 255

/-- The operands of a start (R194): mode, count, sink, tare; none for every other operation. -/
def startOperands : Instr → Option (Mode × Count × Bool × Bool)
  | .startAverage sink count => some (.rawAverage, count, sink, false)
  | .startValue sink count   => some (.offsetValue, count, sink, false)
  | .startUnits sink count   => some (.scaledUnits, count, sink, false)
  | .tare count              => some (.rawAverage, count, false, true)
  | _                        => none

/-- The next move carries the transaction of the operation `i`, as an atomic step or in a clock cycle. -/
def State.NextCarries (s : State) (i : Instr) : Prop :=
  ∃ t, decode t = .op i ∧ (s.takeMove.1 = .host t ∨ ∃ d, s.takeMove.1 = .clock ⟨true, d, some t⟩)

/-- The next move is a cycle with `rst_n` = 0. -/
def State.NextResets (s : State) : Prop := ∃ p, s.takeMove.1 = .clock p ∧ p.rstN = false

end Sys2Proof.Machine

namespace Sys2Proof

/-- The number of cycles of a whole sample step, `S` of R289; one that starts in a power-down hold waits first, for
`State.holdWait` cycles (log 10). -/
def Timing.sampleCycles (tm : Timing) (g : Machine.GainCode) : Nat :=
  1 + tm.tSU + (24 + g.pulses) * (tm.tH + tm.tL) + tm.tFIN

/-- The clock frequency in Hz and the converter's figures in picoseconds (R285-R288), all OPEN. -/
structure Electrical where
  fClk      : Nat
  highMax   : Nat
  highMin   : Nat
  lowMin    : Nat
  setupMin  : Nat
  dataValid : Nat
  powerDown : Nat
  deriving DecidableEq, Repr

/-- A number of cycles lasts at least so many picoseconds. -/
def Electrical.atLeast (e : Electrical) (cycles ps : Nat) : Bool := ps * e.fClk ≤ cycles * 10 ^ 12

/-- The timing contract with the converter (R285-R288). The block does not check it (R131) and no rule of the model
assumes it: a violation shows only in the values drawn (R137). -/
def Timing.Meets (tm : Timing) (e : Electrical) : Bool :=
  decide (tm.tH * 10 ^ 12 ≤ e.highMax * e.fClk) && e.atLeast tm.tH e.highMin && e.atLeast tm.tL e.lowMin &&
    e.atLeast tm.tSU e.setupMin && e.atLeast tm.dataValid e.dataValid &&
    decide (e.powerDown * e.fClk < tm.tPD * 10 ^ 12)

end Sys2Proof
end

