-- ==== Sys2Proof/Certificates/Slice0/Obligations.lean ====
section
/-! DEFINITION. The statements for the provers, from the numbered rules of spec/. -/

open Sys2Proof Sys2Proof.Machine

/-! ## Reset -/

/-- R271: the complete list of reset values, and the STATUS and COUNTS words they give. -/
def Obligations.ResetStateHasTheSpecsValues : Prop :=
  State.reset.regs =
    { gainCode := .one, offset := 0, scale := 0x3F800000, mode := .rawAverage, sinkEn := false, tareF := false,
      remaining := 0, requested := 0, acc := 0, result := 0, ready := false, irqPend := false, begun := false,
      armed := false, pwr := false } ∧
  State.reset.sr = 0 ∧ State.reset.seq = .idle ∧
  State.reset.dsync = List.replicate Config.timing.sync true ∧ 2 ≤ Config.timing.sync ∧ State.reset.dprev = true ∧
  State.reset.pdHold = 0 ∧ State.reset.pdSck = true ∧ State.reset.stall = false ∧ State.reset.events = [] ∧
  State.reset.faults = [] ∧ State.reset.regs.statusWord = 0x00000200 ∧ State.reset.regs.countsWord = 0

/-- R270: with any parameters (R20), in every cycle with `rst_n` = 0 every element takes its reset value, no transaction is acknowledged, `irq` is 0
and PD_SCK is 1; the recorded faults stay (R246). -/
def Obligations.ResetCycleTakesResetValues : Prop :=
  ∀ (tm : Timing) (p : Pins) (s : State), p.rstN = false →
    ∃ t, clockCycle tm p s = .next t ∧ t.regs = State.reset.regs ∧ t.sr = 0 ∧ t.seq = .idle ∧
      t.dsync = List.replicate tm.sync true ∧ t.dprev = true ∧ t.pdHold = 0 ∧ t.stall = false ∧ t.resp.ack = false ∧ t.irq = false ∧ t.pdSckPin = true ∧
      t.faults = s.faults

/-- R273: a reset during a sample step abandons it: nothing is accumulated or finalised, no `Sink` event takes place, and
PD_SCK goes high. That the events of the run before stay recorded is the model's choice (log 5). -/
def Obligations.ResetAbandonsSampleStep : Prop :=
  ∀ (tm : Timing) (p : Pins) (s : State), p.rstN = false → s.stall = true →
    ∃ t, clockCycle tm p s = .next t ∧ t.regs.acc = 0 ∧ t.regs.ready = false ∧ t.regs.result = 0 ∧
      t.events = s.events ∧ t.pdSck = true ∧ t.seq = .idle ∧ t.stall = false ∧ t.regs.busy = false

/-! ## Encoding -/

/-- Words written out from the spec's encodings decode to their operations. -/
def Obligations.SpecWordsDecode : Prop :=
  decode ⟨true, 0x00, 0x10000040⟩ = .op (.beginSetup 64) ∧
  decode ⟨true, 0x00, 0x20000064⟩ = .op (.setGain 100) ∧
  decode ⟨true, 0x00, 0x30000102⟩ = .op (.startAverage true 2) ∧
  decode ⟨true, 0x00, 0x500001FF⟩ = .op (.startUnits true 255) ∧
  decode ⟨true, 0x00, 0x60000003⟩ = .op (.tare 3) ∧
  decode ⟨true, 0x00, 0x70000000⟩ = .op .irqAck ∧
  decode ⟨false, 0x08, 0⟩ = .op .rdResult ∧
  decode ⟨true, 0x0C, 0x000003E8⟩ = .op (.wrOffset 1000)

/-- R94-R98: decoding the encoding of any operation gives it back, with every operand at every value. -/
def Obligations.DecodeEncodeRoundTrip : Prop := ∀ i : Instr, decode (encode i) = .op i

/-- R92, R101: an operation has one encoding: what decodes to it is its encoding, but for a read's write data. -/
def Obligations.DecodedTransactionIsTheEncoding : Prop :=
  ∀ (t : Txn) (i : Instr), decode t = .op i → encode i = { t with wdata := if t.we then t.wdata else 0 }

/-- R98: a transaction decodes to an operation of a row of the opcode table exactly if that row matches it. -/
def Obligations.DecodeFollowsOpcodeTable : Prop :=
  ∀ (t : Txn) (m : String),
    (∃ i, decode t = .op i ∧ i.mnemonic = m) ↔ ∃ r ∈ opcodeTable, r.mnemonic = m ∧ r.covers t = true

/-- R99, R64: the illegal encodings, each answered by a bus error and no state change but the recorded fault; every other
transaction is an operation. -/
def Obligations.IllegalEncodingsAreRefused : Prop :=
  ∀ (t : Txn) (s : State),
    let op := t.wdata.extractLsb' 28 4
    let reserved :=
      ((op = 1 ∨ op = 2) ∧ t.wdata.extractLsb' 16 12 ≠ 0) ∨
      ((op = 3 ∨ op = 4 ∨ op = 5) ∧ t.wdata.extractLsb' 9 19 ≠ 0) ∨
      (op = 6 ∧ t.wdata.extractLsb' 8 20 ≠ 0) ∨ (op = 7 ∧ t.wdata.extractLsb' 0 28 ≠ 0)
    let misaligned := t.addr.extractLsb' 0 2 ≠ 0
    let unmapped := t.td = 0x1C ∨ t.td = 0x3C
    let direction := t.td = 0x00 ∨ t.td = 0x24 ∨ t.td = 0x28 ∨ t.td = 0x34 ∨ t.td = 0x38
    let illegal := t.td = 0x20 ∧ (op = 0 ∨ 8 ≤ op.toNat ∨ reserved)
    let refusedAs (c : FaultCode) : Prop := perform t s = .next
      { s with faults := insertFault c s.faults, resp := ⟨true, true, if t.we then none else some 0⟩ }
    (misaligned → refusedAs .busMisaligned) ∧ (unmapped → refusedAs .busUnmapped) ∧
    (direction → refusedAs .busDirection) ∧ (illegal → refusedAs .illegalCommand) ∧
    (¬misaligned → ¬unmapped → ¬direction → ¬illegal → ∃ i, decode t = .op i)

/-- R99: the legal transactions are exactly those that decode to an operation. -/
def Obligations.LegalTransactionsAreTheOperations : Prop :=
  ∀ t : Txn, t.WellFormed = true ↔ ∃ i, decode t = .op i

/-! ## Steps -/

/-- R190, R70, R91: a transaction that the schedule puts next and that decodes to `i` is `exec i`: as an atomic step, then
the clock line follows `PWR` if the operation switched it, but for the power-up delay (R49, R287), no time passing (the
model's choice, log 6); in a clock cycle, then the block's own cycle follows. -/
def Obligations.StepRunsDecodedOperation : Prop :=
  ∀ (s : State) (t : Txn) (rest : List Move) (i : Instr) (u : State),
    s.stall = false → decode t = .op i → exec i { s with sched := rest } = .next u →
    (s.sched = .host t :: rest →
      step s = .next
        { u with
          pdSck :=
            if u.regs.pwr = s.regs.pwr then u.pdSck
            else !u.regs.pwr || (u.pdSck && decide (u.pdHold < Config.timing.tPD))
          pdHold := if u.regs.pwr = false ∧ s.regs.pwr = true ∧ u.pdSck = false then 0 else u.pdHold }) ∧
    (∀ d, s.sched = .clock ⟨true, d, some t⟩ :: rest →
      step s = .next (clockEdge Config.timing d { s with sched := rest } u))

/-- R242, R190, R208: a transaction refused with a code other than StartWhileBusy changes nothing as an atomic step but the
recorded fault: an illegal one, and a command that is a caller error (R241). -/
def Obligations.RefusedStepChangesOnlyFaults : Prop :=
  ∀ (s : State) (t : Txn) (rest : List Move), s.sched = .host t :: rest → s.stall = false →
    let refusedAs (c : FaultCode) : Prop := step s = .next
      { s with
        sched := rest, faults := insertFault c s.faults, resp := ⟨true, true, if t.we then none else some 0⟩ }
    (∀ c, decode t = .refuse c → refusedAs c) ∧
    (∀ f, decode t = .op (.beginSetup f) → s.regs.begun = true → refusedAs .beginTwice) ∧
    ∀ i mode count sink tare, decode t = .op i → startOperands i = some (mode, count, sink, tare) →
      (s.regs.begun = false → refusedAs .notBegun) ∧
      (s.regs.begun = true → s.regs.remaining = 0 → count = 0 → refusedAs .countZero)

/-- R242, at cycle granularity: a cycle with an illegal transaction and the same cycle with none differ only in the
recorded fault and the bus outputs. -/
def Obligations.RefusedCycleDiffersOnlyInFaults : Prop :=
  ∀ (tm : Timing) (d : Bool) (t : Txn) (c : FaultCode) (s u : State),
    s.stall = false → decode t = .refuse c → clockCycle tm ⟨true, d, none⟩ s = .next u →
    clockCycle tm ⟨true, d, some t⟩ s = .next
      { u with faults := insertFault c u.faults, resp := ⟨true, true, if t.we then none else some 0⟩ }

/-- R240: nothing stops the block: every step answers a next state, and so does every operation. -/
def Obligations.EveryStepAnswersNext : Prop :=
  (∀ s : State, ∃ t, step s = .next t) ∧ ∀ (i : Instr) (s : State), ∃ t, exec i s = .next t

/-- R70, R91: a transaction during a sample step is held in wait states: a cycle passes, it is not acknowledged, it
changes nothing, and it is still next. The registers are those of a cycle without a request. That the data line is free
in that cycle is the model's choice (log 14). -/
def Obligations.StalledTransactionWaits : Prop :=
  ∀ (s : State) (t : Txn) (rest : List Move), s.sched = .host t :: rest → s.stall = true →
    ∃ u, step s = .next u ∧ u.resp.ack = false ∧ u.sched = .host t :: rest ∧ u.faults = s.faults ∧
      ∃ d v, clockCycle Config.timing ⟨true, d, none⟩ s = .next v ∧ v.regs = u.regs ∧ v.seq = u.seq ∧
        v.stall = u.stall ∧ v.events = u.events

/-! ## Host operations: results and frames -/

/-- R191: BEGIN, once. -/
def Obligations.BeginSetsUpOnce : Prop :=
  ∀ (f : BitVec 16) (s : State),
    (s.regs.begun = false → exec (.beginSetup f) s = .next
      { s with
        regs :=
          { s.regs with
            gainCode := if f = 128 then .one else if f = 64 then .three else if f = 32 then .two else s.regs.gainCode
            pwr := false, armed := true, begun := true }
        resp := ⟨true, false, none⟩ }) ∧
    (s.regs.begun = true → exec (.beginSetup f) s = .next
      { s with faults := insertFault .beginTwice s.faults, resp := ⟨true, true, none⟩ })

/-- R193, R102: SET_GAIN, in every state; an unmapped factor changes nothing. -/
def Obligations.SetGainMapsTheFactor : Prop :=
  ∀ (f : BitVec 16) (s : State), exec (.setGain f) s = .next
    { s with
      regs :=
        { s.regs with
          gainCode := if f = 128 then .one else if f = 64 then .three else if f = 32 then .two else s.regs.gainCode }
      resp := ⟨true, false, none⟩ }

/-- R194-R198, R245: the four starts: the faults in their order, and the writes of a start that is none of them. -/
def Obligations.StartsFollowTheCommonSequence : Prop :=
  ∀ (i : Instr) (mode : Mode) (count : Count) (sink tare : Bool) (s : State),
    startOperands i = some (mode, count, sink, tare) →
    (s.regs.begun = false → exec i s = .next
      { s with faults := insertFault .notBegun s.faults, resp := ⟨true, true, none⟩ }) ∧
    (s.regs.begun = true → s.regs.remaining ≠ 0 →
      ∃ t, exec i s = .next t ∧ t.faults = insertFault .startWhileBusy s.faults) ∧
    (s.regs.begun = true → s.regs.remaining = 0 → count = 0 → exec i s = .next
      { s with faults := insertFault .countZero s.faults, resp := ⟨true, true, none⟩ }) ∧
    (s.regs.begun = true → s.regs.remaining = 0 → count ≠ 0 → exec i s = .next
      { s with
        regs :=
          { s.regs with
            acc := 0, remaining := count, requested := count, mode := mode, sinkEn := sink, tareF := tare,
            ready := false, pwr := true, armed := true }
        resp := ⟨true, false, none⟩ })

/-- R244: a start while busy is answered; the fault is recorded; each of R194's writes is performed or not, none with a
bus error; nothing else changes. Holds whatever the free response is (log 3). -/
def Obligations.BusyStartStaysWithinItsBounds : Prop :=
  ∀ (i : Instr) (mode : Mode) (count : Count) (sink tare : Bool) (s : State),
    startOperands i = some (mode, count, sink, tare) → s.regs.begun = true → s.regs.remaining ≠ 0 →
    ∃ t, exec i s = .next t ∧ t.faults = insertFault .startWhileBusy s.faults ∧ t.resp.ack = true ∧
      (t.resp.err = true → t.regs = s.regs) ∧
      (t.regs.acc = s.regs.acc ∨ t.regs.acc = 0) ∧
      (t.regs.remaining = s.regs.remaining ∨ t.regs.remaining = count) ∧
      (t.regs.requested = s.regs.requested ∨ t.regs.requested = count) ∧
      (t.regs.mode = s.regs.mode ∨ t.regs.mode = mode) ∧
      (t.regs.sinkEn = s.regs.sinkEn ∨ t.regs.sinkEn = sink) ∧
      (t.regs.tareF = s.regs.tareF ∨ t.regs.tareF = tare) ∧
      (t.regs.ready = s.regs.ready ∨ t.regs.ready = false) ∧
      (t.regs.pwr = s.regs.pwr ∨ t.regs.pwr = true) ∧
      (t.regs.armed = s.regs.armed ∨ t.regs.armed = true) ∧
      t.regs.gainCode = s.regs.gainCode ∧ t.regs.offset = s.regs.offset ∧ t.regs.scale = s.regs.scale ∧
      t.regs.result = s.regs.result ∧ t.regs.irqPend = s.regs.irqPend ∧ t.regs.begun = s.regs.begun ∧
      t = { s with regs := t.regs, faults := t.faults, resp := t.resp, freeIdx := t.freeIdx }

/-- R199: IRQ_ACK, in every state. -/
def Obligations.IrqAckClearsPending : Prop :=
  ∀ s : State, exec .irqAck s = .next
    { s with regs := { s.regs with irqPend := false }, resp := ⟨true, false, none⟩ }

/-- R200, R202, R204, R206, R207: the reads without side effect, in every state. -/
def Obligations.PlainReadsReturnTheirRegister : Prop :=
  ∀ s : State,
    exec .rdStatus s = .next { s with resp := ⟨true, false, some s.regs.statusWord⟩ } ∧
    exec .rdOffset s = .next { s with resp := ⟨true, false, some s.regs.offset⟩ } ∧
    exec .rdScale s = .next { s with resp := ⟨true, false, some s.regs.scale⟩ } ∧
    exec .rdAcc s = .next { s with resp := ⟨true, false, some s.regs.acc⟩ } ∧
    exec .rdCounts s = .next { s with resp := ⟨true, false, some s.regs.countsWord⟩ }

/-- R201: the read of RESULT returns it and clears READY, in every state. -/
def Obligations.ResultReadClearsReady : Prop :=
  ∀ s : State, exec .rdResult s = .next
    { s with regs := { s.regs with ready := false }, resp := ⟨true, false, some s.regs.result⟩ }

/-- R203, R205, R210: calibration writes store every value unchanged, in every state. -/
def Obligations.CalibrationWritesStoreEveryValue : Prop :=
  ∀ (v : Word) (s : State),
    exec (.wrOffset v) s = .next { s with regs := { s.regs with offset := v }, resp := ⟨true, false, none⟩ } ∧
    exec (.wrScale v) s = .next { s with regs := { s.regs with scale := v }, resp := ⟨true, false, none⟩ }

/-- R41, R42: every bit of STATUS and COUNTS. -/
def Obligations.PackedRegisterLayouts : Prop :=
  ∀ r : Regs,
    let w := r.statusWord
    let c := r.countsWord
    w.getLsbD 0 = r.ready ∧ w.getLsbD 1 = decide (r.remaining ≠ 0) ∧ w.getLsbD 2 = r.armed ∧ w.getLsbD 3 = r.pwr ∧
    w.getLsbD 4 = r.begun ∧ w.getLsbD 5 = r.sinkEn ∧ w.getLsbD 6 = r.tareF ∧
    w.extractLsb' 7 2 = (match r.mode with | .rawAverage => 0 | .offsetValue => 1 | .scaledUnits => 2) ∧
    w.extractLsb' 9 2 = (match r.gainCode with | .one => 1 | .two => 2 | .three => 3) ∧
    w.getLsbD 11 = r.irqPend ∧ w.extractLsb' 12 20 = 0 ∧
    c.extractLsb' 0 8 = r.remaining ∧ c.extractLsb' 8 8 = r.requested ∧ c.extractLsb' 16 16 = 0

/-- R70, R133: no host operation touches the transport, the edge detector, the clock line, STALL or the events; each is
acknowledged; and what it may write is its own: GAIN_CODE by BEGIN and SET_GAIN (R24, R192), OFFSET by WR_OFFSET (R25),
SCALE by WR_SCALE (R26), RESULT by none (R33), IRQ_PEND by IRQ_ACK (R35), BEGUN by BEGIN (R36). -/
def Obligations.HostOperationsFrame : Prop :=
  ∀ (i : Instr) (s t : State), exec i s = .next t →
    t.resp.ack = true ∧ t.sr = s.sr ∧ t.seq = s.seq ∧ t.dsync = s.dsync ∧ t.dprev = s.dprev ∧ t.pdHold = s.pdHold ∧
    t.pdSck = s.pdSck ∧ t.stall = s.stall ∧ t.events = s.events ∧ t.sched = s.sched ∧
    t.regs.result = s.regs.result ∧
    (t.regs.gainCode ≠ s.regs.gainCode → ∃ f, i = .beginSetup f ∨ i = .setGain f) ∧
    (t.regs.offset ≠ s.regs.offset → i = .wrOffset t.regs.offset) ∧
    (t.regs.scale ≠ s.regs.scale → i = .wrScale t.regs.scale) ∧
    (t.regs.irqPend ≠ s.regs.irqPend → i = .irqAck ∧ t.regs.irqPend = false) ∧
    (t.regs.begun ≠ s.regs.begun → t.regs.begun = true ∧ ∃ f, i = .beginSetup f) ∧
    (t.regs.remaining ≠ s.regs.remaining → (startOperands i).isSome = true) ∧
    (t.regs.requested ≠ s.regs.requested → (startOperands i).isSome = true) ∧
    (t.regs.acc ≠ s.regs.acc → (startOperands i).isSome = true ∧ t.regs.acc = 0) ∧
    (t.regs.ready ≠ s.regs.ready → t.regs.ready = false ∧ ((startOperands i).isSome = true ∨ i = .rdResult))

/-! ## Whole-machine rules -/

/-- R26, R205: in every step SCALE changes only by its own write or a reset. -/
def Obligations.ScaleChangesOnlyByItsWrite : Prop :=
  ∀ s t : State, step s = .next t → t.regs.scale ≠ s.regs.scale →
    s.NextResets ∨ s.NextCarries (.wrScale t.regs.scale)

/-- R24, R192: in every step GAIN_CODE changes only by BEGIN, SET_GAIN or a reset. -/
def Obligations.GainChangesOnlyByGainSelection : Prop :=
  ∀ s t : State, step s = .next t → t.regs.gainCode ≠ s.regs.gainCode →
    s.NextResets ∨ ∃ f, s.NextCarries (.beginSetup f) ∨ s.NextCarries (.setGain f)

/-- R25, R167: in every step OFFSET changes only by its own write, a reset, or a finalisation of a tare. -/
def Obligations.OffsetChangesOnlyByWriteOrTare : Prop :=
  ∀ s t : State, step s = .next t → t.regs.offset ≠ s.regs.offset →
    s.NextResets ∨ s.NextCarries (.wrOffset t.regs.offset) ∨
      (t.regs.tareF = true ∧ t.regs.ready = true ∧ t.regs.busy = false)

/-- R33, R161: in every step RESULT changes only by a reset or a finalisation, which leaves the block idle, powered down,
disarmed and READY. That `SEQ` is idle then, the finalisation being in the last of the `T_FIN` cycles, is the model's
reading (log 7). -/
def Obligations.ResultChangesOnlyAtFinalisation : Prop :=
  ∀ s t : State, step s = .next t → t.regs.result ≠ s.regs.result →
    s.NextResets ∨
      (t.regs.ready = true ∧ t.regs.busy = false ∧ t.regs.pwr = false ∧ t.seq = .idle ∧
        (State.Inv Config.timing s → t.regs.armed = false))

/-- R36: BEGUN, once set, is cleared only by a reset. -/
def Obligations.BegunIsClearedOnlyByReset : Prop :=
  ∀ s t : State, step s = .next t → s.regs.begun = true → t.regs.begun = false → s.NextResets

/-- R249: `irq` rises only at a finalisation with a completion sink, and falls only by IRQ_ACK or a reset. -/
def Obligations.IrqRisesAndFallsAsSignalled : Prop :=
  ∀ s t : State, step s = .next t →
    (s.irq = false → t.irq = true →
      t.regs.sinkEn = true ∧ t.regs.ready = true ∧ t.events = s.events ++ [t.regs.result]) ∧
    (s.irq = true → t.irq = false → s.NextResets ∨ s.NextCarries .irqAck)

/-- R51, R170: a step appends at most one event, and only a finalisation with a completion sink does, with the new RESULT;
a finalisation that finds IRQ_PEND set still appends its own (R252). -/
def Obligations.EventsGrowByFinalisationsOnly : Prop :=
  ∀ s t : State, step s = .next t →
    t.events = s.events ∨
      (t.events = s.events ++ [t.regs.result] ∧ t.regs.sinkEn = true ∧ t.regs.ready = true ∧ t.irq = true)

/-- R246: recorded faults are never removed, by any step. -/
def Obligations.FaultsOnlyGrow : Prop :=
  ∀ (s t : State) (c : FaultCode), step s = .next t → c ∈ s.faults → c ∈ t.faults

/-- R174, R159: an acquisition in flight is never cut short: a step leaves REMAINING or takes one from it, but for a reset
and the use after which the state has no meaning (R244). -/
def Obligations.NoStepAbortsAnAcquisition : Prop :=
  ∀ s t : State, step s = .next t → s.regs.busy = true →
    s.NextResets ∨ .startWhileBusy ∈ t.faults ∨ t.regs.remaining = s.regs.remaining ∨
      t.regs.remaining.toNat + 1 = s.regs.remaining.toNat

/-- R44, R171: the controller leaves Idle only by a start, whose count it then has to take. -/
def Obligations.OnlyStartsLeaveIdle : Prop :=
  ∀ s t : State, State.Inv Config.timing s → step s = .next t → s.regs.busy = false → t.regs.busy = true →
    ∃ i mode sink tare, s.NextCarries i ∧ startOperands i = some (mode, t.regs.remaining, sink, tare)

/-- The invariant holds at reset. -/
def Obligations.InvariantHoldsAtReset : Prop := State.Inv Config.timing State.reset

/-- R53, R54, R157, R49, R287: every step keeps the invariant. The model's are the wait for a power-down hold (log 10), the
finish with PD_SCK low, its sample still to take and detached (log 7), the bound of `PDHOLD` (log 8) and the order of
`FAULTS` (log 15). -/
def Obligations.StepKeepsTheInvariant : Prop :=
  ∀ s t : State, State.Inv Config.timing s → step s = .next t → State.Inv Config.timing t

/-! ## The edge detector and the cycle granularity -/

/-- R151, R152: the synchroniser and the previous sample move on in every cycle out of reset, whatever else happens; so
after `SYNC` cycles (R12; any number of stages, log 9) the flip-flops hold the data line of those cycles, and the block
reads the level it had in the first of them. -/
def Obligations.DetectorRunsEveryCycle : Prop :=
  (∀ (tm : Timing) (p : Pins) (s t : State), p.rstN = true → s.dsync.length = tm.sync → clockCycle tm p s = .next t →
    t.dsync.length = tm.sync ∧ t.dsync[0]? = some p.dout ∧
    (∀ k, k + 1 < tm.sync → t.dsync[k + 1]? = s.dsync[k]?) ∧ s.dsync[tm.sync - 1]? = some t.dprev ∧
    ∃ d, s.dsync[tm.sync - 2]? = some d ∧ t.fallingEdge = (t.dprev && !d)) ∧
  ∀ (tm : Timing) (p : Pins) (ps : List Pins) (s t : State), s.dsync.length = tm.sync → (p :: ps).length = tm.sync →
    (∀ q ∈ p :: ps, q.rstN = true) → runCycles tm (p :: ps) s = .next t →
    t.dsync = ((p :: ps).map Pins.dout).reverse ∧ t.dataLine = p.dout

/-- R155, R154: in a cycle without a transaction a sample step starts exactly if the edge is qualified; an edge that is
not changes nothing. -/
def Obligations.OnlyAQualifiedEdgeStartsASampleStep : Prop :=
  ∀ (tm : Timing) (d : Bool) (s t : State), s.seq = .idle → s.stall = false →
    clockCycle tm ⟨true, d, none⟩ s = .next t →
    t.regs = s.regs ∧ t.sr = s.sr ∧ t.events = s.events ∧ t.faults = s.faults ∧
    (s.fallingEdge = true ∧ s.regs.armed = true ∧ s.regs.remaining ≠ 0 → t.seq = .setup 0 ∧ t.stall = true) ∧
    (¬(s.fallingEdge = true ∧ s.regs.armed = true ∧ s.regs.remaining ≠ 0) → t.seq = .idle ∧ t.stall = false)

/-- R254, R155: a transaction acknowledged in the cycle of a qualified edge is performed first; the sample step starts in
the next cycle from the state it leaves. That the edge must be qualified before the transaction and after it is the
model's reading (log 11). -/
def Obligations.TransactionGoesBeforeTheSampleStep : Prop :=
  ∀ (tm : Timing) (d : Bool) (t : Txn) (s u : State), s.seq = .idle → s.stall = false → s.fallingEdge = true →
    s.regs.armed = true → s.regs.remaining ≠ 0 → perform t s = .next u → u.regs.armed = true → u.regs.remaining ≠ 0 →
    ∃ v, clockCycle tm ⟨true, d, some t⟩ s = .next v ∧ v.regs = u.regs ∧ v.resp = u.resp ∧ v.faults = u.faults ∧
      v.seq = .setup 0 ∧ v.stall = true

/-- R128, R136: the cycles of one sample step make exactly 24 + GAIN_CODE rising edges of PD_SCK, and one more for the
power-down if it was the last sample (R169), whatever the clock line and its hold are when it starts. That a sample step
that starts in a power-down hold waits for its end (`holdWait`) is the model's reading (log 10). -/
def Obligations.SampleStepPulseCount : Prop :=
  ∀ (tm : Timing) (ps : List Pins) (s : State), s.seq = .setup 0 → s.stall = true →
    s.regs.remaining ≠ 0 → s.regs.pwr = true → ps.length = s.holdWait tm + tm.sampleCycles s.regs.gainCode →
    (∀ p ∈ ps, p.rstN = true) →
    pdSckRises tm ps s =
      24 + (match s.regs.gainCode with | .one => 1 | .two => 2 | .three => 3) +
        if s.regs.remaining = 1 then 1 else 0

/-- R70, R156, R289: the `S` cycles of a sample step, after those for which it waits for a power-down hold (log 10),
whatever the pins do but for a reset, have the effect of the atomic SAMPLE_STEP that draws the value `SR` ends with, on the
clock line too; STALL is 1 before each of them and 0 after the last. That PD_SCK rises for a power-down in the last of the
`T_FIN` cycles is the model's reading (log 7), and the `PDHOLD` of an atomic step its choice (log 6). -/
def Obligations.ClockedSampleStepRefinesTheAtomicOne : Prop :=
  ∀ (tm : Timing) (ps : List Pins) (s : State), s.seq = .setup 0 → s.stall = true →
    ps.length = s.holdWait tm + tm.sampleCycles s.regs.gainCode → (∀ p ∈ ps, p.rstN = true) →
    (∃ t, runCycles tm ps s = .next t ∧ t.regs = (s.sampleStep tm t.sr).regs ∧
      t.events = (s.sampleStep tm t.sr).events ∧ t.pdSck = (s.sampleStep tm t.sr).pdSck ∧
      (State.ClockLineAgrees tm s → t.pdHold = (s.sampleStep tm t.sr).pdHold) ∧
      t.faults = s.faults ∧ t.seq = .idle ∧ t.stall = false) ∧
    ∀ k < ps.length, ∃ u, runCycles tm (ps.take k) s = .next u ∧ u.stall = true

/-- R121, R123, R66: bit `23 - i` of `SR` after the sample step is the synchronised data line in the last high cycle of
data pulse `i`: most significant bit first. The wait for a power-down hold, if there is one, comes before (log 10). -/
def Obligations.DataBitsArriveMostSignificantFirst : Prop :=
  ∀ (tm : Timing) (ps : List Pins) (s t : State), s.seq = .setup 0 → s.stall = true →
    ps.length = s.holdWait tm + tm.sampleCycles s.regs.gainCode → (∀ p ∈ ps, p.rstN = true) →
    runCycles tm ps s = .next t →
    ∀ i < 24, ∃ u,
      runCycles tm (ps.take (s.holdWait tm + (1 + tm.tSU + i * (tm.tH + tm.tL) + (tm.tH - 1)))) s = .next u ∧
        u.pdSck = true ∧ t.sr.getLsbD (23 - i) = u.dataLine

/-- R290: the course of a sample step depends on nothing but GAIN_CODE and the parameters: two blocks at the same position
with the same gain go on alike, whatever their data, modes, counts and pins. In the setup, where a sample step may wait for
a power-down hold, they have the same clock line and the same hold, which is the model's reading (log 10); so is the same
PD_SCK in the finish whatever the counts, the rise for a power-down being in the last of the `T_FIN` cycles (log 7). -/
def Obligations.SampleStepCourseIgnoresData : Prop :=
  ∀ (tm : Timing) (p q : Pins) (s t u v : State), p.rstN = true → q.rstN = true → s.stall = true → t.stall = true →
    s.seq ≠ .idle → s.seq = t.seq → s.regs.gainCode = t.regs.gainCode →
    (∀ c, s.seq = .setup c → s.pdSck = t.pdSck ∧ s.pdHold = t.pdHold) →
    clockCycle tm p s = .next u → clockCycle tm q t = .next v →
    u.seq = v.seq ∧ u.stall = v.stall ∧ u.regs.gainCode = v.regs.gainCode ∧ (u.seq ≠ .idle → u.pdSck = v.pdSck) ∧
      ∀ c, u.seq = .setup c → u.pdHold = v.pdHold

/-- R287, R48: PD_SCK falls only after `T_PD` cycles of hold, from idle and from the setup in every state and elsewhere
under the invariant, and between sample steps only for a power-up; a rise to a position between sample steps is a
power-down and restarts the hold, which otherwise counts on. The counter's bound is the model's choice (log 8). That the
hold counts on through the finish, a power-down's rise coming at its end, is its reading (log 7), and that a sample step
waits for the hold (log 10). -/
def Obligations.PowerDownHoldIsKept : Prop :=
  ∀ (tm : Timing) (p : Pins) (s t : State), p.rstN = true → clockCycle tm p s = .next t →
    (s.pdSck = true → t.pdSck = false → (s.seq = .idle ∨ ∃ c, s.seq = .setup c) ∨ State.ClockLineAgrees tm s →
      tm.tPD ≤ s.pdHold) ∧
    (s.pdSck = true → t.pdSck = false → t.seq = .idle → t.regs.pwr = true) ∧
    (t.seq = .idle → s.pdSck = false → t.pdSck = true → t.pdHold = 0 ∧ t.regs.pwr = false) ∧
    (t.seq ≠ .idle ∨ s.pdSck = true ∨ t.pdSck = false → t.pdHold = min (s.pdHold + 1) tm.tPD)

/-- R173: while the converter keeps the data line high the acquisition stays as it is, for any number of cycles. -/
def Obligations.SilentConverterHangsTheAcquisition : Prop :=
  ∀ (tm : Timing) (n : Nat) (s : State), s.seq = .idle → s.stall = false → (∀ b ∈ s.dsync, b = true) →
    ∃ t, runCycles tm (List.replicate n ⟨true, true, none⟩) s = .next t ∧ t.regs = s.regs ∧ t.seq = .idle ∧
      t.stall = false ∧ t.events = s.events

/-! ## Transport and controller -/

/-- R126: sign extension from bit 23 alone: the low 24 bits, the fill, and the value as an integer. -/
def Obligations.SignExtensionValue : Prop :=
  ∀ v : Raw, (signExtend24 v).toInt = (if v.getLsbD 23 then (v.toNat : Int) - 2 ^ 24 else (v.toNat : Int)) ∧
    (signExtend24 v).extractLsb' 0 24 = v ∧
    (signExtend24 v).extractLsb' 24 8 = if v.getLsbD 23 then 0xFF else 0x00

/-- R122-R124: 24 bits shifted into `SR` leave `b2:b1:b0`, each byte with its first bit received as bit 7; the first bit
of all is bit 23 and the last is bit 0. -/
def Obligations.ShiftedBitsAssembleTheBytes : Prop :=
  ∀ (x y z : List Bool) (sr : Raw), x.length = 8 → y.length = 8 → z.length = 8 →
    let v := (x ++ y ++ z).foldl shiftIntoSr sr
    v = assembleRaw (shiftByte x) (shiftByte y) (shiftByte z) ∧
    v.extractLsb' 16 8 = shiftByte x ∧ v.extractLsb' 8 8 = shiftByte y ∧ v.extractLsb' 0 8 = shiftByte z ∧
    v.getLsbD 23 = x.getD 0 false ∧ v.getLsbD 0 = z.getD 7 false ∧
    ∀ j < 8, (shiftByte x).getLsbD (7 - j) = x.getD j false

/-- R154, R155, R251: a ready edge that is not qualified (not armed, no sample to take, or inside a sample step) is lost:
nothing changes. The level of `bus_err` in a step without a
transaction is the model's (log 13). -/
def Obligations.UnqualifiedEdgeIsLost : Prop :=
  ∀ (tm : Timing) (d : Raw) (s : State), s.regs.armed = false ∨ s.regs.remaining = 0 ∨ s.seq ≠ .idle →
    runMove tm (.readyEdge d) s = .next { s with resp := ⟨false, false, none⟩ }

/-- R158-R160: a sample step with samples left adds the sign-extended reading, counts down and re-arms; the converter stays
powered up with PD_SCK low. That the atomic step lasts beyond a power-down hold, so that `PDHOLD` has reached `T_PD` after it,
is the model's reading (log 6, log 10), and the level of `bus_err` without a transaction its choice (log 13). -/
def Obligations.SampleStepAccumulatesAndRearms : Prop :=
  ∀ (tm : Timing) (d : Raw) (s : State), s.seq = .idle → s.regs.armed = true → s.regs.pwr = true →
    1 < s.regs.remaining.toNat →
    runMove tm (.readyEdge d) s = .next
      { s with
        regs := { s.regs with acc := s.regs.acc + d.signExtend 32, remaining := s.regs.remaining - 1 }
        sr := d, pdSck := false, pdHold := tm.tPD, resp := ⟨false, false, none⟩ }

/-- R161, R163-R170: the last sample step finalises: power down, the result by the mode's formula, tare's offset, READY,
and with a completion sink IRQ_PEND and one event; nothing else changes. That the atomic step lasts beyond a
power-down hold and restarts `PDHOLD` is the model's reading (log 6, log 10), and the level of `bus_err` without a
transaction its choice (log 13). -/
def Obligations.LastSampleStepFinalises : Prop :=
  ∀ (tm : Timing) (d : Raw) (s : State), s.seq = .idle → s.regs.armed = true → s.regs.remaining = 1 →
    s.regs.requested ≠ 0 →
    let acc := s.regs.acc + d.signExtend 32
    let avg := acc.toInt.tdiv s.regs.requested.toNat
    let result := match s.regs.mode with
      | .rawAverage => i2f avg
      | .offsetValue => i2f (avg - s.regs.offset.toInt)
      | .scaledUnits => fdiv (i2f (avg - s.regs.offset.toInt)) s.regs.scale
    runMove tm (.readyEdge d) s = .next
      { s with
        regs :=
          { s.regs with
            acc := acc, remaining := 0, armed := false, pwr := false, result := result, ready := true
            offset := if s.regs.tareF then BitVec.ofInt 32 avg else s.regs.offset
            irqPend := s.regs.irqPend || s.regs.sinkEn }
        events := if s.regs.sinkEn then s.events ++ [result] else s.events
        sr := d, pdSck := true, pdHold := 0, resp := ⟨false, false, none⟩ }

/-- R164: the RawAverage result is the truncated quotient exactly, and never -0. -/
def Obligations.RawAverageIsExact : Prop :=
  ∀ r : Regs, r.mode = .rawAverage → r.requested ≠ 0 → r.remaining = 0 → r.Accounted →
    let avg := r.acc.toInt.tdiv r.requested.toNat
    avg ≤ 2 ^ 23 ∧ -(2 ^ 23) ≤ avg ∧ f32Finite r.finalResult = true ∧ f32Scaled r.finalResult = avg * 2 ^ 149 ∧
      (avg = 0 → r.finalResult = 0)

/-- R165: the OffsetValue result is the exact difference if it is at most 2^24, and the nearest binary32 to it otherwise,
ties to even, never the wrapped one. -/
def Obligations.OffsetValueIsTheRoundedDifference : Prop :=
  ∀ r : Regs, r.mode = .offsetValue → r.requested ≠ 0 → r.remaining = 0 → r.Accounted →
    let diff := r.acc.toInt.tdiv r.requested.toNat - r.offset.toInt
    r.finalResult = i2f diff ∧ -(2 ^ 31) - 2 ^ 23 + 1 ≤ diff ∧ diff ≤ 2 ^ 31 + 2 ^ 23 - 1 ∧
    f32Finite r.finalResult = true ∧ (diff.natAbs ≤ 2 ^ 24 → f32Scaled r.finalResult = diff * 2 ^ 149) ∧
      ∀ q : Word, f32Finite q = true →
        (f32Scaled r.finalResult - diff * 2 ^ 149).natAbs ≤ (f32Scaled q - diff * 2 ^ 149).natAbs ∧
        ((f32Scaled r.finalResult - diff * 2 ^ 149).natAbs = (f32Scaled q - diff * 2 ^ 149).natAbs →
          f32Scaled q ≠ f32Scaled r.finalResult → r.finalResult.getLsbD 0 = false)

/-- R16: `i2f` rounds to the nearest binary32, ties to even, for every integer below 2^33 in magnitude. The value
of a pattern is IEEE 754's, from outside the spec (log 12). -/
def Obligations.IntegerConversionRoundsToNearestEven : Prop :=
  ∀ z : Int, z.natAbs < 2 ^ 33 →
    f32Finite (i2f z) = true ∧
    ∀ q : Word, f32Finite q = true →
      (f32Scaled (i2f z) - z * 2 ^ 149).natAbs ≤ (f32Scaled q - z * 2 ^ 149).natAbs ∧
      ((f32Scaled (i2f z) - z * 2 ^ 149).natAbs = (f32Scaled q - z * 2 ^ 149).natAbs →
        f32Scaled q ≠ f32Scaled (i2f z) → (i2f z).getLsbD 0 = false)

/-- R16: `fdiv` of finite patterns by nonzero finite patterns rounds the exact quotient to the nearest binary32, ties to
even, with the quotient's sign; it answers an infinity exactly if the quotient is at least halfway beyond the largest
finite value. The value of a pattern and the threshold are IEEE 754's, from outside the spec (log 12). -/
def Obligations.DivisionRoundsToNearestEven : Prop :=
  ∀ a b : Word, f32Finite a = true → f32Finite b = true → f32Mag b ≠ 0 →
    f32Neg (fdiv a b) = (f32Neg a != f32Neg b) ∧
    ((2 ^ 25 - 1) * 2 ^ 252 * f32Mag b ≤ f32Mag a * 2 ^ 149 → f32IsInf (fdiv a b) = true) ∧
    (f32Mag a * 2 ^ 149 < (2 ^ 25 - 1) * 2 ^ 252 * f32Mag b →
      f32Finite (fdiv a b) = true ∧
      ∀ q : Word, f32Finite q = true →
        ((f32Mag (fdiv a b) * f32Mag b : Int) - f32Mag a * 2 ^ 149).natAbs ≤
            ((f32Mag q * f32Mag b : Int) - f32Mag a * 2 ^ 149).natAbs ∧
        (((f32Mag (fdiv a b) * f32Mag b : Int) - f32Mag a * 2 ^ 149).natAbs =
            ((f32Mag q * f32Mag b : Int) - f32Mag a * 2 ^ 149).natAbs →
          f32Mag q ≠ f32Mag (fdiv a b) → (fdiv a b).getLsbD 0 = false))

/-- R166: the ScaledUnits results for a zero, NaN or infinite SCALE and for a zero numerator. -/
def Obligations.DivisionByZeroInfinityAndNaN : Prop :=
  ∀ (z : Int) (b : Word), z.natAbs < 2 ^ 33 →
    (0 < z → fdiv (i2f z) 0x00000000 = 0x7F800000 ∧ fdiv (i2f z) 0x80000000 = 0xFF800000) ∧
    (z < 0 → fdiv (i2f z) 0x00000000 = 0xFF800000 ∧ fdiv (i2f z) 0x80000000 = 0x7F800000) ∧
    fdiv (i2f 0) 0x00000000 = 0x7FC00000 ∧ fdiv (i2f 0) 0x80000000 = 0x7FC00000 ∧
    (f32IsNaN b = true → fdiv (i2f z) b = 0x7FC00000) ∧
    (f32IsInf b = true → fdiv (i2f z) b = if decide (z < 0) != b.msb then 0x80000000 else 0x00000000) ∧
    (f32Finite b = true → f32Mag b ≠ 0 → fdiv (i2f 0) b = if b.msb then 0x80000000 else 0x00000000)

/-- R162, R164-R170, R10: an acquisition of `count` samples takes exactly `count` ready edges: REMAINING counts down, ACC
is the exact sum of the readings, READY stays 0; at the last the result is the mode's formula of the sum, the block is
Idle, powered down and disarmed, and the completion sink is called once if present. -/
def Obligations.AcquisitionRunsToCompletion : Prop :=
  ∀ (tm : Timing) (i : Instr) (mode : Mode) (count : Count) (sink tare : Bool) (ds : List Raw) (s : State),
    startOperands i = some (mode, count, sink, tare) → s.seq = .idle → s.stall = false → s.regs.begun = true →
    s.regs.remaining = 0 → count ≠ 0 → ds.length = count.toNat →
    (∀ k < ds.length, ∃ u, runMoves tm (.host (encode i) :: (ds.take k).map Move.readyEdge) s = .next u ∧
      u.regs.remaining.toNat = count.toNat - k ∧ u.regs.acc.toInt = readingSum (ds.take k) ∧
      u.regs.ready = false ∧ u.regs.armed = true ∧ u.events = s.events) ∧
    ∃ t, runMoves tm (.host (encode i) :: ds.map Move.readyEdge) s = .next t ∧
      let avg := (readingSum ds).tdiv count.toNat
      t.regs.remaining = 0 ∧ t.regs.acc.toInt = readingSum ds ∧ t.regs.ready = true ∧ t.regs.armed = false ∧
      t.regs.pwr = false ∧
      t.regs.result = (match mode with
        | .rawAverage => i2f avg
        | .offsetValue => i2f (avg - s.regs.offset.toInt)
        | .scaledUnits => fdiv (i2f (avg - s.regs.offset.toInt)) s.regs.scale) ∧
      t.regs.offset = (if tare then BitVec.ofInt 32 avg else s.regs.offset) ∧
      t.regs.irqPend = (s.regs.irqPend || sink) ∧ t.events = (if sink then s.events ++ [t.regs.result] else s.events) ∧
      t.faults = s.faults

/-- R167: after a tare of constant readings OFFSET is that reading exactly, and so is the value of RESULT. -/
def Obligations.TareOfConstantReadingsLoadsIt : Prop :=
  ∀ (tm : Timing) (count : Count) (k : Raw) (s : State), s.seq = .idle → s.stall = false → s.regs.begun = true →
    s.regs.remaining = 0 → count ≠ 0 →
    ∃ t, runMoves tm (.host (encode (.tare count)) :: List.replicate count.toNat (.readyEdge k)) s = .next t ∧
      t.regs.offset = k.signExtend 32 ∧ f32Scaled t.regs.result = k.toInt * 2 ^ 149 ∧ t.regs.ready = true ∧
      t.regs.irqPend = s.regs.irqPend ∧ t.events = s.events

/-! ## The clock line -/

/-- R287, R272: a power-down lasts its hold: from before the pulses of a sample step, while `PDHOLD` has not reached `T_PD`,
PD_SCK stays high over host transactions, clock cycles and resets, a sample step that starts on the way included. That an
atomic host transaction takes no time is the model's choice (log 6); an atomic ready edge takes the whole hold with it. -/
def Obligations.PowerDownLastsItsHold : Prop :=
  ∀ (tm : Timing) (ms : List Move) (s t : State), s.pdSck = true → (s.seq = .idle ∨ ∃ c, s.seq = .setup c) →
    s.pdHold + ms.length ≤ tm.tPD → (∀ m ∈ ms, ∀ d, m ≠ .readyEdge d) →
    runMoves tm ms s = .next t → t.pdSck = true

/-- R49, R136, R121, R127, R129: after every cycle out of reset PD_SCK is high in a data or gain pulse exactly in its first
`T_H` cycles and low in the finish; between sample steps it is `not PWR`, or high in a power-down hold that has not ended
(R287), and in the setup it is low but for such a hold, which the sample step waits for (the model's reading, log 10). That
it is low through the whole finish, rising for a power-down at its end, is the model's reading too (log 7). -/
def Obligations.PdSckFollowsThePulseTrain : Prop :=
  ∀ (tm : Timing) (p : Pins) (s t : State), p.rstN = true → clockCycle tm p s = .next t →
    (t.seq = .idle → t.pdSck = (!t.regs.pwr || (s.pdSck && decide (s.pdHold < tm.tPD)))) ∧
    (∀ c, t.seq = .setup c → t.pdSck = (s.pdSck && decide (s.pdHold < tm.tPD))) ∧
    (∀ i c, t.seq = .data i c ∨ t.seq = .gainp i c → t.pdSck = decide (c < tm.tH)) ∧
    ∀ c, t.seq = .fin c → t.pdSck = false

/-- R287, R136: a sample step that starts in a power-down hold stands in its first position, detached, with PD_SCK high,
until the hold has ended; then PD_SCK falls, and the setup's `1 + T_SU` low cycles come before the first pulse. That it
waits there is the model's reading (log 10). -/
def Obligations.SampleStepWaitsForTheHold : Prop :=
  ∀ (tm : Timing) (ps : List Pins) (s : State), s.seq = .setup 0 → s.stall = true → (∀ p ∈ ps, p.rstN = true) →
    (ps.length < s.holdWait tm → ∃ u, runCycles tm ps s = .next u ∧ u.seq = .setup 0 ∧ u.pdSck = true ∧
      u.stall = true ∧ u.regs = (if ps = [] then s.regs else { s.regs with armed := false })) ∧
    (s.holdWait tm ≤ ps.length → ps.length ≤ s.holdWait tm + tm.tSU → ∃ u, runCycles tm ps s = .next u ∧
      u.seq = .setup (ps.length - s.holdWait tm) ∧ u.pdSck = false ∧ u.stall = true) ∧
    (ps.length = s.holdWait tm + (1 + tm.tSU) →
      ∃ u, runCycles tm ps s = .next u ∧ u.seq = .data 0 0 ∧ u.pdSck = true ∧ u.stall = true)
end

