-- ==== Sys2Proof/Laws/State.lean ====
section
/-! SUPPORT. The fields of State after each of its updates, one lemma per field per update. -/

namespace Sys2Proof.Machine

@[simp] theorem State.withResp_regs (s : State) (b : BusResp) : (s.withResp b).regs = s.regs := rfl
@[simp] theorem State.withResp_sr (s : State) (b : BusResp) : (s.withResp b).sr = s.sr := rfl
@[simp] theorem State.withResp_seq (s : State) (b : BusResp) : (s.withResp b).seq = s.seq := rfl
@[simp] theorem State.withResp_dsync (s : State) (b : BusResp) : (s.withResp b).dsync = s.dsync := rfl
@[simp] theorem State.withResp_dprev (s : State) (b : BusResp) : (s.withResp b).dprev = s.dprev := rfl
@[simp] theorem State.withResp_pdHold (s : State) (b : BusResp) : (s.withResp b).pdHold = s.pdHold := rfl
@[simp] theorem State.withResp_pdSck (s : State) (b : BusResp) : (s.withResp b).pdSck = s.pdSck := rfl
@[simp] theorem State.withResp_stall (s : State) (b : BusResp) : (s.withResp b).stall = s.stall := rfl
@[simp] theorem State.withResp_events (s : State) (b : BusResp) : (s.withResp b).events = s.events := rfl
@[simp] theorem State.withResp_faults (s : State) (b : BusResp) : (s.withResp b).faults = s.faults := rfl
@[simp] theorem State.withResp_resp (s : State) (b : BusResp) : (s.withResp b).resp = b := rfl
@[simp] theorem State.withResp_sched (s : State) (b : BusResp) : (s.withResp b).sched = s.sched := rfl
@[simp] theorem State.withResp_freeIdx (s : State) (b : BusResp) : (s.withResp b).freeIdx = s.freeIdx := rfl

@[simp] theorem State.withRegs_regs (s : State) (r : Regs) : (s.withRegs r).regs = r := rfl
@[simp] theorem State.withRegs_sr (s : State) (r : Regs) : (s.withRegs r).sr = s.sr := rfl
@[simp] theorem State.withRegs_seq (s : State) (r : Regs) : (s.withRegs r).seq = s.seq := rfl
@[simp] theorem State.withRegs_dsync (s : State) (r : Regs) : (s.withRegs r).dsync = s.dsync := rfl
@[simp] theorem State.withRegs_dprev (s : State) (r : Regs) : (s.withRegs r).dprev = s.dprev := rfl
@[simp] theorem State.withRegs_pdHold (s : State) (r : Regs) : (s.withRegs r).pdHold = s.pdHold := rfl
@[simp] theorem State.withRegs_pdSck (s : State) (r : Regs) : (s.withRegs r).pdSck = s.pdSck := rfl
@[simp] theorem State.withRegs_stall (s : State) (r : Regs) : (s.withRegs r).stall = s.stall := rfl
@[simp] theorem State.withRegs_events (s : State) (r : Regs) : (s.withRegs r).events = s.events := rfl
@[simp] theorem State.withRegs_faults (s : State) (r : Regs) : (s.withRegs r).faults = s.faults := rfl
@[simp] theorem State.withRegs_resp (s : State) (r : Regs) : (s.withRegs r).resp = s.resp := rfl
@[simp] theorem State.withRegs_sched (s : State) (r : Regs) : (s.withRegs r).sched = s.sched := rfl
@[simp] theorem State.withRegs_freeIdx (s : State) (r : Regs) : (s.withRegs r).freeIdx = s.freeIdx := rfl

@[simp] theorem State.finishWrite_regs (s : State) (r : Regs) : (s.finishWrite r).regs = r := rfl
@[simp] theorem State.finishWrite_sr (s : State) (r : Regs) : (s.finishWrite r).sr = s.sr := rfl
@[simp] theorem State.finishWrite_seq (s : State) (r : Regs) : (s.finishWrite r).seq = s.seq := rfl
@[simp] theorem State.finishWrite_dsync (s : State) (r : Regs) : (s.finishWrite r).dsync = s.dsync := rfl
@[simp] theorem State.finishWrite_dprev (s : State) (r : Regs) : (s.finishWrite r).dprev = s.dprev := rfl
@[simp] theorem State.finishWrite_pdHold (s : State) (r : Regs) : (s.finishWrite r).pdHold = s.pdHold := rfl
@[simp] theorem State.finishWrite_pdSck (s : State) (r : Regs) : (s.finishWrite r).pdSck = s.pdSck := rfl
@[simp] theorem State.finishWrite_stall (s : State) (r : Regs) : (s.finishWrite r).stall = s.stall := rfl
@[simp] theorem State.finishWrite_events (s : State) (r : Regs) : (s.finishWrite r).events = s.events := rfl
@[simp] theorem State.finishWrite_faults (s : State) (r : Regs) : (s.finishWrite r).faults = s.faults := rfl
@[simp] theorem State.finishWrite_resp (s : State) (r : Regs) : (s.finishWrite r).resp = .wrote := rfl
@[simp] theorem State.finishWrite_sched (s : State) (r : Regs) : (s.finishWrite r).sched = s.sched := rfl
@[simp] theorem State.finishWrite_freeIdx (s : State) (r : Regs) : (s.finishWrite r).freeIdx = s.freeIdx := rfl

@[simp] theorem State.finishRead_regs (s : State) (v : Word) (r : Regs) : (s.finishRead v r).regs = r := rfl
@[simp] theorem State.finishRead_sr (s : State) (v : Word) (r : Regs) : (s.finishRead v r).sr = s.sr := rfl
@[simp] theorem State.finishRead_seq (s : State) (v : Word) (r : Regs) : (s.finishRead v r).seq = s.seq := rfl
@[simp] theorem State.finishRead_dsync (s : State) (v : Word) (r : Regs) : (s.finishRead v r).dsync = s.dsync := rfl
@[simp] theorem State.finishRead_dprev (s : State) (v : Word) (r : Regs) : (s.finishRead v r).dprev = s.dprev := rfl
@[simp] theorem State.finishRead_pdHold (s : State) (v : Word) (r : Regs) : (s.finishRead v r).pdHold = s.pdHold := rfl
@[simp] theorem State.finishRead_pdSck (s : State) (v : Word) (r : Regs) : (s.finishRead v r).pdSck = s.pdSck := rfl
@[simp] theorem State.finishRead_stall (s : State) (v : Word) (r : Regs) : (s.finishRead v r).stall = s.stall := rfl
@[simp] theorem State.finishRead_events (s : State) (v : Word) (r : Regs) : (s.finishRead v r).events = s.events := rfl
@[simp] theorem State.finishRead_faults (s : State) (v : Word) (r : Regs) : (s.finishRead v r).faults = s.faults := rfl
@[simp] theorem State.finishRead_resp (s : State) (v : Word) (r : Regs) : (s.finishRead v r).resp = .read v := rfl
@[simp] theorem State.finishRead_sched (s : State) (v : Word) (r : Regs) : (s.finishRead v r).sched = s.sched := rfl
@[simp] theorem State.finishRead_freeIdx (s : State) (v : Word) (r : Regs) : (s.finishRead v r).freeIdx = s.freeIdx := rfl

@[simp] theorem State.recordFault_regs (s : State) (c : FaultCode) : (s.recordFault c).regs = s.regs := rfl
@[simp] theorem State.recordFault_sr (s : State) (c : FaultCode) : (s.recordFault c).sr = s.sr := rfl
@[simp] theorem State.recordFault_seq (s : State) (c : FaultCode) : (s.recordFault c).seq = s.seq := rfl
@[simp] theorem State.recordFault_dsync (s : State) (c : FaultCode) : (s.recordFault c).dsync = s.dsync := rfl
@[simp] theorem State.recordFault_dprev (s : State) (c : FaultCode) : (s.recordFault c).dprev = s.dprev := rfl
@[simp] theorem State.recordFault_pdHold (s : State) (c : FaultCode) : (s.recordFault c).pdHold = s.pdHold := rfl
@[simp] theorem State.recordFault_pdSck (s : State) (c : FaultCode) : (s.recordFault c).pdSck = s.pdSck := rfl
@[simp] theorem State.recordFault_stall (s : State) (c : FaultCode) : (s.recordFault c).stall = s.stall := rfl
@[simp] theorem State.recordFault_events (s : State) (c : FaultCode) : (s.recordFault c).events = s.events := rfl
@[simp] theorem State.recordFault_faults (s : State) (c : FaultCode) : (s.recordFault c).faults = insertFault c s.faults := rfl
@[simp] theorem State.recordFault_resp (s : State) (c : FaultCode) : (s.recordFault c).resp = s.resp := rfl
@[simp] theorem State.recordFault_sched (s : State) (c : FaultCode) : (s.recordFault c).sched = s.sched := rfl
@[simp] theorem State.recordFault_freeIdx (s : State) (c : FaultCode) : (s.recordFault c).freeIdx = s.freeIdx := rfl

@[simp] theorem State.raiseFault_regs (s : State) (c : FaultCode) (b : Bool) : (s.raiseFault c b).regs = s.regs := rfl
@[simp] theorem State.raiseFault_sr (s : State) (c : FaultCode) (b : Bool) : (s.raiseFault c b).sr = s.sr := rfl
@[simp] theorem State.raiseFault_seq (s : State) (c : FaultCode) (b : Bool) : (s.raiseFault c b).seq = s.seq := rfl
@[simp] theorem State.raiseFault_dsync (s : State) (c : FaultCode) (b : Bool) : (s.raiseFault c b).dsync = s.dsync := rfl
@[simp] theorem State.raiseFault_dprev (s : State) (c : FaultCode) (b : Bool) : (s.raiseFault c b).dprev = s.dprev := rfl
@[simp] theorem State.raiseFault_pdHold (s : State) (c : FaultCode) (b : Bool) : (s.raiseFault c b).pdHold = s.pdHold := rfl
@[simp] theorem State.raiseFault_pdSck (s : State) (c : FaultCode) (b : Bool) : (s.raiseFault c b).pdSck = s.pdSck := rfl
@[simp] theorem State.raiseFault_stall (s : State) (c : FaultCode) (b : Bool) : (s.raiseFault c b).stall = s.stall := rfl
@[simp] theorem State.raiseFault_events (s : State) (c : FaultCode) (b : Bool) : (s.raiseFault c b).events = s.events := rfl
@[simp] theorem State.raiseFault_faults (s : State) (c : FaultCode) (b : Bool) : (s.raiseFault c b).faults = insertFault c s.faults := rfl
@[simp] theorem State.raiseFault_resp (s : State) (c : FaultCode) (b : Bool) : (s.raiseFault c b).resp = .refused b := rfl
@[simp] theorem State.raiseFault_sched (s : State) (c : FaultCode) (b : Bool) : (s.raiseFault c b).sched = s.sched := rfl
@[simp] theorem State.raiseFault_freeIdx (s : State) (c : FaultCode) (b : Bool) : (s.raiseFault c b).freeIdx = s.freeIdx := rfl

@[simp] theorem State.finalize_regs (s : State) : s.finalize.regs = s.regs.finalized := rfl
@[simp] theorem State.finalize_sr (s : State) : s.finalize.sr = s.sr := rfl
@[simp] theorem State.finalize_seq (s : State) : s.finalize.seq = s.seq := rfl
@[simp] theorem State.finalize_dsync (s : State) : s.finalize.dsync = s.dsync := rfl
@[simp] theorem State.finalize_dprev (s : State) : s.finalize.dprev = s.dprev := rfl
@[simp] theorem State.finalize_pdHold (s : State) : s.finalize.pdHold = s.pdHold := rfl
@[simp] theorem State.finalize_pdSck (s : State) : s.finalize.pdSck = s.pdSck := rfl
@[simp] theorem State.finalize_stall (s : State) : s.finalize.stall = s.stall := rfl
@[simp] theorem State.finalize_events (s : State) : s.finalize.events = if s.regs.sinkEn then s.events ++ [s.regs.finalResult] else s.events := rfl
@[simp] theorem State.finalize_faults (s : State) : s.finalize.faults = s.faults := rfl
@[simp] theorem State.finalize_resp (s : State) : s.finalize.resp = s.resp := rfl
@[simp] theorem State.finalize_sched (s : State) : s.finalize.sched = s.sched := rfl
@[simp] theorem State.finalize_freeIdx (s : State) : s.finalize.freeIdx = s.freeIdx := rfl

@[simp] theorem State.detach_regs (s : State) : s.detach.regs = { s.regs with armed := false } := rfl
@[simp] theorem State.detach_sr (s : State) : s.detach.sr = s.sr := rfl
@[simp] theorem State.detach_seq (s : State) : s.detach.seq = s.seq := rfl
@[simp] theorem State.detach_dsync (s : State) : s.detach.dsync = s.dsync := rfl
@[simp] theorem State.detach_dprev (s : State) : s.detach.dprev = s.dprev := rfl
@[simp] theorem State.detach_pdHold (s : State) : s.detach.pdHold = s.pdHold := rfl
@[simp] theorem State.detach_pdSck (s : State) : s.detach.pdSck = s.pdSck := rfl
@[simp] theorem State.detach_stall (s : State) : s.detach.stall = s.stall := rfl
@[simp] theorem State.detach_events (s : State) : s.detach.events = s.events := rfl
@[simp] theorem State.detach_faults (s : State) : s.detach.faults = s.faults := rfl
@[simp] theorem State.detach_resp (s : State) : s.detach.resp = s.resp := rfl
@[simp] theorem State.detach_sched (s : State) : s.detach.sched = s.sched := rfl
@[simp] theorem State.detach_freeIdx (s : State) : s.detach.freeIdx = s.freeIdx := rfl

@[simp] theorem State.settleClockLine_regs (s : State) : s.settleClockLine.regs = s.regs := rfl
@[simp] theorem State.settleClockLine_sr (s : State) : s.settleClockLine.sr = s.sr := rfl
@[simp] theorem State.settleClockLine_seq (s : State) : s.settleClockLine.seq = s.seq := rfl
@[simp] theorem State.settleClockLine_dsync (s : State) : s.settleClockLine.dsync = s.dsync := rfl
@[simp] theorem State.settleClockLine_dprev (s : State) : s.settleClockLine.dprev = s.dprev := rfl
@[simp] theorem State.settleClockLine_pdHold (s : State) : s.settleClockLine.pdHold = if !s.regs.pwr && !s.pdSck then 0 else s.pdHold := rfl
@[simp] theorem State.settleClockLine_pdSck (s : State) : s.settleClockLine.pdSck = (!s.regs.pwr) := rfl
@[simp] theorem State.settleClockLine_stall (s : State) : s.settleClockLine.stall = s.stall := rfl
@[simp] theorem State.settleClockLine_events (s : State) : s.settleClockLine.events = s.events := rfl
@[simp] theorem State.settleClockLine_faults (s : State) : s.settleClockLine.faults = s.faults := rfl
@[simp] theorem State.settleClockLine_resp (s : State) : s.settleClockLine.resp = s.resp := rfl
@[simp] theorem State.settleClockLine_sched (s : State) : s.settleClockLine.sched = s.sched := rfl
@[simp] theorem State.settleClockLine_freeIdx (s : State) : s.settleClockLine.freeIdx = s.freeIdx := rfl

@[simp] theorem State.followPower_regs (tm : Timing) (b : Bool) (s : State) : (s.followPower tm b).regs = s.regs := by unfold State.followPower; split <;> rfl
@[simp] theorem State.followPower_sr (tm : Timing) (b : Bool) (s : State) : (s.followPower tm b).sr = s.sr := by unfold State.followPower; split <;> rfl
@[simp] theorem State.followPower_seq (tm : Timing) (b : Bool) (s : State) : (s.followPower tm b).seq = s.seq := by unfold State.followPower; split <;> rfl
@[simp] theorem State.followPower_dsync (tm : Timing) (b : Bool) (s : State) : (s.followPower tm b).dsync = s.dsync := by unfold State.followPower; split <;> rfl
@[simp] theorem State.followPower_dprev (tm : Timing) (b : Bool) (s : State) : (s.followPower tm b).dprev = s.dprev := by unfold State.followPower; split <;> rfl
@[simp] theorem State.followPower_stall (tm : Timing) (b : Bool) (s : State) : (s.followPower tm b).stall = s.stall := by unfold State.followPower; split <;> rfl
@[simp] theorem State.followPower_events (tm : Timing) (b : Bool) (s : State) : (s.followPower tm b).events = s.events := by unfold State.followPower; split <;> rfl
@[simp] theorem State.followPower_faults (tm : Timing) (b : Bool) (s : State) : (s.followPower tm b).faults = s.faults := by unfold State.followPower; split <;> rfl
@[simp] theorem State.followPower_resp (tm : Timing) (b : Bool) (s : State) : (s.followPower tm b).resp = s.resp := by unfold State.followPower; split <;> rfl
@[simp] theorem State.followPower_sched (tm : Timing) (b : Bool) (s : State) : (s.followPower tm b).sched = s.sched := by unfold State.followPower; split <;> rfl
@[simp] theorem State.followPower_freeIdx (tm : Timing) (b : Bool) (s : State) : (s.followPower tm b).freeIdx = s.freeIdx := by unfold State.followPower; split <;> rfl

@[simp] theorem State.transfer_regs (tm : Timing) (s : State) (d : Raw) : (s.transfer tm d).regs = s.regs := rfl
@[simp] theorem State.transfer_sr (tm : Timing) (s : State) (d : Raw) : (s.transfer tm d).sr = d := rfl
@[simp] theorem State.transfer_seq (tm : Timing) (s : State) (d : Raw) : (s.transfer tm d).seq = s.seq := rfl
@[simp] theorem State.transfer_dsync (tm : Timing) (s : State) (d : Raw) : (s.transfer tm d).dsync = s.dsync := rfl
@[simp] theorem State.transfer_dprev (tm : Timing) (s : State) (d : Raw) : (s.transfer tm d).dprev = s.dprev := rfl
@[simp] theorem State.transfer_pdHold (tm : Timing) (s : State) (d : Raw) : (s.transfer tm d).pdHold = tm.tPD := rfl
@[simp] theorem State.transfer_pdSck (tm : Timing) (s : State) (d : Raw) : (s.transfer tm d).pdSck = false := rfl
@[simp] theorem State.transfer_stall (tm : Timing) (s : State) (d : Raw) : (s.transfer tm d).stall = s.stall := rfl
@[simp] theorem State.transfer_events (tm : Timing) (s : State) (d : Raw) : (s.transfer tm d).events = s.events := rfl
@[simp] theorem State.transfer_faults (tm : Timing) (s : State) (d : Raw) : (s.transfer tm d).faults = s.faults := rfl
@[simp] theorem State.transfer_resp (tm : Timing) (s : State) (d : Raw) : (s.transfer tm d).resp = s.resp := rfl
@[simp] theorem State.transfer_sched (tm : Timing) (s : State) (d : Raw) : (s.transfer tm d).sched = s.sched := rfl
@[simp] theorem State.transfer_freeIdx (tm : Timing) (s : State) (d : Raw) : (s.transfer tm d).freeIdx = s.freeIdx := rfl

@[simp] theorem State.goTo_regs (s : State) (q : Seq) : (s.goTo q).regs = s.regs := rfl
@[simp] theorem State.goTo_sr (s : State) (q : Seq) : (s.goTo q).sr = s.sr := rfl
@[simp] theorem State.goTo_seq (s : State) (q : Seq) : (s.goTo q).seq = q := rfl
@[simp] theorem State.goTo_dsync (s : State) (q : Seq) : (s.goTo q).dsync = s.dsync := rfl
@[simp] theorem State.goTo_dprev (s : State) (q : Seq) : (s.goTo q).dprev = s.dprev := rfl
@[simp] theorem State.goTo_pdHold (s : State) (q : Seq) : (s.goTo q).pdHold = s.pdHold := rfl
@[simp] theorem State.goTo_pdSck (s : State) (q : Seq) : (s.goTo q).pdSck = s.pdSck := rfl
@[simp] theorem State.goTo_stall (s : State) (q : Seq) : (s.goTo q).stall = (q != .idle) := rfl
@[simp] theorem State.goTo_events (s : State) (q : Seq) : (s.goTo q).events = s.events := rfl
@[simp] theorem State.goTo_faults (s : State) (q : Seq) : (s.goTo q).faults = s.faults := rfl
@[simp] theorem State.goTo_resp (s : State) (q : Seq) : (s.goTo q).resp = s.resp := rfl
@[simp] theorem State.goTo_sched (s : State) (q : Seq) : (s.goTo q).sched = s.sched := rfl
@[simp] theorem State.goTo_freeIdx (s : State) (q : Seq) : (s.goTo q).freeIdx = s.freeIdx := rfl

@[simp] theorem State.detectorCycle_regs (s : State) (d : Bool) : (s.detectorCycle d).regs = s.regs := rfl
@[simp] theorem State.detectorCycle_sr (s : State) (d : Bool) : (s.detectorCycle d).sr = s.sr := rfl
@[simp] theorem State.detectorCycle_seq (s : State) (d : Bool) : (s.detectorCycle d).seq = s.seq := rfl
@[simp] theorem State.detectorCycle_dsync (s : State) (d : Bool) : (s.detectorCycle d).dsync = shiftIntoSync s.dsync d := rfl
@[simp] theorem State.detectorCycle_dprev (s : State) (d : Bool) : (s.detectorCycle d).dprev = s.dataLine := rfl
@[simp] theorem State.detectorCycle_pdHold (s : State) (d : Bool) : (s.detectorCycle d).pdHold = s.pdHold := rfl
@[simp] theorem State.detectorCycle_pdSck (s : State) (d : Bool) : (s.detectorCycle d).pdSck = s.pdSck := rfl
@[simp] theorem State.detectorCycle_stall (s : State) (d : Bool) : (s.detectorCycle d).stall = s.stall := rfl
@[simp] theorem State.detectorCycle_events (s : State) (d : Bool) : (s.detectorCycle d).events = s.events := rfl
@[simp] theorem State.detectorCycle_faults (s : State) (d : Bool) : (s.detectorCycle d).faults = s.faults := rfl
@[simp] theorem State.detectorCycle_resp (s : State) (d : Bool) : (s.detectorCycle d).resp = s.resp := rfl
@[simp] theorem State.detectorCycle_sched (s : State) (d : Bool) : (s.detectorCycle d).sched = s.sched := rfl
@[simp] theorem State.detectorCycle_freeIdx (s : State) (d : Bool) : (s.detectorCycle d).freeIdx = s.freeIdx := rfl

@[simp] theorem State.driveClockLine_regs (s : State) (tm : Timing) (q : Seq) : (s.driveClockLine tm q).regs = s.regs := rfl
@[simp] theorem State.driveClockLine_sr (s : State) (tm : Timing) (q : Seq) : (s.driveClockLine tm q).sr = s.sr := rfl
@[simp] theorem State.driveClockLine_seq (s : State) (tm : Timing) (q : Seq) : (s.driveClockLine tm q).seq = s.seq := rfl
@[simp] theorem State.driveClockLine_dsync (s : State) (tm : Timing) (q : Seq) : (s.driveClockLine tm q).dsync = s.dsync := rfl
@[simp] theorem State.driveClockLine_dprev (s : State) (tm : Timing) (q : Seq) : (s.driveClockLine tm q).dprev = s.dprev := rfl
@[simp] theorem State.driveClockLine_pdSck (s : State) (tm : Timing) (q : Seq) : (s.driveClockLine tm q).pdSck = nextPdSck tm q s := rfl
@[simp] theorem State.driveClockLine_stall (s : State) (tm : Timing) (q : Seq) : (s.driveClockLine tm q).stall = s.stall := rfl
@[simp] theorem State.driveClockLine_events (s : State) (tm : Timing) (q : Seq) : (s.driveClockLine tm q).events = s.events := rfl
@[simp] theorem State.driveClockLine_faults (s : State) (tm : Timing) (q : Seq) : (s.driveClockLine tm q).faults = s.faults := rfl
@[simp] theorem State.driveClockLine_resp (s : State) (tm : Timing) (q : Seq) : (s.driveClockLine tm q).resp = s.resp := rfl
@[simp] theorem State.driveClockLine_sched (s : State) (tm : Timing) (q : Seq) : (s.driveClockLine tm q).sched = s.sched := rfl
@[simp] theorem State.driveClockLine_freeIdx (s : State) (tm : Timing) (q : Seq) : (s.driveClockLine tm q).freeIdx = s.freeIdx := rfl

end Sys2Proof.Machine
end

