-- ==== Sys2Proof/Laws/Ops.lean ====
section
/-! SUPPORT. What the shared operations of host transactions can do, once each: recording faults, the four outcomes of a
start, the bounds of a busy start, and the frame of every host operation. -/

namespace Sys2Proof.Machine

theorem Regs.busy_iff (r : Regs) : r.busy = true ↔ r.remaining ≠ 0 := by simp [Regs.busy]

theorem Regs.busy_eq_false_iff (r : Regs) : r.busy = false ↔ r.remaining = 0 := by simp [Regs.busy]

/-- Recording a code adds that code and removes none. -/
theorem mem_insertFault {c d : FaultCode} {l : List FaultCode} : d ∈ insertFault c l ↔ d = c ∨ d ∈ l := by
  induction l with
  | nil => simp [insertFault]
  | cons x xs ih =>
    simp only [insertFault]
    split
    · simp
    · split
      · next h => subst h; simp
      · simp [ih]; tauto

/-- Different codes have different numbers. -/
theorem faultNumber_injective {c d : FaultCode} (h : faultNumber c = faultNumber d) : c = d := by
  cases c <;> cases d <;> first | rfl | simp [faultNumber] at h

/-- Recording a code keeps the canonical form of `FAULTS`. -/
theorem insertFault_canonical (c : FaultCode) {l : List FaultCode} (h : CanonicalFaults l) :
    CanonicalFaults (insertFault c l) := by
  induction l with
  | nil => simp [CanonicalFaults, insertFault]
  | cons x xs ih =>
    obtain ⟨hx, hxs⟩ := List.pairwise_cons.mp h
    simp only [insertFault]
    split
    · next hlt =>
      refine List.pairwise_cons.mpr ⟨fun y hy => ?_, h⟩
      rcases List.mem_cons.mp hy with rfl | hy
      · exact hlt
      · exact hlt.trans (hx y hy)
    · split
      · exact h
      · next hge hne =>
        refine List.pairwise_cons.mpr ⟨fun y hy => ?_, ih hxs⟩
        rcases mem_insertFault.mp hy with rfl | hy
        · exact lt_of_le_of_ne (not_lt.mp hge) (fun e => hne (faultNumber_injective e).symm)
        · exact hx y hy

section Start
variable {s : State} {mode : Mode} {count : Count} {sink tare : Bool}

theorem start_notBegun (hb : s.regs.begun = false) : s.start mode count sink tare = s.raiseFault .notBegun false := by
  simp [State.start, hb]

theorem start_busy (hb : s.regs.begun = true) (hr : s.regs.busy = true) :
    s.start mode count sink tare = s.startBusy (s.regs.started mode count sink tare) := by
  simp [State.start, hb, hr]

theorem start_countZero (hb : s.regs.begun = true) (hr : s.regs.busy = false) (hc : count = 0) :
    s.start mode count sink tare = s.raiseFault .countZero false := by
  simp [State.start, hb, hr, hc]

theorem start_accepted (hb : s.regs.begun = true) (hr : s.regs.busy = false) (hc : count ≠ 0) :
    s.start mode count sink tare = s.finishWrite (s.regs.started mode count sink tare) := by
  have h0 : (count == 0) = false := beq_false_of_ne hc
  simp only [State.start, hb, hr, h0, Bool.not_true, Bool.false_eq_true, if_false]

/-- The four outcomes of a start, in the order of R245. -/
theorem start_cases (s : State) (mode : Mode) (count : Count) (sink tare : Bool) :
    (s.regs.begun = false ∧ s.start mode count sink tare = s.raiseFault .notBegun false) ∨
    (s.regs.begun = true ∧ s.regs.busy = true ∧
      s.start mode count sink tare = s.startBusy (s.regs.started mode count sink tare)) ∨
    (s.regs.begun = true ∧ s.regs.busy = false ∧ count = 0 ∧
      s.start mode count sink tare = s.raiseFault .countZero false) ∨
    (s.regs.begun = true ∧ s.regs.busy = false ∧ count ≠ 0 ∧
      s.start mode count sink tare = s.finishWrite (s.regs.started mode count sink tare)) := by
  cases hb : s.regs.begun
  · exact .inl ⟨rfl, start_notBegun hb⟩
  · cases hr : s.regs.busy
    · by_cases hc : count = 0
      · exact .inr (.inr (.inl ⟨rfl, rfl, hc, start_countZero hb hr hc⟩))
      · exact .inr (.inr (.inr ⟨rfl, rfl, hc, start_accepted hb hr hc⟩))
    · exact .inr (.inl ⟨rfl, rfl, start_busy hb hr⟩)

end Start

/-- The two shapes of a response to a busy start (R244): a refusal, or some of the writes. -/
theorem startBusy_cases (s : State) (full : Regs) :
    (∃ n, s.startBusy full = { s.raiseFault .startWhileBusy false with freeIdx := n }) ∨
    ∃ b n, s.startBusy full =
      { (s.recordFault .startWhileBusy).finishWrite (s.regs.partlyStarted full b) with freeIdx := n } := by
  unfold State.startBusy State.respondBusy
  split
  · exact .inl ⟨_, rfl⟩
  · exact .inr ⟨_, _, rfl⟩

/-- What a start does is one operation for all four (R194). -/
theorem exec_start {i : Instr} {mode : Mode} {count : Count} {sink tare : Bool}
    (h : startOperands i = some (mode, count, sink, tare)) (s : State) :
    exec i s = .next (s.start mode count sink tare) := by
  cases i <;> simp [startOperands] at h <;> (obtain ⟨rfl, rfl, rfl, rfl⟩ := h; rfl)

/-- The six shapes of a host operation: a refusal, a write that sets `r`, a read, or a busy start. -/
theorem exec_cases (i : Instr) (s : State) :
    (∃ c, exec i s = .next (s.raiseFault c false) ∧ c ≠ .startWhileBusy) ∨
    (∃ r, exec i s = .next (s.finishWrite r)) ∨
    (∃ v r, exec i s = .next (s.finishRead v r)) ∨
    (∃ full, s.regs.busy = true ∧ exec i s = .next (s.startBusy full)) := by
  have hs : ∀ m c k t, startOperands i = some (m, c, k, t) →
      (∃ c, exec i s = .next (s.raiseFault c false) ∧ c ≠ .startWhileBusy) ∨
      (∃ r, exec i s = .next (s.finishWrite r)) ∨
      (∃ v r, exec i s = .next (s.finishRead v r)) ∨
      (∃ full, s.regs.busy = true ∧ exec i s = .next (s.startBusy full)) := by
    intro m c k t h
    rw [exec_start h]
    obtain ⟨_, e⟩ | ⟨_, hr, e⟩ | ⟨_, _, _, e⟩ | ⟨_, _, _, e⟩ := start_cases s m c k t
    · exact .inl ⟨_, by rw [e], by simp⟩
    · exact .inr (.inr (.inr ⟨_, hr, by rw [e]⟩))
    · exact .inl ⟨_, by rw [e], by simp⟩
    · exact .inr (.inl ⟨_, by rw [e]⟩)
  cases i with
  | beginSetup f =>
    by_cases hb : s.regs.begun
    · exact .inl ⟨.beginTwice, by simp [exec, execBegin, hb], by simp⟩
    · exact .inr (.inl ⟨_, by simp only [exec, execBegin, hb]; rfl⟩)
  | setGain f => exact .inr (.inl ⟨_, rfl⟩)
  | irqAck => exact .inr (.inl ⟨_, rfl⟩)
  | wrOffset v => exact .inr (.inl ⟨_, rfl⟩)
  | wrScale v => exact .inr (.inl ⟨_, rfl⟩)
  | rdStatus => exact .inr (.inr (.inl ⟨_, _, rfl⟩))
  | rdResult => exact .inr (.inr (.inl ⟨_, _, rfl⟩))
  | rdOffset => exact .inr (.inr (.inl ⟨_, _, rfl⟩))
  | rdScale => exact .inr (.inr (.inl ⟨_, _, rfl⟩))
  | rdAcc => exact .inr (.inr (.inl ⟨_, _, rfl⟩))
  | rdCounts => exact .inr (.inr (.inl ⟨_, _, rfl⟩))
  | startAverage k c => exact hs _ _ _ _ rfl
  | startValue k c => exact hs _ _ _ _ rfl
  | startUnits k c => exact hs _ _ _ _ rfl
  | tare c => exact hs _ _ _ _ rfl

/-- What a host transaction leaves alone, whatever it does: the transport, the edge detector, the clock line, STALL, the
events and the schedule. -/
structure HiddenUnchanged (s t : State) : Prop where
  sr     : t.sr = s.sr
  seq    : t.seq = s.seq
  dsync  : t.dsync = s.dsync
  dprev  : t.dprev = s.dprev
  pdHold : t.pdHold = s.pdHold
  pdSck  : t.pdSck = s.pdSck
  stall  : t.stall = s.stall
  events : t.events = s.events
  sched  : t.sched = s.sched

/-- Every host operation answers a next state, and has that frame. -/
theorem exec_next (i : Instr) (s : State) : ∃ t, exec i s = .next t ∧ HiddenUnchanged s t := by
  obtain ⟨c, e, _⟩ | ⟨r, e⟩ | ⟨v, r, e⟩ | ⟨full, _, e⟩ := exec_cases i s
  · exact ⟨_, e, by constructor <;> rfl⟩
  · exact ⟨_, e, by constructor <;> rfl⟩
  · exact ⟨_, e, by constructor <;> rfl⟩
  · refine ⟨_, e, ?_⟩
    obtain ⟨n, e'⟩ | ⟨b, n, e'⟩ := startBusy_cases s full <;> rw [e'] <;> constructor <;> rfl

/-- Every host transaction answers a next state, with the same frame: an operation's, or a refusal's. -/
theorem perform_cases (t : Txn) (s : State) :
    (∃ i u, decode t = .op i ∧ exec i s = .next u ∧ perform t s = .next u ∧ HiddenUnchanged s u) ∨
    ∃ c, decode t = .refuse c ∧ perform t s = .next (s.raiseFault c (!t.we)) := by
  unfold perform
  cases h : decode t with
  | op i => obtain ⟨u, e, hu⟩ := exec_next i s; exact .inl ⟨i, u, rfl, e, e, hu⟩
  | refuse c => exact .inr ⟨c, rfl, rfl⟩

end Sys2Proof.Machine
end

