-- ==== Sys2Proof/Laws/Controller.lean ====
section
/-! SUPPORT. What the controller's steps can do, once each: finalisation, the end of a sample step, the atomic sample
step. -/

namespace Sys2Proof.Machine

/-- A sample step that leaves samples to take accumulates and re-arms (R158-R160). -/
theorem finishSample_rearms {s : State} {raw : Word} (h : (s.regs.accumulate raw).busy = true) :
    s.finishSample raw = s.withRegs { s.regs.accumulate raw with armed := true } := by
  simp [State.finishSample, h]

/-- A sample step that takes the last sample finalises (R161). -/
theorem finishSample_finalises {s : State} {raw : Word} (h : (s.regs.accumulate raw).busy = false) :
    s.finishSample raw = (s.withRegs (s.regs.accumulate raw)).finalize := by
  simp [State.finishSample, h]

/-- Whatever the end of a sample step does, it touches the registers and the events alone. -/
theorem finishSample_frame (s : State) (raw : Word) :
    s.finishSample raw = { s with regs := (s.finishSample raw).regs, events := (s.finishSample raw).events } := by
  cases h : (s.regs.accumulate raw).busy
  · rw [finishSample_finalises h]; rfl
  · rw [finishSample_rearms h]; rfl

/-- Counting down from a nonzero count takes exactly one. -/
theorem remaining_sub_one {n : Count} (h : n ≠ 0) : (n - 1).toNat = n.toNat - 1 := by
  have : n.toNat ≠ 0 := fun e => h (BitVec.eq_of_toNat_eq e)
  have := n.isLt
  have h1 : (1 : Count).toNat = 1 := rfl
  rw [BitVec.toNat_sub, h1]
  omega

/-- What the sample step does to the registers and the events, from `s` to `t`: nothing yet, the detachment (R157), an
accumulation with samples left (R158-R160), or a finalisation (R161-R170). -/
inductive SampleEffect (s t : State) : Prop where
  | none (regs : t.regs = s.regs) (events : t.events = s.events)
  | detached (seq : s.seq = .setup 0) (regs : t.regs = { s.regs with armed := false }) (events : t.events = s.events)
  | rearmed (raw : Word) (busy : (s.regs.accumulate raw).busy = true)
      (regs : t.regs = { s.regs.accumulate raw with armed := true }) (events : t.events = s.events)
  | finalised (raw : Word) (armed : Bool) (idle : (s.regs.accumulate raw).busy = false)
      (off : armed = s.regs.armed ∨ armed = false)
      (regs : t.regs = { (s.regs.accumulate raw).finalized with armed := armed })
      (events : t.events = if s.regs.sinkEn then s.events ++ [t.regs.result] else s.events)

/-- The end of a sample step as a `SampleEffect`. -/
theorem finishSample_effect (s : State) (raw : Word) : SampleEffect s (s.finishSample raw) := by
  cases h : (s.regs.accumulate raw).busy
  · rw [finishSample_finalises h]; exact .finalised raw s.regs.armed h (.inl rfl) rfl rfl
  · rw [finishSample_rearms h]; exact .rearmed raw h rfl rfl

/-- The atomic sample step with samples left (R156-R160). -/
theorem sampleStep_rearms {tm : Timing} {s : State} {d : Raw} (h : (s.regs.accumulate (signExtend24 d)).busy = true) :
    s.sampleStep tm d =
      ((s.transfer tm d).withRegs { s.regs.accumulate (signExtend24 d) with armed := true }).settleClockLine := by
  have h' : ((s.detach.transfer tm d).regs.accumulate (signExtend24 d)).busy = true := h
  rw [State.sampleStep, finishSample_rearms h']; rfl

/-- The atomic sample step that takes the last sample (R156, R157, R161). -/
theorem sampleStep_finalises {tm : Timing} {s : State} {d : Raw} (h : (s.regs.accumulate (signExtend24 d)).busy = false) :
    s.sampleStep tm d =
      ((s.detach.transfer tm d).withRegs (s.detach.regs.accumulate (signExtend24 d))).finalize.settleClockLine := by
  have h' : ((s.detach.transfer tm d).regs.accumulate (signExtend24 d)).busy = false := h
  rw [State.sampleStep, finishSample_finalises h']; rfl

/-- The atomic sample step as a `SampleEffect`; its finalisation leaves the block disarmed. -/
theorem sampleStep_effect (tm : Timing) (s : State) (d : Raw) : SampleEffect s (s.sampleStep tm d) := by
  cases h : (s.regs.accumulate (signExtend24 d)).busy
  · rw [sampleStep_finalises h]
    exact .finalised (signExtend24 d) false h (.inr rfl) rfl rfl
  · rw [sampleStep_rearms h]
    exact .rearmed (signExtend24 d) h rfl rfl

/-- Nothing but the registers, the events, `SR` and the clock line changes in the atomic sample step (R133). -/
theorem sampleStep_frame (tm : Timing) (s : State) (d : Raw) :
    s.sampleStep tm d =
      { s with
        regs := (s.sampleStep tm d).regs, events := (s.sampleStep tm d).events, sr := d
        pdSck := (s.sampleStep tm d).pdSck, pdHold := (s.sampleStep tm d).pdHold } := by
  cases h : (s.regs.accumulate (signExtend24 d)).busy
  · rw [sampleStep_finalises h]; rfl
  · rw [sampleStep_rearms h]; rfl

end Sys2Proof.Machine
end

