-- ==== Sys2Proof/Laws/Clock.lean ====
section
/-! SUPPORT. What a clock cycle and a move can do, once each: the shapes of the host port, of the sequencer's work and of
a whole step, which the statements about every step rest on. -/

namespace Sys2Proof

/-- A move that is a reset cycle. -/
def Move.IsReset (m : Move) : Prop := ∃ p, m = .clock p ∧ p.rstN = false

/-- A move that carries the operation `i`. -/
def Move.Carries (m : Move) (i : Instr) : Prop :=
  ∃ t, decode t = .op i ∧ (m = .host t ∨ ∃ d, m = .clock ⟨true, d, some t⟩)

end Sys2Proof

namespace Sys2Proof.Machine

/-- What the host's part of a move does, from `s` to `u`: no transaction, the operation `i`, or a refused one. -/
inductive HostEffect (carried : Instr → Prop) (s u : State) : Prop where
  | none (e : ∃ n sch, u = { s.withResp .idle with freeIdx := n, sched := sch })
  | op (i : Instr) (c : carried i) (e : ∃ n sch, exec i { s with freeIdx := n, sched := sch } = .next u)
  | refused (c : FaultCode) (r : Bool) (ne : c ≠ .startWhileBusy) 
      (e : ∃ n sch, u = { s with freeIdx := n, sched := sch }.raiseFault c r)

/-- A refused transaction is none of the starts. -/
theorem decode_refuse_ne {t : Txn} {c : FaultCode} (h : decode t = .refuse c) : c ≠ .startWhileBusy := by
  rintro rfl
  unfold decode at h
  split at h
  · next hc =>
    unfold checkBus at hc
    repeat' split at hc
    all_goals simp_all
  · unfold decodeCommand decodeRegister at h
    dsimp only at h
    split_ifs at h <;> cases h

/-- What a host transaction does. -/
theorem perform_effect {t : Txn} {s u : State} (h : perform t s = .next u) :
    (∃ i, decode t = .op i ∧ exec i s = .next u) ∨
      ∃ c, decode t = .refuse c ∧ u = s.raiseFault c (!t.we) := by
  obtain ⟨i, v, hd, he, hp, _⟩ | ⟨c, hd, hp⟩ := perform_cases t s
  · exact .inl ⟨i, hd, by rw [he, ← hp, h]⟩
  · exact .inr ⟨c, hd, by rw [hp] at h; injection h with h; exact h.symm⟩

/-- The host port always answers a next state. -/
theorem hostPort_next (req : Option Txn) (s : State) : ∃ u, hostPort req s = .next u ∧ HiddenUnchanged s u := by
  unfold hostPort
  cases req with
  | none => exact ⟨_, rfl, by constructor <;> rfl⟩
  | some t =>
    simp only
    split
    · exact ⟨_, rfl, by constructor <;> rfl⟩
    · obtain ⟨i, u, _, _, hp, hu⟩ | ⟨c, _, hp⟩ := perform_cases t s
      · exact ⟨u, hp, hu⟩
      · exact ⟨_, hp, by constructor <;> rfl⟩

/-- A cycle out of reset: the host port, then the block's own cycle. -/
theorem clockCycle_run {tm : Timing} {p : Pins} {s t : State} (hr : p.rstN = true) (h : clockCycle tm p s = .next t) :
    ∃ u, hostPort p.req s = .next u ∧ HiddenUnchanged s u ∧ t = clockEdge tm p.dout s u := by
  obtain ⟨u, hu, hh⟩ := hostPort_next p.req s
  rw [clockCycle, if_pos hr, hu] at h
  injection h with h
  exact ⟨u, hu, hh, h.symm⟩

/-- A cycle out of reset whose host port is known. -/
theorem clockCycle_eq {tm : Timing} {p : Pins} {s u : State} (hr : p.rstN = true) (h : hostPort p.req s = .next u) :
    clockCycle tm p s = .next (clockEdge tm p.dout s u) := by
  rw [clockCycle, if_pos hr, h]; rfl

/-- While a sample step runs the host port does nothing (R70). -/
theorem hostPort_stalled {req : Option Txn} {s : State} (h : s.stall = true) :
    hostPort req s = .next (s.withResp .idle) := by
  unfold hostPort
  cases req <;> simp [h]

/-- A cycle inside a sample step, whatever the host's request. -/
theorem clockCycle_stalled {tm : Timing} {p : Pins} {s : State} (hr : p.rstN = true) (h : s.stall = true) :
    clockCycle tm p s = .next (clockEdge tm p.dout s (s.withResp .idle)) :=
  clockCycle_eq hr (hostPort_stalled h)

/-- Every clock cycle answers a next state. -/
theorem clockCycle_next (tm : Timing) (p : Pins) (s : State) : ∃ t, clockCycle tm p s = .next t := by
  cases hr : p.rstN
  · exact ⟨s.resetCycle tm, by simp [clockCycle, hr]⟩
  · obtain ⟨u, hu, _⟩ := hostPort_next p.req s
    exact ⟨_, clockCycle_eq hr hu⟩

/-- The block's cycle leaves these of the sequencer's work alone. -/
theorem clockEdge_regs (tm : Timing) (d : Bool) (s u : State) :
    (clockEdge tm d s u).regs = (u.sequencerWork tm).regs := rfl
theorem clockEdge_events (tm : Timing) (d : Bool) (s u : State) :
    (clockEdge tm d s u).events = (u.sequencerWork tm).events := rfl
theorem clockEdge_sr (tm : Timing) (d : Bool) (s u : State) :
    (clockEdge tm d s u).sr = (u.sequencerWork tm).sr := rfl
theorem clockEdge_seq (tm : Timing) (d : Bool) (s u : State) :
    (clockEdge tm d s u).seq =
      if startsSample s u then .setup 0 else u.nextSeq tm := rfl
theorem clockEdge_stall (tm : Timing) (d : Bool) (s u : State) :
    (clockEdge tm d s u).stall = ((clockEdge tm d s u).seq != .idle) := rfl

/-- A sequencer that nothing keeps advances. -/
theorem nextSeq_advances {tm : Timing} {s : State} (h : ∀ c, s.seq = .setup c → s.pdSck = false) :
    s.nextSeq tm = s.seq.advance tm s.regs.gainCode.pulses := by
  unfold State.nextSeq State.waitsForHold
  cases hq : s.seq <;> simp_all

/-- A sample step in its setup waits while PD_SCK is high (R287). -/
theorem nextSeq_waits {tm : Timing} {s : State} {c : Nat} (hq : s.seq = .setup c) (hp : s.pdSck = true) :
    s.nextSeq tm = .setup c := by
  simp [State.nextSeq, State.waitsForHold, hq, hp]

/-- Outside a sample step the sequencer has no work. -/
theorem sequencerWork_idle {tm : Timing} {s : State} (h : s.seq = .idle) : s.sequencerWork tm = s := by
  rw [State.sequencerWork, h]

/-- Setup: the first cycle detaches (R157). -/
theorem sequencerWork_setup {tm : Timing} {s : State} {c : Nat} (h : s.seq = .setup c) :
    s.sequencerWork tm = if c = 0 then s.detach else s := by
  rw [State.sequencerWork, h]

/-- A data bit: the last high cycle samples (R121). -/
theorem sequencerWork_data {tm : Timing} {s : State} {i c : Nat} (h : s.seq = .data i c) :
    s.sequencerWork tm = if c + 1 = tm.tH then { s with sr := shiftIntoSr s.sr s.dataLine } else s := by
  rw [State.sequencerWork, h]

/-- A gain pulse: nothing but the clock line moves (R127). -/
theorem sequencerWork_gainp {tm : Timing} {s : State} {k c : Nat} (h : s.seq = .gainp k c) :
    s.sequencerWork tm = s := by
  rw [State.sequencerWork, h]

/-- The finish: its last cycle accumulates and re-arms or finalises (R156). -/
theorem sequencerWork_fin {tm : Timing} {s : State} {c : Nat} (h : s.seq = .fin c) :
    s.sequencerWork tm = if c + 1 < tm.tFIN then s else s.finishSample (signExtend24 s.sr) := by
  rw [State.sequencerWork, h]

/-- The sequencer's work touches the registers, the events and `SR` alone. -/
theorem sequencerWork_frame (tm : Timing) (s : State) :
    s.sequencerWork tm =
      { s with
        regs := (s.sequencerWork tm).regs, events := (s.sequencerWork tm).events, sr := (s.sequencerWork tm).sr } := by
  obtain ⟨q, hq⟩ : ∃ q, s.seq = q := ⟨_, rfl⟩
  cases q with
  | idle => rw [sequencerWork_idle hq]
  | setup c => rw [sequencerWork_setup hq]; split <;> rfl
  | data i c => rw [sequencerWork_data hq]; split <;> rfl
  | gainp k c => rw [sequencerWork_gainp hq]
  | fin c =>
    rw [sequencerWork_fin hq]
    split
    · rfl
    · rw [finishSample_frame]

/-- The sequencer's work depends on the registers, `SR`, the position, the synchroniser and the events alone. -/
theorem sequencerWork_congr (tm : Timing) {s u : State} (hr : u.regs = s.regs) (hsr : u.sr = s.sr) (hq : u.seq = s.seq)
    (hd : u.dsync = s.dsync) (he : u.events = s.events) :
    (u.sequencerWork tm).regs = (s.sequencerWork tm).regs ∧ (u.sequencerWork tm).sr = (s.sequencerWork tm).sr ∧
      (u.sequencerWork tm).events = (s.sequencerWork tm).events := by
  obtain ⟨_, _, _, _, _, _, _, _, _, _, _, _, _⟩ := s
  obtain ⟨_, _, seq, _, _, _, _, _, _, _, _, _, _⟩ := u
  simp only at hr hsr hq hd he
  subst hr hsr hq hd he
  unfold State.sequencerWork
  cases seq with
  | idle => exact ⟨rfl, rfl, rfl⟩
  | setup c => simp only; split <;> exact ⟨rfl, rfl, rfl⟩
  | data i c => simp only; split <;> exact ⟨rfl, rfl, rfl⟩
  | gainp k c => exact ⟨rfl, rfl, rfl⟩
  | fin c =>
    simp only [State.finishSample]
    split
    · exact ⟨rfl, rfl, rfl⟩
    · split <;> exact ⟨rfl, rfl, rfl⟩

/-- The rest of the state after the block's cycle. -/
theorem clockEdge_rest (tm : Timing) (d : Bool) (s u : State) :
    (clockEdge tm d s u).faults = u.faults ∧ (clockEdge tm d s u).resp = u.resp ∧
      (clockEdge tm d s u).sched = u.sched ∧ (clockEdge tm d s u).freeIdx = u.freeIdx ∧
      (clockEdge tm d s u).dprev = u.dataLine ∧ (clockEdge tm d s u).dsync = shiftIntoSync u.dsync d := by
  simp only [clockEdge, State.detectorCycle, State.goTo, State.driveClockLine, State.dataLine]
  rw [sequencerWork_frame tm u]
  simp

/-- The sequencer's work as a `SampleEffect`. -/
theorem sequencerWork_effect (tm : Timing) (s : State) : SampleEffect s (s.sequencerWork tm) := by
  cases hq : s.seq with
  | idle => rw [sequencerWork_idle hq]; exact .none rfl rfl
  | setup c =>
    rw [sequencerWork_setup hq]
    split
    · next h => subst h; exact .detached hq rfl rfl
    · exact .none rfl rfl
  | data i c => rw [sequencerWork_data hq]; split <;> exact .none rfl rfl
  | gainp k c => rw [sequencerWork_gainp hq]; exact .none rfl rfl
  | fin c =>
    rw [sequencerWork_fin hq]
    split
    · exact .none rfl rfl
    · exact finishSample_effect _ _

/-- The block's cycle as a `SampleEffect`. -/
theorem clockEdge_effect (tm : Timing) (d : Bool) (s u : State) : SampleEffect u (clockEdge tm d s u) := by
  have h := sequencerWork_effect tm u
  cases h with
  | none r e => exact .none r e
  | detached q r e => exact .detached q r e
  | rearmed raw b r e => exact .rearmed raw b r e
  | finalised raw a i o r e => exact .finalised raw a i o r e

/-- The clock line in the block's cycle (R48, R49, R287): held, or driven by the new position, and a rise to idle restarts
the hold, which otherwise counts on. -/
theorem clockEdge_line (tm : Timing) (d : Bool) {s u : State} (hh : HiddenUnchanged s u) :
    let t := clockEdge tm d s u
    t.pdSck = nextPdSck tm t.seq { s with regs := t.regs } ∧
      t.pdHold = if t.seq == .idle && t.pdSck && !s.pdSck then 0 else min (s.pdHold + 1) tm.tPD := by
  have hf := sequencerWork_frame tm u
  have hs : (u.sequencerWork tm).pdSck = s.pdSck := by rw [hf]; exact hh.pdSck
  have hp : (u.sequencerWork tm).pdHold = s.pdHold := by rw [hf]; exact hh.pdHold
  constructor
  · change nextPdSck tm _ (u.sequencerWork tm) = _
    simp only [nextPdSck, State.lineHeld, hs, hp]; rfl
  · rw [← hs, ← hp]; rfl

/-- The clock line in a cycle out of reset. -/
theorem clockCycle_line {tm : Timing} {p : Pins} {s t : State} (hr : p.rstN = true) (h : clockCycle tm p s = .next t) :
    t.pdSck = nextPdSck tm t.seq { s with regs := t.regs } ∧
      t.pdHold = if t.seq == .idle && t.pdSck && !s.pdSck then 0 else min (s.pdHold + 1) tm.tPD := by
  obtain ⟨u, _, hh, rfl⟩ := clockCycle_run hr h
  exact clockEdge_line tm p.dout hh

/-- The edge detector in a cycle out of reset (R151, R152), whatever else happens. -/
theorem clockCycle_detector {tm : Timing} {p : Pins} {s t : State} (hr : p.rstN = true)
    (h : clockCycle tm p s = .next t) : t.dsync = shiftIntoSync s.dsync p.dout ∧ t.dprev = s.dataLine := by
  obtain ⟨u, _, hh, rfl⟩ := clockCycle_run hr h
  obtain ⟨_, _, _, _, hp, hd⟩ := clockEdge_rest tm p.dout s u
  rw [hp, hd, State.dataLine, State.dataLine, hh.dsync]
  exact ⟨rfl, rfl⟩

/-- The synchroniser keeps its number of stages. -/
@[simp] theorem shiftIntoSync_length (d : List Bool) (b : Bool) : (shiftIntoSync d b).length = d.length := by
  simp [shiftIntoSync]

/-- An atomic transaction that leaves `PWR` leaves the clock line (log 6). -/
theorem followPower_unchanged (tm : Timing) (s : State) : s.followPower tm s.regs.pwr = s := by
  simp [State.followPower]

/-- Every move answers a next state. -/
theorem runMove_next (tm : Timing) (m : Move) (s : State) : ∃ t, runMove tm m s = .next t := by
  cases m with
  | host t =>
    simp only [runMove]
    split
    · exact clockCycle_next _ _ _
    · unfold hostStep
      obtain ⟨i, u, _, _, hp, _⟩ | ⟨c, _, hp⟩ := perform_cases t s <;> exact ⟨_, by rw [hp]; rfl⟩
  | readyEdge d => exact ⟨_, rfl⟩
  | clock p => exact clockCycle_next _ _ _

/-- Every run of moves answers a next state. -/
theorem runMoves_next (tm : Timing) (ms : List Move) (s : State) : ∃ t, runMoves tm ms s = .next t := by
  induction ms generalizing s with
  | nil => exact ⟨s, rfl⟩
  | cons m ms ih =>
    obtain ⟨t, h⟩ := runMove_next tm m s
    obtain ⟨u, hu⟩ := ih t
    exact ⟨u, by rw [runMoves, h]; exact hu⟩

/-- A move is a reset cycle, or the host's part followed by the block's: the whole of what a step can do to the registers,
the events and the faults. -/
theorem runMove_effect {tm : Timing} {m : Move} {s t : State} (h : runMove tm m s = .next t) :
    (m.IsReset ∧ t = s.resetCycle tm) ∨
      ∃ u, HostEffect m.Carries s u ∧ SampleEffect u t ∧ t.faults = u.faults := by
  have cyc : ∀ (p : Pins) (s' : State), p.rstN = true → clockCycle tm p s' = .next t →
      ∃ u, hostPort p.req s' = .next u ∧ SampleEffect u t ∧ t.faults = u.faults := by
    intro p s' hr h
    obtain ⟨u, hu, _, rfl⟩ := clockCycle_run hr h
    exact ⟨u, hu, clockEdge_effect .., (clockEdge_rest ..).1⟩
  cases m with
  | host tx =>
    simp only [runMove] at h
    split at h
    · next hs =>
      obtain ⟨u, hu, he, hf⟩ := cyc _ _ rfl h
      rw [hostPort_stalled (by exact hs)] at hu
      injection hu with hu
      exact .inr ⟨u, .none ⟨_, _, hu.symm⟩, he, hf⟩
    · unfold hostStep at h
      obtain ⟨i, u, hd, hi, hp, _⟩ | ⟨c, hd, hp⟩ := perform_cases tx s <;> rw [hp] at h <;> injection h with h <;>
        subst h
      · exact .inr ⟨u, .op i ⟨tx, hd, .inl rfl⟩ ⟨_, _, hi⟩, .none (by simp) (by simp), by simp⟩
      · exact .inr ⟨s.raiseFault c (!tx.we), .refused c (!tx.we) (decode_refuse_ne hd) ⟨_, _, rfl⟩,
          .none (by simp) (by simp), by simp⟩
  | readyEdge d =>
    injection h with h
    subst h
    refine .inr ⟨s.withResp .idle, .none ⟨_, _, rfl⟩, ?_⟩
    unfold State.readyEdge
    split
    · refine ⟨?_, by rw [sampleStep_frame]; rfl⟩
      cases sampleStep_effect tm s d with
      | none r e => exact .none r e
      | detached q r e => exact .detached q r e
      | rearmed raw b r e => exact .rearmed raw b r e
      | finalised raw a i o r e => exact .finalised raw a i o r e
    · exact ⟨.none rfl rfl, rfl⟩
  | clock p =>
    simp only [runMove] at h
    cases hr : p.rstN
    · rw [clockCycle, if_neg (by simp [hr])] at h
      injection h with h
      exact .inl ⟨⟨p, rfl, hr⟩, h.symm⟩
    · right
      obtain ⟨u, hu, he, hf⟩ := cyc _ _ hr h
      refine ⟨u, ?_, he, hf⟩
      obtain ⟨r, d, q⟩ := p
      simp only at hr hu
      subst hr
      cases q with
      | none => injection hu with hu; exact .none ⟨_, _, hu.symm⟩
      | some tx =>
        simp only [hostPort] at hu
        split at hu
        · injection hu with hu; exact .none ⟨_, _, hu.symm⟩
        · obtain ⟨i, hd, hi⟩ | ⟨c, hd, hc⟩ := perform_effect hu
          · exact .op i ⟨tx, hd, .inr ⟨d, rfl⟩⟩ ⟨_, _, hi⟩
          · exact .refused c _ (decode_refuse_ne hd) ⟨_, _, hc⟩

/-- A step runs the next move, on the state with that move taken. -/
theorem step_eq (s : State) : step s = runMove Config.timing s.takeMove.1 s.takeMove.2 := rfl

/-- Taking a move changes the schedule and the free index alone. -/
theorem takeMove_frame (s : State) :
    s.takeMove.2 = { s with sched := s.takeMove.2.sched, freeIdx := s.takeMove.2.freeIdx } := by
  unfold State.takeMove
  split <;> rfl

end Sys2Proof.Machine
end

