-- ==== Sys2Proof/Laws/Encoding.lean ====
section
/-! SUPPORT. The fields of the command words the encoder builds, one lemma per field. -/

namespace Sys2Proof

/-- The high part of a concatenation. -/
theorem extract_high {a b : Nat} (x : BitVec a) (y : BitVec b) :
    (x ++ y).extractLsb' b a = x := by
  apply BitVec.eq_of_getLsbD_eq
  intro i hi
  simp [BitVec.getLsbD_append, hi]

/-- The low part of a concatenation. -/
theorem extract_low {a b : Nat} (x : BitVec a) (y : BitVec b) :
    (x ++ y).extractLsb' 0 b = y := by
  apply BitVec.eq_of_getLsbD_eq
  intro i hi
  simp [BitVec.getLsbD_append, hi]

/-- A field above the low part of a concatenation. -/
theorem extract_above {a b n l : Nat} (x : BitVec a) (y : BitVec b) :
    (x ++ y).extractLsb' (b + n) l = x.extractLsb' n l := by
  apply BitVec.eq_of_getLsbD_eq
  intro i hi
  have : ¬ b + n + i < b := by omega
  have e : b + n + i - b = n + i := by omega
  simp [BitVec.getLsbD_append, hi, this, e]

theorem wordG_op (op : BitVec 4) (f : BitVec 16) : (wordG op f).extractLsb' 28 4 = op :=
  (extract_above (b := 16) (n := 12) _ f).trans (extract_high op _)
theorem wordG_reserved (op : BitVec 4) (f : BitVec 16) : (wordG op f).extractLsb' 16 12 = 0 :=
  (extract_above (b := 16) (n := 0) _ f).trans (extract_low op _)
theorem wordG_factor (op : BitVec 4) (f : BitVec 16) : (wordG op f).extractLsb' 0 16 = f := extract_low _ f

theorem wordS_op (op : BitVec 4) (s : Bool) (c : Count) : (wordS op s c).extractLsb' 28 4 = op :=
  (extract_above (b := 8) (n := 20) _ c).trans ((extract_above (b := 1) (n := 19) _ _).trans (extract_high op _))
theorem wordS_reserved (op : BitVec 4) (s : Bool) (c : Count) : (wordS op s c).extractLsb' 9 19 = 0 :=
  (extract_above (b := 8) (n := 1) _ c).trans ((extract_above (b := 1) (n := 0) _ _).trans (extract_low op _))
theorem wordS_sink (op : BitVec 4) (s : Bool) (c : Count) : (wordS op s c).getLsbD 8 = s := by
  rw [wordS, BitVec.getLsbD_append, BitVec.getLsbD_append]
  cases s <;> rfl
theorem wordS_count (op : BitVec 4) (s : Bool) (c : Count) : (wordS op s c).extractLsb' 0 8 = c := extract_low _ c

theorem wordT_op (c : Count) : (wordT c).extractLsb' 28 4 = 6 :=
  (extract_above (b := 8) (n := 20) _ c).trans (extract_high (6 : BitVec 4) _)
theorem wordT_reserved (c : Count) : (wordT c).extractLsb' 8 20 = 0 :=
  (extract_above (b := 8) (n := 0) _ c).trans (extract_low _ _)
theorem wordT_count (c : Count) : (wordT c).extractLsb' 0 8 = c := extract_low _ c

/-- A command write passes the bus check. -/
theorem decode_command (w : Word) : decode (.command w) = decodeCommand w := rfl

end Sys2Proof
end

