-- ==== Sys2Proof/Laws/Float.lean ====
section
/-! SUPPORT. Rounding a quotient, and the fields of a packed pattern. -/

namespace Sys2Proof.Machine

/-- `divNearestEven n d` with its condition as a proposition. -/
theorem divNearestEven_eq (n d : Nat) :
    divNearestEven n d =
      if d < 2 * (n % d) ∨ (2 * (n % d) = d ∧ n / d % 2 = 1) then n / d + 1 else n / d := by
  simp only [divNearestEven, Bool.or_eq_true, decide_eq_true_eq, Bool.and_eq_true, beq_iff_eq]

/-- `divNearestEven n d` is off the exact quotient by at most half a unit. -/
theorem divNearestEven_half {n d : Nat} (hd : 0 < d) :
    2 * (d * divNearestEven n d) ≤ 2 * n + d ∧ 2 * n ≤ 2 * (d * divNearestEven n d) + d := by
  have hm := Nat.div_add_mod n d
  have hl := Nat.mod_lt n hd
  rw [divNearestEven_eq]
  split
  · rw [Nat.mul_add]
    omega
  · omega

/-- A quotient half a unit off was a tie, and went to the even neighbour. -/
theorem divNearestEven_tie {n d : Nat} (hd : 0 < d)
    (h : 2 * (d * divNearestEven n d) = 2 * n + d ∨ 2 * n = 2 * (d * divNearestEven n d) + d) :
    divNearestEven n d % 2 = 0 := by
  have hm := Nat.div_add_mod n d
  have hl := Nat.mod_lt n hd
  rw [divNearestEven_eq] at h ⊢
  split at h
  · next hc =>
    rw [if_pos hc]
    rw [Nat.mul_add] at h
    omega
  · next hc =>
    rw [if_neg hc]
    omega

/-- Nothing is nearer than `divNearestEven n d`. -/
theorem divNearestEven_nearest {n d : Nat} (hd : 0 < d) (m : Nat) :
    ((d * divNearestEven n d : Nat) - (n : Int)).natAbs ≤ ((d * m : Nat) - (n : Int)).natAbs := by
  obtain ⟨h1, h2⟩ := divNearestEven_half (n := n) hd
  generalize divNearestEven n d = q at h1 h2
  rcases Nat.lt_trichotomy m q with h | rfl | h
  · have : d * (m + 1) ≤ d * q := Nat.mul_le_mul (le_refl _) h
    rw [Nat.mul_add] at this
    omega
  · exact le_refl _
  · have : d * (q + 1) ≤ d * m := Nat.mul_le_mul (le_refl _) h
    rw [Nat.mul_add] at this
    omega

/-- The sign of a packed pattern. -/
theorem f32Neg_packFloat (neg : Bool) (m : Nat) : f32Neg (packFloat neg m) = neg := by
  rw [f32Neg, packFloat, BitVec.msb_append]
  cases neg <;> rfl

/-- The exponent field of a packed pattern. -/
theorem f32Exp_packFloat (neg : Bool) {m : Nat} (h : m < 2 ^ 31) : f32Exp (packFloat neg m) = m / 2 ^ 23 := by
  have e : (packFloat neg m).extractLsb' 23 8 = (BitVec.ofNat 31 m).extractLsb' 23 8 := by
    apply BitVec.eq_of_getLsbD_eq
    intro i hi
    have : 23 + i < 31 := by omega
    rw [BitVec.getLsbD_extractLsb', BitVec.getLsbD_extractLsb', packFloat, BitVec.getLsbD_append, if_pos this]
  rw [f32Exp, e, BitVec.extractLsb'_toNat, BitVec.toNat_ofNat, Nat.mod_eq_of_lt h, Nat.shiftRight_eq_div_pow]
  exact Nat.mod_eq_of_lt (by omega)

/-- The fraction field of a packed pattern. -/
theorem f32Frac_packFloat (neg : Bool) {m : Nat} (h : m < 2 ^ 31) : f32Frac (packFloat neg m) = m % 2 ^ 23 := by
  have e : (packFloat neg m).extractLsb' 0 23 = (BitVec.ofNat 31 m).extractLsb' 0 23 := by
    apply BitVec.eq_of_getLsbD_eq
    intro i hi
    have : 0 + i < 31 := by omega
    rw [BitVec.getLsbD_extractLsb', BitVec.getLsbD_extractLsb', packFloat, BitVec.getLsbD_append, if_pos this]
  rw [f32Frac, e, BitVec.extractLsb'_toNat, BitVec.toNat_ofNat, Nat.mod_eq_of_lt h, Nat.shiftRight_zero]

/-- A packed magnitude fits its 31 bits. -/
theorem roundRatio_lt (n d : Nat) : roundRatio n d < 2 ^ 31 := by
  exact Nat.lt_of_le_of_lt (Nat.min_le_right _ _) (by decide)

end Sys2Proof.Machine
end

