-- ==== Sys2Proof/Laws/PerInstr.lean ====
section
/-! SUPPORT. Families of statements for all operations, one lemma per constructor. -/

namespace Sys2Proof.Laws.EncodesLegally

/-- The encoding of an operation is a legal transaction (R99). -/
def Statement (i : Instr) : Prop := (encode i).WellFormed = true

/-- A command word with an assigned opcode and zero reserved bits makes a legal transaction. -/
theorem command_legal {w : Word} (ho : opAssigned w = true) (hr : reservedZero w = true) :
    (Txn.command w).WellFormed = true := by
  simp [Txn.WellFormed, Txn.aligned, Txn.mapped, Txn.directed, Txn.command, ho, hr]

theorem beginSetup (f : BitVec 16) : Statement (.beginSetup f) :=
  command_legal (by simp only [opAssigned, wordG_op]; rfl) (by simp only [reservedZero, wordG_op, wordG_reserved]; rfl)
theorem setGain (f : BitVec 16) : Statement (.setGain f) :=
  command_legal (by simp only [opAssigned, wordG_op]; rfl) (by simp only [reservedZero, wordG_op, wordG_reserved]; rfl)
theorem startAverage (s : Bool) (c : Count) : Statement (.startAverage s c) :=
  command_legal (by simp only [opAssigned, wordS_op]; rfl) (by simp only [reservedZero, wordS_op, wordS_reserved]; rfl)
theorem startValue (s : Bool) (c : Count) : Statement (.startValue s c) :=
  command_legal (by simp only [opAssigned, wordS_op]; rfl) (by simp only [reservedZero, wordS_op, wordS_reserved]; rfl)
theorem startUnits (s : Bool) (c : Count) : Statement (.startUnits s c) :=
  command_legal (by simp only [opAssigned, wordS_op]; rfl) (by simp only [reservedZero, wordS_op, wordS_reserved]; rfl)
theorem tare (c : Count) : Statement (.tare c) :=
  command_legal (by simp only [opAssigned, wordT_op]; rfl) (by simp only [reservedZero, wordT_op, wordT_reserved]; rfl)
theorem irqAck : Statement .irqAck := by unfold Statement; decide
theorem rdStatus : Statement .rdStatus := by unfold Statement; decide
theorem rdResult : Statement .rdResult := by unfold Statement; decide
theorem rdOffset : Statement .rdOffset := by unfold Statement; decide
theorem wrOffset (v : Word) : Statement (.wrOffset v) := by
  simp [Statement, encode, Txn.ofTd, Txn.WellFormed, Txn.aligned, Txn.mapped, Txn.directed, Txn.isCommand]
theorem rdScale : Statement .rdScale := by unfold Statement; decide
theorem wrScale (v : Word) : Statement (.wrScale v) := by
  simp [Statement, encode, Txn.ofTd, Txn.WellFormed, Txn.aligned, Txn.mapped, Txn.directed, Txn.isCommand]
theorem rdAcc : Statement .rdAcc := by unfold Statement; decide
theorem rdCounts : Statement .rdCounts := by unfold Statement; decide

end Sys2Proof.Laws.EncodesLegally
end

