-- ==== Sys2Proof/Laws/Sequencer.lean ====
section
/-! SUPPORT. The course of a sample step, cycle by cycle: the sequencer's position after `k` cycles (R289), and the states
a run of cycles passes while STALL holds the host off. -/

namespace Sys2Proof.Machine

/-- Within the setup phase. -/
theorem course_setup (tm : Timing) (g : GainCode) (n c : Nat) (h : c + n ≤ tm.tSU) :
      (Seq.advance tm g.pulses)^[n] (.setup c) = .setup (c + n) := by
  induction n generalizing c with
  | zero => rfl
  | succ n ih => rw [Function.iterate_succ_apply, Seq.advance, if_pos (by omega), ih (c+1) (by omega)]; congr 1; omega
/-- Within a data bit. -/
theorem course_data (tm : Timing) (g : GainCode) (i n c : Nat) (h : c + n < tm.pulse) :
      (Seq.advance tm g.pulses)^[n] (.data i c) = .data i (c + n) := by
  induction n generalizing c with
  | zero => rfl
  | succ n ih => rw [Function.iterate_succ_apply, Seq.advance, if_pos (by omega), ih (c+1) (by omega)]; congr 1; omega
/-- Within a gain pulse. -/
theorem course_gainp (tm : Timing) (g : GainCode) (i n c : Nat) (h : c + n < tm.pulse) :
      (Seq.advance tm g.pulses)^[n] (.gainp i c) = .gainp i (c + n) := by
  induction n generalizing c with
  | zero => rfl
  | succ n ih => rw [Function.iterate_succ_apply, Seq.advance, if_pos (by omega), ih (c+1) (by omega)]; congr 1; omega
/-- Within the finish. -/
theorem course_fin (tm : Timing) (g : GainCode) (n c : Nat) (h : c + n < tm.tFIN) :
      (Seq.advance tm g.pulses)^[n] (.fin c) = .fin (c + n) := by
  induction n generalizing c with
  | zero => rfl
  | succ n ih => rw [Function.iterate_succ_apply, Seq.advance, if_pos (by omega), ih (c+1) (by omega)]; congr 1; omega

/-- A pulse takes time. -/
theorem pulse_pos (tm : Timing) : 0 < tm.pulse := by simp [Timing.pulse, Timing.tH]
/-- So does the finish. -/
theorem tFIN_pos (tm : Timing) : 0 < tm.tFIN := by simp [Timing.tFIN]

/-- Data bit `i` begins after the setup and `i` pulses. -/
theorem course_reaches_data (tm : Timing) (g : GainCode) (i : Nat) (hi : i < 24) :
      (Seq.advance tm g.pulses)^[1 + tm.tSU + i * tm.pulse] (.setup 0) = .data i 0 := by
  induction i with
  | zero =>
    rw [Nat.zero_mul, Nat.add_zero, Function.iterate_add_apply, course_setup tm g tm.tSU 0 (by omega)]
    simp [Seq.advance]
  | succ i ih =>
    have h1 := course_data tm g i (tm.pulse - 1) 0 (by have := pulse_pos tm; omega)
    have : 1 + tm.tSU + (i+1) * tm.pulse = 1 + (tm.pulse - 1) + (1 + tm.tSU + i * tm.pulse) := by
      have := pulse_pos tm
      rw [Nat.add_mul]; omega
    rw [this, Function.iterate_add_apply, ih (by omega), Function.iterate_add_apply, h1]
    have := pulse_pos tm
    simp [Seq.advance, if_neg (show ¬ (tm.pulse - 1 + 1 < tm.pulse) by omega), hi]

/-- Gain pulse `k` begins after the 24 data pulses and `k` more. -/
theorem course_reaches_gainp (tm : Timing) (g : GainCode) (k : Nat) (hk : k < g.pulses) :
      (Seq.advance tm g.pulses)^[1 + tm.tSU + (24 + k) * tm.pulse] (.setup 0) = .gainp k 0 := by
  induction k with
  | zero =>
    have h1 := course_data tm g 23 (tm.pulse - 1) 0 (by have := pulse_pos tm; omega)
    have : 1 + tm.tSU + (24+0) * tm.pulse = 1 + (tm.pulse - 1) + (1 + tm.tSU + 23 * tm.pulse) := by
      have := pulse_pos tm
      omega
    rw [this, Function.iterate_add_apply, course_reaches_data tm g 23 (by omega), Function.iterate_add_apply, h1]
    have := pulse_pos tm
    simp [Seq.advance, if_neg (show ¬ (tm.pulse - 1 + 1 < tm.pulse) by omega)]
  | succ i ih =>
    have h1 := course_gainp tm g i (tm.pulse - 1) 0 (by have := pulse_pos tm; omega)
    have : 1 + tm.tSU + (24 + (i+1)) * tm.pulse = 1 + (tm.pulse - 1) + (1 + tm.tSU + (24 + i) * tm.pulse) := by
      have := pulse_pos tm
      rw [← Nat.add_assoc 24, Nat.add_mul (24+i)]; omega
    rw [this, Function.iterate_add_apply, ih (by omega), Function.iterate_add_apply, h1]
    have := pulse_pos tm
    simp [Seq.advance, if_neg (show ¬ (tm.pulse - 1 + 1 < tm.pulse) by omega), hk]

/-- The finish begins after the last gain pulse. -/
theorem course_reaches_fin (tm : Timing) (g : GainCode) :
    (Seq.advance tm g.pulses)^[1 + tm.tSU + (24 + g.pulses) * tm.pulse] (.setup 0) = .fin 0 := by
  obtain ⟨k, hk⟩ : ∃ k, g.pulses = k + 1 := by cases g <;> exact ⟨_, rfl⟩
  have h1 := course_gainp tm g k (tm.pulse - 1) 0 (by have := pulse_pos tm; omega)
  have : 1 + tm.tSU + (24 + g.pulses) * tm.pulse = 1 + (tm.pulse - 1) + (1 + tm.tSU + (24 + k) * tm.pulse) := by
    have := pulse_pos tm
    rw [hk, ← Nat.add_assoc 24, Nat.add_mul (24+k)]; omega
  rw [this, Function.iterate_add_apply, course_reaches_gainp tm g k (by omega), Function.iterate_add_apply, h1]
  have := pulse_pos tm
  simp [Seq.advance, if_neg (show ¬ (tm.pulse - 1 + 1 < tm.pulse) by omega), hk]

/-- `S` of R289, in pulses. -/
theorem sampleCycles_eq (tm : Timing) (g : GainCode) :
      tm.sampleCycles g = 1 + tm.tSU + (24 + g.pulses) * tm.pulse + tm.tFIN := rfl

/-- The position after `k < S` cycles. -/
theorem course_cases (tm : Timing) (g : GainCode) (k : Nat) (hk : k < tm.sampleCycles g) :
    (∃ c, c ≤ tm.tSU ∧ k = c ∧ (Seq.advance tm g.pulses)^[k] (.setup 0) = .setup c) ∨
    (∃ i c, i < 24 ∧ c < tm.pulse ∧ k = 1 + tm.tSU + i * tm.pulse + c ∧
      (Seq.advance tm g.pulses)^[k] (.setup 0) = .data i c) ∨
    (∃ i c, i < g.pulses ∧ c < tm.pulse ∧ k = 1 + tm.tSU + (24 + i) * tm.pulse + c ∧
      (Seq.advance tm g.pulses)^[k] (.setup 0) = .gainp i c) ∨
    (∃ c, c < tm.tFIN ∧ k = 1 + tm.tSU + (24 + g.pulses) * tm.pulse + c ∧
      (Seq.advance tm g.pulses)^[k] (.setup 0) = .fin c) := by
  rw [sampleCycles_eq] at hk
  have hp := pulse_pos tm
  by_cases h1 : k ≤ tm.tSU
  · left; exact ⟨k, h1, rfl, by rw [course_setup tm g k 0 (by omega)]; simp⟩
  by_cases h2 : k < 1 + tm.tSU + (24 + g.pulses) * tm.pulse
  · obtain ⟨j, hj⟩ : ∃ j, k = 1 + tm.tSU + j := ⟨k - (1 + tm.tSU), by omega⟩
    have hdm := Nat.div_add_mod j tm.pulse
    have hm := Nat.mod_lt j hp
    have hlt : j / tm.pulse < 24 + g.pulses := by
      rw [Nat.div_lt_iff_lt_mul hp]; omega
    by_cases h3 : j / tm.pulse < 24
    · right; left
      refine ⟨j / tm.pulse, j % tm.pulse, h3, hm, by rw [Nat.mul_comm]; omega, ?_⟩
      have : k = j % tm.pulse + (1 + tm.tSU + (j / tm.pulse) * tm.pulse) := by rw [Nat.mul_comm]; omega
      rw [this, Function.iterate_add_apply, course_reaches_data tm g _ h3, course_data tm g _ _ _ (by omega)]; simp
    · right; right; left
      obtain ⟨i, hi⟩ : ∃ i, j / tm.pulse = 24 + i := ⟨j / tm.pulse - 24, by omega⟩
      rw [hi] at hdm hlt
      rw [Nat.mul_comm] at hdm
      refine ⟨i, j % tm.pulse, by omega, hm, by omega, ?_⟩
      have : k = j % tm.pulse + (1 + tm.tSU + (24 + i) * tm.pulse) := by omega
      rw [this, Function.iterate_add_apply, course_reaches_gainp tm g _ (by omega),
        course_gainp tm g _ _ _ (by omega)]
      simp
  · right; right; right
    obtain ⟨c, hc⟩ : ∃ c, k = c + (1 + tm.tSU + (24 + g.pulses) * tm.pulse) :=
      ⟨k - (1 + tm.tSU + (24 + g.pulses) * tm.pulse), by omega⟩
    refine ⟨c, by omega, by omega, ?_⟩
    rw [hc, Function.iterate_add_apply, course_reaches_fin, course_fin tm g _ _ (by omega)]; simp

/-- After `S` cycles the sequencer is idle again. -/
theorem course_ends (tm : Timing) (g : GainCode) : (Seq.advance tm g.pulses)^[tm.sampleCycles g] (.setup 0) = .idle := by
  have h1 := course_fin tm g (tm.tFIN - 1) 0 (by have := tFIN_pos tm; omega)
  have : tm.sampleCycles g = 1 + (tm.tFIN - 1) + (1 + tm.tSU + (24 + g.pulses) * tm.pulse) := by
    have := tFIN_pos tm
    rw [sampleCycles_eq]; omega
  rw [this, Function.iterate_add_apply, course_reaches_fin, Function.iterate_add_apply, h1]
  have := tFIN_pos tm
  simp [Seq.advance, if_neg (show ¬ (tm.tFIN - 1 + 1 < tm.tFIN) by omega)]

/-- Before that it is not. -/
theorem course_not_idle (tm : Timing) (g : GainCode) (k) (hk : k < tm.sampleCycles g) :
    (Seq.advance tm g.pulses)^[k] (.setup 0) ≠ .idle := by
  obtain ⟨_, _, _, h⟩ | ⟨_, _, _, _, _, h⟩ | ⟨_, _, _, _, _, h⟩ | ⟨_, _, _, h⟩ := course_cases tm g k hk <;>
    rw [h] <;> simp

/-- One cycle inside a sample step: the host is held off. -/
def State.stalledCycle (tm : Timing) (p : Pins) (s : State) : State := clockEdge tm p.dout s (s.withResp .idle)

/-- A sample step that is in its setup does not wait for a power-down hold: PD_SCK is low. -/
def State.SetupLow (s : State) : Prop := ∀ c, s.seq = .setup c → s.pdSck = false

/-- The position after a cycle inside a sample step, as `nextSeq` gives it. -/
theorem stalledCycle_nextSeq {tm : Timing} {p : Pins} {s : State} (h : s.seq ≠ .idle) :
    (State.stalledCycle tm p s).seq = s.nextSeq tm := by
  have : startsSample s (s.withResp .idle) = false := by simp [startsSample, State.sampleEnabled, h]
  rw [State.stalledCycle, clockEdge_seq, this]; rfl

/-- The position after a cycle inside a sample step that waits for nothing. -/
theorem stalledCycle_seq {tm : Timing} {p : Pins} {s : State} (h : s.seq ≠ .idle) (hl : s.SetupLow) :
    (State.stalledCycle tm p s).seq = Seq.advance tm s.regs.gainCode.pulses s.seq := by
  rw [stalledCycle_nextSeq h, nextSeq_advances hl]

/-- The clock line after a cycle inside a sample step. -/
theorem stalledCycle_line (tm : Timing) (p : Pins) (s : State) :
    let t := State.stalledCycle tm p s
    t.pdSck = nextPdSck tm t.seq { s with regs := t.regs } ∧
      t.pdHold = if t.seq == .idle && t.pdSck && !s.pdSck then 0 else min (s.pdHold + 1) tm.tPD :=
  clockEdge_line tm p.dout (by constructor <;> rfl)

/-- Once PD_SCK is low, or past the setup, a sample step waits no more. -/
theorem stalledCycle_setupLow {tm : Timing} {p : Pins} {s : State} (h : s.seq ≠ .idle) (hl : s.SetupLow) :
    (State.stalledCycle tm p s).SetupLow := by
  intro c hc
  obtain ⟨k, hk⟩ : ∃ k, s.seq = .setup k := by
    rw [stalledCycle_seq h hl] at hc
    cases hq : s.seq with
    | idle => exact absurd hq h
    | setup k => exact ⟨k, rfl⟩
    | data i k => rw [hq, Seq.advance] at hc; split_ifs at hc
    | gainp i k => rw [hq, Seq.advance] at hc; split_ifs at hc
    | fin k => rw [hq, Seq.advance] at hc; split_ifs at hc
  rw [(stalledCycle_line tm p s).1, hc]
  simp [nextPdSck, State.lineHeld, hl k hk]

/-- A run of such cycles. -/
def State.stalledRun (tm : Timing) : List Pins → State → State
  | [], s => s
  | p :: ps, s => State.stalledRun tm ps (State.stalledCycle tm p s)

/-- A cycle leaves GAIN_CODE. -/
theorem stalledCycle_gainCode (tm : Timing) (p : Pins) (s : State) :
    (State.stalledCycle tm p s).regs.gainCode = s.regs.gainCode := by
  rw [State.stalledCycle, clockEdge_regs]
  cases sequencerWork_effect tm (s.withResp .idle) <;> simp_all [Regs.accumulate, Regs.finalized]

/-- A run of cycles inside a sample step: the position advances cycle by cycle, GAIN_CODE stays, and the run is that of
`runCycles`, whatever the host requests. -/
theorem stalledRun_seq (tm : Timing) (g : GainCode) (ps : List Pins) (s : State) (hg : s.regs.gainCode = g)
      (hlow : s.SetupLow) (hne : ∀ k < ps.length, (Seq.advance tm g.pulses)^[k] s.seq ≠ .idle) :
    (State.stalledRun tm ps s).seq = (Seq.advance tm g.pulses)^[ps.length] s.seq ∧
      (State.stalledRun tm ps s).regs.gainCode = g ∧
      (s.stall = true → (∀ p ∈ ps, p.rstN = true) → runCycles tm ps s = .next (State.stalledRun tm ps s)) := by
  induction ps generalizing s with
  | nil => exact ⟨rfl, hg, fun _ _ => rfl⟩
  | cons p ps ih =>
    have h0 : s.seq ≠ .idle := hne 0 (by simp)
    have hs := stalledCycle_seq (tm := tm) (p := p) h0 hlow
    rw [hg] at hs
    have := ih (State.stalledCycle tm p s) (by rw [stalledCycle_gainCode, hg]) (stalledCycle_setupLow h0 hlow)
      (fun k hk => by rw [hs, ← Function.iterate_succ_apply]; exact hne (k+1) (by simp; omega))
    rw [hs, ← Function.iterate_succ_apply] at this
    refine ⟨this.1, this.2.1, fun hst hp => ?_⟩
    show runMoves tm (Move.clock p :: ps.map Move.clock) s = _
    simp only [runMoves, runMove]
    rw [clockCycle_stalled (hp p (by simp)) hst]
    by_cases hps : ps = []
    · subst hps; rfl
    · apply this.2.2
      · show (clockEdge tm p.dout s (s.withResp .idle)).stall = true
        rw [clockEdge_stall]
        have h1 := hne 1 (by simp; exact List.length_pos_iff.2 hps)
        have hs' : (clockEdge tm p.dout s (s.withResp .idle)).seq = _ := hs
        rw [hs']; simpa using h1
      · exact fun q hq => hp q (by simp [hq])

/-- Runs of cycles compose. -/
theorem runCycles_append (tm : Timing) (ps qs : List Pins) (s t : State) (h : runCycles tm ps s = .next t) :
    runCycles tm (ps ++ qs) s = runCycles tm qs t := by
  induction ps generalizing s with
  | nil => injection h with h; subst h; rfl
  | cons p ps ih =>
    obtain ⟨u, hu⟩ := clockCycle_next tm p s
    simp only [runCycles, List.map_cons, List.cons_append, runMoves, runMove, hu] at h ⊢
    exact ih u h

/-- Runs compose. -/
theorem stalledRun_append (tm : Timing) (ps qs : List Pins) (s) :
      State.stalledRun tm (ps ++ qs) s = State.stalledRun tm qs (State.stalledRun tm ps s) := by
  induction ps generalizing s with
  | nil => rfl
  | cons p ps ih => exact ih _

/-- A cycle inside a sample step but its last: the first detaches (R157), no other touches the registers. -/
theorem stalledCycle_regs (tm : Timing) (p : Pins) (s : State) (h : ∀ c, s.seq = .fin c → c + 1 < tm.tFIN) :
    (State.stalledCycle tm p s).regs = (if s.seq = .setup 0 then s.detach.regs else s.regs) ∧
      (State.stalledCycle tm p s).events = s.events ∧ (State.stalledCycle tm p s).faults = s.faults := by
  refine ⟨?_, ?_, (clockEdge_rest ..).1⟩
  · rw [State.stalledCycle, clockEdge_regs,
      (sequencerWork_congr tm (s := s) (u := s.withResp .idle) rfl rfl rfl rfl rfl).1]
    obtain ⟨q, hq⟩ : ∃ q, s.seq = q := ⟨_, rfl⟩
    cases q with
    | idle => rw [sequencerWork_idle hq, hq]; rfl
    | setup c => rw [sequencerWork_setup hq, hq]; by_cases hc : c = 0 <;> simp [hc]
    | data i c => rw [sequencerWork_data hq, hq]; split <;> rfl
    | gainp i c => rw [sequencerWork_gainp hq, hq]; rfl
    | fin c => rw [sequencerWork_fin hq, if_pos (h c hq), hq]; rfl
  · rw [State.stalledCycle, clockEdge_events,
      (sequencerWork_congr tm (s := s) (u := s.withResp .idle) rfl rfl rfl rfl rfl).2.2]
    obtain ⟨q, hq⟩ : ∃ q, s.seq = q := ⟨_, rfl⟩
    cases q with
    | idle => rw [sequencerWork_idle hq]
    | setup c => rw [sequencerWork_setup hq]; split <;> rfl
    | data i c => rw [sequencerWork_data hq]; split <;> rfl
    | gainp i c => rw [sequencerWork_gainp hq]
    | fin c => rw [sequencerWork_fin hq, if_pos (h c hq)]

/-- After the first cycle and up to the last, the block is detached and nothing else has happened to the registers, the
events and the faults. -/
theorem stalledRun_regs (tm : Timing) (g : GainCode) (ps : List Pins) (s : State) (hg : s.regs.gainCode = g)
    (hq : s.seq = .setup 0) (hlow : s.SetupLow)
      (hl : ps.length < tm.sampleCycles g) (h0 : 0 < ps.length) :
    (State.stalledRun tm ps s).regs = s.detach.regs ∧ (State.stalledRun tm ps s).events = s.events ∧
      (State.stalledRun tm ps s).faults = s.faults := by
  induction ps using List.reverseRecOn with
  | nil => simp at h0
  | append_singleton ps p ih =>
    rw [stalledRun_append]
    simp only [List.length_append, List.length_singleton] at hl
    obtain ⟨h1, h2, _⟩ := stalledRun_seq tm g ps s hg hlow
      (fun k hk => by rw [hq]; exact course_not_idle tm g k (by omega))
    rw [hq] at h1
    have hfin : ∀ c, (State.stalledRun tm ps s).seq = .fin c → c + 1 < tm.tFIN := by
      intro c hc
      rw [h1] at hc
      rw [sampleCycles_eq] at hl
      obtain ⟨_, _, _, h⟩ | ⟨_, _, _, _, _, h⟩ | ⟨_, _, _, _, _, h⟩ | ⟨c', h3, h4, h⟩ :=
        course_cases tm g ps.length (by rw [sampleCycles_eq]; omega) <;> rw [h] at hc <;> simp at hc
      subst hc; omega
    have := stalledCycle_regs tm p (State.stalledRun tm ps s) hfin
    show (State.stalledCycle tm p (State.stalledRun tm ps s)).regs = _ ∧ _
    by_cases hps : ps = []
    · subst hps; rw [if_pos (show (State.stalledRun tm [] s).seq = .setup 0 from hq)] at this; exact this
    · have hlen : 0 < ps.length := List.length_pos_iff.2 hps
      obtain ⟨a, b, c⟩ := ih (by omega) hlen
      have hne : (State.stalledRun tm ps s).seq ≠ .setup 0 := by
        rw [h1]
        obtain ⟨_, _, h5, h⟩ | ⟨_, _, _, _, _, h⟩ | ⟨_, _, _, _, _, h⟩ | ⟨c', h3, h4, h⟩ :=
          course_cases tm g ps.length (by omega) <;> rw [h] <;> simp
        omega
      rw [if_neg hne] at this
      exact ⟨this.1.trans a, this.2.1.trans b, this.2.2.trans c⟩

/-- A cycle in which a sample step waits for a power-down hold, in its first position: it stays there, detached, and
nothing but the clock line and its hold moves. -/
theorem stalledCycle_waits (tm : Timing) (p : Pins) {s : State} (hq : s.seq = .setup 0) (hp : s.pdSck = true) :
    let t := State.stalledCycle tm p s
    t.seq = .setup 0 ∧ t.stall = true ∧ t.regs = s.detach.regs ∧ t.sr = s.sr ∧ t.events = s.events ∧
      t.faults = s.faults ∧ t.pdSck = decide (s.pdHold < tm.tPD) ∧ t.pdHold = min (s.pdHold + 1) tm.tPD := by
  have hseq : (State.stalledCycle tm p s).seq = .setup 0 := by
    rw [stalledCycle_nextSeq (by rw [hq]; simp), nextSeq_waits hq hp]
  obtain ⟨hr, he, hf⟩ := stalledCycle_regs tm p s (by rw [hq]; simp)
  obtain ⟨hl, hh⟩ := stalledCycle_line tm p s
  rw [if_pos hq] at hr
  refine ⟨hseq, ?_, hr, ?_, he, hf, ?_, ?_⟩
  · show (clockEdge tm p.dout s (s.withResp .idle)).stall = true
    rw [clockEdge_stall]
    show ((State.stalledCycle tm p s).seq != .idle) = true
    rw [hseq]; rfl
  · rw [State.stalledCycle, clockEdge_sr, sequencerWork_setup (by exact hq)]; rfl
  · rw [hl, hseq]; simp [nextPdSck, State.lineHeld, hp]
  · rw [hh, hseq]; rfl

/-- While the hold lasts PD_SCK stays high and the sample step in its first position. -/
theorem stalledRun_waits (tm : Timing) (ps : List Pins) (s : State) (hq : s.seq = .setup 0) (hp : s.pdSck = true)
    (hl : ps.length + s.pdHold ≤ tm.tPD ∨ ps = []) :
    let t := State.stalledRun tm ps s
    t.seq = .setup 0 ∧ t.pdSck = true ∧ t.pdHold = s.pdHold + ps.length ∧ t.detach.regs = s.detach.regs ∧ t.sr = s.sr ∧
      t.events = s.events ∧ t.faults = s.faults ∧ (s.stall = true → t.stall = true) ∧
      (s.stall = true → (∀ p ∈ ps, p.rstN = true) → runCycles tm ps s = .next t) := by
  induction ps generalizing s with
  | nil => exact ⟨hq, hp, rfl, rfl, rfl, rfl, rfl, id, fun _ _ => rfl⟩
  | cons p ps ih =>
    simp only [List.length_cons, reduceCtorEq, or_false] at hl
    obtain ⟨cq, cs, cr, csr, ce, cf, cp, ch⟩ := stalledCycle_waits tm p hq hp
    have hh : (State.stalledCycle tm p s).pdHold = s.pdHold + 1 := by rw [ch]; omega
    obtain ⟨iq, ip, ih', ir, isr, ie, if', ist, irun⟩ := ih (State.stalledCycle tm p s) cq
      (by rw [cp]; simp; omega) (.inl (by rw [hh]; omega))
    refine ⟨iq, ip, ?_, ir.trans (by rw [State.detach_regs, cr]; rfl), isr.trans csr, ie.trans ce, if'.trans cf,
      fun _ => ist cs, fun hst hr => ?_⟩
    · show (State.stalledRun tm ps (State.stalledCycle tm p s)).pdHold = _
      rw [ih', hh, List.length_cons]; omega
    · show runMoves tm (Move.clock p :: ps.map Move.clock) s = _
      simp only [runMoves, runMove]
      rw [clockCycle_stalled (hr p (by simp)) hst]
      exact irun cs (fun q hq => hr q (by simp [hq]))

/-- After the cycles of `holdWait` a sample step stands in its first position with PD_SCK low: nothing but the clock line
and the detachment has happened. -/
theorem stalledRun_holdWait (tm : Timing) (ps : List Pins) (s : State) (hq : s.seq = .setup 0)
    (hl : ps.length = s.holdWait tm) :
    let t := State.stalledRun tm ps s
    t.seq = .setup 0 ∧ t.pdSck = false ∧ t.detach.regs = s.detach.regs ∧ t.sr = s.sr ∧ t.events = s.events ∧
      t.faults = s.faults ∧ (s.stall = true → t.stall = true) ∧ (s.pdSck = true → t.pdHold = tm.tPD) ∧
      (s.stall = true → (∀ p ∈ ps, p.rstN = true) → runCycles tm ps s = .next t) := by
  cases hp : s.pdSck
  · rw [State.holdWait, hp] at hl
    have : ps = [] := List.length_eq_zero_iff.1 (by simpa using hl)
    subst this
    exact ⟨hq, hp, rfl, rfl, rfl, rfl, id, fun h => (by cases h), fun _ _ => rfl⟩
  · rw [State.holdWait, hp, if_pos rfl] at hl
    rcases List.eq_nil_or_concat ps with h | ⟨qs, p, h⟩
    · subst h; simp at hl
    rw [List.concat_eq_append] at h
    subst h
    simp only [List.length_append, List.length_singleton] at hl
    obtain ⟨wq, wp, wh, wr, wsr, we, wf, wst, wrun⟩ := stalledRun_waits tm qs s hq hp
      (by by_cases h0 : qs = []
          · exact .inr h0
          · have := List.length_pos_iff.2 h0; left; omega)
    obtain ⟨cq, cs, cr, csr, ce, cf, cp, ch⟩ := stalledCycle_waits tm p wq wp
    rw [stalledRun_append]
    have hge : tm.tPD ≤ (State.stalledRun tm qs s).pdHold := by rw [wh]; omega
    refine ⟨cq, ?_, ?_, csr.trans wsr, ce.trans we, cf.trans wf, fun _ => cs, fun _ => ?_, fun hst hr => ?_⟩
    · show (State.stalledCycle tm p (State.stalledRun tm qs s)).pdSck = false
      rw [cp]; simpa using hge
    · show (State.stalledCycle tm p (State.stalledRun tm qs s)).detach.regs = _
      rw [State.detach_regs, cr, ← wr]; rfl
    · show (State.stalledCycle tm p (State.stalledRun tm qs s)).pdHold = _
      rw [ch]; omega
    · have h1 := wrun hst (fun q hq => hr q (by simp [hq]))
      have h2 := runCycles_append tm qs [p] s _ h1
      rw [h2]
      show runMoves tm [Move.clock p] _ = _
      simp only [runMoves, runMove]
      rw [clockCycle_stalled (hr p (by simp)) (wst hst)]
      rfl

end Sys2Proof.Machine
end

