-- ==== Sys2Proof/Tests/Slice0.lean ====
section
/-! SUPPORT. Tests on fixed values, their expected results from 95_test_vectors.md and from the rules, and one witness
for the hypotheses of every obligation that has some. -/

namespace Sys2Proof.Tests

open Sys2Proof.Machine

/-- What a property of the next state is; none if there is no next state. -/
def after {α : Type} (o : Host.Outcome State Fault Refusal) (f : State → α) : Option α :=
  match o with
  | .next s => some (f s)
  | _ => none

/-- A small timing: `SYNC` 2, `T_SU` 0, `T_H` 3, `T_L` 1, `T_FIN` 1, `T_PD` 0. -/
def small : Timing := ⟨0, 0, 0, 0, 0, 0, 0⟩

/-- The same with `T_PD` 5. -/
def holding : Timing := { small with powerDown := 5 }

/-- A block after `begin 128`, with these changes to its registers. -/
def begun (f : Regs → Regs) : State :=
  { State.atReset small with regs := f { Regs.reset with begun := true, armed := true } }

/-- A block in an acquisition with `rem` of `req` samples still to take. -/
def acquiring (mode : Mode) (sink : Bool) (req rem : Count) (acc : Word) : State :=
  { begun (fun r => { r with mode := mode, sinkEn := sink, requested := req, remaining := rem, acc := acc, pwr := true })
    with pdSck := false }

/-- The response and the STATUS, COUNTS and FAULTS after an operation. -/
def brief (s : State) : BusResp × Word × Word × List FaultCode :=
  (s.resp, s.regs.statusWord, s.regs.countsWord, s.faults)

/-- A block in the first cycle of a sample step. -/
def sampling : State := { acquiring .rawAverage false 2 2 0 with seq := .setup 0, stall := true }

/-! ## Legal and illegal transactions (20_memory.md R64, 30_encoding.md R99, 95_test_vectors.md 2.6) -/

theorem test_wf_misaligned : (⟨true, 0x0D, 5⟩ : Txn).WellFormed = false ∧ (⟨true, 0x0D, 5⟩ : Txn).aligned = false := by
  decide
theorem test_wf_unmapped : (⟨false, 0x1C, 0⟩ : Txn).WellFormed = false ∧ (⟨false, 0x1C, 0⟩ : Txn).mapped = false := by
  decide
theorem test_wf_read_of_cmd : (⟨false, 0x00, 0⟩ : Txn).WellFormed = false ∧ (⟨false, 0x00, 0⟩ : Txn).directed = false := by
  decide
theorem test_wf_write_of_read_only : ∀ a ∈ [0x04, 0x08, 0x14, 0x18], (⟨true, a, 1⟩ : Txn).WellFormed = false := by decide
theorem test_wf_unassigned : opAssigned 0x00000000 = false ∧ opAssigned 0x80000000 = false ∧ opAssigned 0xF0000000 = false ∧
    (Txn.command 0x80000000).WellFormed = false := by decide
theorem test_wf_reserved_G : reservedZero 0x20010080 = false ∧ (Txn.command 0x20010080).WellFormed = false := by decide
theorem test_wf_reserved_S : reservedZero 0x30000200 = false ∧ (Txn.command 0x30000200).WellFormed = false := by decide
theorem test_wf_reserved_T : reservedZero 0x60000100 = false ∧ (Txn.command 0x60000100).WellFormed = false := by decide
theorem test_wf_reserved_N : reservedZero 0x70000001 = false ∧ (Txn.command 0x70000001).WellFormed = false := by decide

/-- The faults of those transactions, the first of two that apply (R245). -/
theorem test_decode_refusals :
    decode ⟨false, 0x02, 0⟩ = .refuse .busMisaligned ∧ decode ⟨false, 0x1E, 0⟩ = .refuse .busMisaligned ∧
    decode ⟨true, 0x1C, 0⟩ = .refuse .busUnmapped ∧ decode ⟨false, 0x00, 0⟩ = .refuse .busDirection ∧
    decode ⟨true, 0x18, 7⟩ = .refuse .busDirection ∧ decode (.command 0) = .refuse .illegalCommand ∧
    decode (.command 0x10010080) = .refuse .illegalCommand ∧ decode (.command 0x70000001) = .refuse .illegalCommand := by
  decide

/-! ## Every operation's word, written out from R94-R98 -/

theorem test_decode_begin : decode ⟨true, 0b00000, 0b0001_0000_0000_0000_0000_0000_1000_0000⟩ = .op (.beginSetup 128) := by
  decide
theorem test_decode_setGain : decode ⟨true, 0b00000, 0b0010_0000_0000_0000_1000_0000_0010_0001⟩ = .op (.setGain 0x8021) := by
  decide
theorem test_decode_startAverage :
    decode ⟨true, 0b00000, 0b0011_0000_0000_0000_0000_0001_0000_0010⟩ = .op (.startAverage true 2) := by decide
theorem test_decode_startValue :
    decode ⟨true, 0b00000, 0b0100_0000_0000_0000_0000_0000_1000_0001⟩ = .op (.startValue false 129) := by decide
theorem test_decode_startUnits :
    decode ⟨true, 0b00000, 0b0101_0000_0000_0000_0000_0001_1111_1111⟩ = .op (.startUnits true 255) := by decide
theorem test_decode_tare : decode ⟨true, 0b00000, 0b0110_0000_0000_0000_0000_0000_1000_0011⟩ = .op (.tare 131) := by decide
theorem test_decode_irqAck : decode ⟨true, 0b00000, 0b0111_0000_0000_0000_0000_0000_0000_0000⟩ = .op .irqAck := by decide
theorem test_decode_rdStatus : decode ⟨false, 0b00100, 0⟩ = .op .rdStatus := by decide
theorem test_decode_rdResult : decode ⟨false, 0b01000, 0⟩ = .op .rdResult := by decide
theorem test_decode_rdOffset : decode ⟨false, 0b01100, 0⟩ = .op .rdOffset := by decide
theorem test_decode_wrOffset : decode ⟨true, 0b01100, 0x80000001⟩ = .op (.wrOffset 0x80000001) := by decide
theorem test_decode_rdScale : decode ⟨false, 0b10000, 0⟩ = .op .rdScale := by decide
theorem test_decode_wrScale : decode ⟨true, 0b10000, 0x7FC00001⟩ = .op (.wrScale 0x7FC00001) := by decide
theorem test_decode_rdAcc : decode ⟨false, 0b10100, 0⟩ = .op .rdAcc := by decide
theorem test_decode_rdCounts : decode ⟨false, 0b11000, 0⟩ = .op .rdCounts := by decide

/-- The host's words: six bits of `TD` in whole bytes, or a command word. -/
theorem test_table_words :
    decodeTableWord 8 0x2C = some (.wrOffset 0) ∧ decodeTableWord 8 0x18 = some .rdCounts ∧
    decodeTableWord 32 0x600000FF = some (.tare 255) ∧ decodeTableWord 8 0x44 = none ∧
    decodeTableWord 32 0x30000200 = none := by decide

/-- No two rows of the opcode table match the same transaction, by the first bits they differ in. -/
theorem test_rows_disjoint :
    opcodeTable.Pairwise (fun a b =>
      a.command ≠ b.command ∨ a.pattern &&& (a.mask &&& b.mask) ≠ b.pattern &&& (a.mask &&& b.mask)) := by decide +kernel

/-- The word placed by `withFetchWord` runs as the first step. -/
theorem test_fetch_runs :
    after (step (State.reset.withFetchWord 32 0x10000040)) (·.regs.statusWord) = some 0x00000614 ∧
    after (step (State.reset.withFetchWord 8 0x04)) (·.resp) = some ⟨true, false, some 0x200⟩ := by decide

/-! ## Host operations (95_test_vectors.md 2.5) -/

theorem test_begin_gains :
    after (exec (.beginSetup 32) .reset) (·.regs.statusWord) = some 0x414 ∧
    after (exec (.beginSetup 7) .reset) (·.regs.statusWord) = some 0x214 := by decide
theorem test_begin_twice :
    after (exec (.beginSetup 64) (begun id)) brief = some (⟨true, true, none⟩, 0x214, 0, [.beginTwice]) := by decide
theorem test_setGain_while_busy :
    after (exec (.setGain 64) (acquiring .rawAverage true 2 2 0)) brief = some (⟨true, false, none⟩, 0x63E, 0x202, []) := by
  decide
theorem test_setGain_unmapped :
    [0, 1, 100, 127, 129, 256, 0x8080, 0xFFFF].map (fun f => after (exec (.setGain f) (begun id)) (·.regs.gainCode)) =
      List.replicate 8 (some .one) := by decide
theorem test_startAverage :
    after (exec (.startAverage true 2) (begun (fun r => { r with acc := 7, ready := true }))) brief =
      some (⟨true, false, none⟩, 0x23E, 0x202, []) := by decide
theorem test_startAverage_faults :
    after (exec (.startAverage false 0) .reset) (·.faults) = some [.notBegun] ∧
    after (exec (.startAverage false 0) (begun id)) (·.faults) = some [.countZero] := by decide
theorem test_startValue :
    after (exec (.startValue false 4) (begun id)) brief = some (⟨true, false, none⟩, 0x29E, 0x404, []) := by decide
theorem test_startUnits :
    after (exec (.startUnits true 255) (begun id)) brief = some (⟨true, false, none⟩, 0x33E, 0xFFFF, []) := by decide
theorem test_tare : after (exec (.tare 3) (begun (fun r => { r with sinkEn := true }))) brief =
    some (⟨true, false, none⟩, 0x25E, 0x303, []) := by decide
theorem test_irqAck :
    after (exec .irqAck (begun (fun r => { r with ready := true, sinkEn := true, armed := false, irqPend := true })))
      (·.regs.statusWord) = some 0x231 := by decide
theorem test_rdStatus : after (exec .rdStatus .reset) (·.resp) = some ⟨true, false, some 0x200⟩ := by decide
theorem test_rdResult :
    after (exec .rdResult (begun (fun r => { r with ready := true, result := 0x43160000 })))
      (fun t => (t.resp.rdata, t.regs.ready, t.regs.result)) = some (some 0x43160000, false, 0x43160000) := by decide
theorem test_offset_registers :
    after (exec (.wrOffset 0x80000000) .reset) (·.regs.offset) = some 0x80000000 ∧
    after (exec .rdOffset (begun (fun r => { r with offset := 0xFFFFFF9C }))) (·.resp.rdata) = some (some 0xFFFFFF9C) := by
  decide
theorem test_scale_registers :
    after (exec (.wrScale 0x7FC00001) .reset) (·.regs.scale) = some 0x7FC00001 ∧
    after (exec .rdScale .reset) (·.resp.rdata) = some (some 0x3F800000) := by decide
theorem test_rdAcc : after (exec .rdAcc (acquiring .rawAverage true 2 1 100)) (·.resp.rdata) = some (some 100) := by decide
theorem test_rdCounts : after (exec .rdCounts (acquiring .rawAverage true 3 1 0)) (·.resp.rdata) = some (some 0x301) := by
  decide

/-! ## Transport, sample step, finalisation (95_test_vectors.md 2.1-2.4) -/

theorem test_sign_extension :
    signExtend24 0x7FFFFF = 0x007FFFFF ∧ signExtend24 0x800000 = 0xFF800000 ∧ signExtend24 0xEDCBAA = 0xFFEDCBAA ∧
    signExtend24 0x008000 = 0x00008000 := by decide
theorem test_shift_byte :
    shiftByte [true, false, false, false, false, false, false, false] = 0x80 ∧
    shiftByte [false, false, false, false, false, false, false, true] = 0x01 ∧ assembleRaw 0x12 0x34 0x56 = 0x123456 := by
  decide
theorem test_sample_rearms :
    let t := (acquiring .rawAverage false 3 2 100).readyEdge small 0x0000C8
    t.regs.acc = 300 ∧ t.regs.remaining = 1 ∧ t.regs.armed = true ∧ t.pdSck = false := by decide
theorem test_sample_finalises :
    let t := (acquiring .rawAverage true 2 1 100).readyEdge small 0x0000C8
    t.regs.statusWord = 0xA31 ∧ t.regs.result = 0x43160000 ∧ t.events = [0x43160000] ∧ t.pdSck = true := by decide
theorem test_edges_ignored :
    (begun id).readyEdge small 5 = begun id ∧ (State.atReset small).readyEdge small 5 = State.atReset small := by decide
theorem test_average_truncates :
    ((acquiring .rawAverage false 2 1 0xFFFFFFFF).readyEdge small 0xFFFFFE).regs.result = 0xBF800000 := by decide
theorem test_tare_loads_offset :
    let t := ((acquiring .rawAverage false 3 1 0xFFFFFF38).withRegs
      { (acquiring .rawAverage false 3 1 0xFFFFFF38).regs with tareF := true }).readyEdge small 0xFFFF9B
    t.regs.offset = 0xFFFFFF9C ∧ t.regs.result = 0xC2C80000 ∧ t.regs.ready = true ∧ t.events = [] := by decide
theorem test_extreme_sums :
    ((acquiring .rawAverage false 255 1 0x81000000).readyEdge small 0x800000).regs.result = 0xCB000000 := by decide

/-! ## Binary32 (95_test_vectors.md 2.4) -/

theorem test_i2f : i2f 150 = 0x43160000 ∧ i2f (-100) = 0xC2C80000 ∧ i2f 0 = 0 ∧ i2f 8388607 = 0x4AFFFFFE := by decide
theorem test_i2f_rounds :
    i2f (-2147483647) = 0xCF000000 ∧ i2f (-2155872255) = 0xCF008000 ∧ i2f 2147483653 = 0x4F000000 ∧
    i2f 16777217 = 0x4B800000 ∧ i2f 16777219 = 0x4B800002 := by decide
theorem test_fdiv :
    fdiv (i2f 1000) 0x41200000 = 0x42C80000 ∧ fdiv (i2f 1) 0x40400000 = 0x3EAAAAAB ∧
    fdiv (i2f 3) 0x3DCCCCCD = 0x41F00000 ∧ fdiv (i2f 10) 0xC0000000 = 0xC0A00000 := by decide
theorem test_fdiv_special :
    fdiv (i2f 5) 0 = 0x7F800000 ∧ fdiv (i2f (-5)) 0 = 0xFF800000 ∧ fdiv 0 0 = 0x7FC00000 ∧
    fdiv (i2f 5) 0x80000000 = 0xFF800000 ∧ fdiv 0 0xBF800000 = 0x80000000 ∧ fdiv (i2f 7) 0x7FC00001 = 0x7FC00000 ∧
    fdiv (i2f 1) 0x7F800000 = 0 ∧ fdiv (i2f (-1)) 0xFF800000 = 0 ∧ fdiv (i2f 1) 1 = 0x7F800000 := by
  decide +kernel
/-- A subnormal quotient: 2^-126 / 2 = 2^-127; and 3 / 2 units, a tie, to 2 units. -/
theorem test_fdiv_subnormal : fdiv 0x00800000 0x40000000 = 0x00400000 ∧ fdiv 0x00000003 0x40000000 = 0x00000002 := by
  decide +kernel

/-! ## Clock cycles -/

/-- The timing illustration of 95_test_vectors.md: `T_SU` 2, `T_H` = `T_L` = 10, `T_FIN` 40. -/
theorem test_sample_cycles : (⟨0, 2, 0, 7, 9, 39, 0⟩ : Timing).sampleCycles .one = 543 := by decide
/-- R151, with SYNC = 2 and SYNC = 3: the pin enters as `DSYNC[0]`, and the level from before reset release is still what the
block reads, so there is no edge at release (R47). -/
theorem test_detector :
    after (clockCycle small ⟨true, false, none⟩ (.atReset small)) (fun t => (t.dsync, t.dprev, t.fallingEdge)) =
      some ([false, true], true, false) ∧
    after (clockCycle { small with syncSlack := 1 } ⟨true, false, none⟩ { begun id with dsync := [true, false, true] })
      (fun t => (t.dsync, t.dprev, t.fallingEdge)) = some ([false, true, false], true, true) := by decide
theorem test_edge_starts_step :
    after (clockCycle small ⟨true, false, none⟩ { acquiring .rawAverage false 1 1 0 with dsync := [false, false] })
      (fun t => (t.seq, t.stall, t.pdSck)) = some (.setup 0, true, false) := by decide
theorem test_setup_detaches :
    after (clockCycle small ⟨true, true, some (.ofTd 4 0)⟩ sampling)
      (fun t => (t.regs.armed, t.seq, t.pdSck, t.resp.ack)) = some (false, .data 0 0, true, false) := by decide
theorem test_bit_sampled_in_last_high_cycle :
    after (clockCycle small ⟨true, true, none⟩ { sampling with seq := .data 0 2, pdSck := true, sr := 1 })
      (fun t => (t.sr, t.seq, t.pdSck)) = some (3, .data 0 3, false) := by decide
theorem test_power_up_delay :
    after (clockCycle holding ⟨true, true, some (.command 0x30000001)⟩ { begun id with pdHold := 3 })
      (fun t => (t.regs.pwr, t.pdSck, t.pdHold)) = some (true, true, 4) := by decide
/-- R287: a sample step that starts in the hold of a power-down leaves PD_SCK high, and waits with its pulses. -/
theorem test_sample_step_in_the_hold :
    after (clockCycle holding ⟨true, true, none⟩
      { acquiring .rawAverage false 1 1 0 with dsync := [false, false], pdSck := true, pdHold := 3 })
      (fun t => (t.seq, t.pdSck, t.pdHold)) = some (.setup 0, true, 4) ∧
    after (runMove holding (.readyEdge 7) { acquiring .rawAverage false 2 2 0 with pdSck := true, pdHold := 3 })
      (fun t => (t.pdSck, t.pdHold, t.regs.acc)) = some (false, 5, 7) := by decide
/-- R190, R208: with the hold just over, a refused write and a read leave PD_SCK alone; a clock cycle lets it fall. -/
theorem test_refused_leaves_clock_line :
    let s := { acquiring .rawAverage false 1 1 0 with pdSck := true, pdHold := 5 }
    after (runMove holding (.host ⟨true, 0x18, 7⟩) s) (fun t => (t.pdSck, t.faults)) = some (true, [.busDirection]) ∧
    after (runMove holding (.clock ⟨true, true, some ⟨true, 0x18, 7⟩⟩) s) (·.pdSck) = some false := by decide
theorem test_stalled_request_is_held :
    after (runMove small (.host (.ofTd 4 0)) sampling) (fun t => (t.resp.ack, t.sched, t.freeIdx)) =
      some (false, [.host (.ofTd 4 0)], 1) := by decide

/-! ## Witnesses: a state and operands that meet the hypotheses of each obligation that has some -/

/-- A block with `SYNC` stages, its last power-down hold over. -/
def rested (tm : Timing) (s : State) : State := { s with dsync := List.replicate tm.sync true, pdHold := tm.tPD }

/-- An idle block between sample steps meets the invariant, whatever the timing. -/
theorem rested_inv (tm : Timing) (s : State) (hq : s.seq = .idle) (hs : s.stall = false) (hp : s.pdSck = !s.regs.pwr)
    (hf : s.faults = []) (hc : s.regs.Consistent) (ha : s.regs.busy = true → s.regs.armed = true) :
    (rested tm s).Inv tm where
  stall_iff := by rw [rested, hs, hq]; rfl
  in_range := by rw [rested, hq]; trivial
  sampling := by simp [rested, hs]
  detached := .inl hq
  sync_stages := List.length_replicate
  clock_line := ⟨by simp only [rested, hq]; intro h; rw [hp, h]; rfl, fun h => absurd rfl h⟩
  hold_le := Nat.le_refl _
  faults_wf := by rw [rested, hf]; exact List.Pairwise.nil
  consistent := fun _ => hc
  waits_armed := fun _ _ => ha

/-- The state of a begun, idle block is consistent, and so is one that waits for its last sample. -/
theorem begun_inv (tm : Timing) : (rested tm (begun id)).Inv tm :=
  rested_inv tm _ rfl rfl rfl rfl
    ⟨by decide, by decide, by decide, by decide, by decide, by decide, by unfold Regs.Accounted; decide⟩ (by decide)
theorem acquiring_inv (tm : Timing) : (rested tm (acquiring .rawAverage true 2 1 100)).Inv tm :=
  rested_inv tm _ rfl rfl rfl rfl
    ⟨by decide, by decide, by decide, by decide, by decide, by decide, by unfold Regs.Accounted; decide⟩ (by decide)

/-- ResetCycleTakesResetValues, ResetAbandonsSampleStep. -/
theorem witness_reset : (⟨false, true, none⟩ : Pins).rstN = false ∧ sampling.stall = true := by decide

/-- DecodedTransactionIsTheEncoding: a read with write data. -/
theorem witness_decoded : decode ⟨false, 0x08, 77⟩ = .op .rdResult := by decide

/-- IllegalEncodingsAreRefused: one transaction for each kind, and none of them for a legal one. -/
theorem witness_illegal_bus :
    (0x02 : BitVec 5).extractLsb' 0 2 ≠ 0 ∧ (⟨true, 0x1C, 0⟩ : Txn).td = 0x3C ∧ (⟨false, 0x1C, 0⟩ : Txn).td = 0x1C ∧
    (⟨false, 0x00, 0⟩ : Txn).td = 0x00 ∧ (⟨true, 0x18, 0⟩ : Txn).td = 0x38 := by decide
theorem witness_illegal_command :
    (Txn.command 0x80000000).td = 0x20 ∧ 8 ≤ ((0x80000000 : Word).extractLsb' 28 4).toNat ∧
    (0x0FFFFFFF : Word).extractLsb' 28 4 = 0 ∧ (0x10010000 : Word).extractLsb' 16 12 ≠ 0 ∧
    (0x30000200 : Word).extractLsb' 9 19 ≠ 0 ∧ (0x60000100 : Word).extractLsb' 8 20 ≠ 0 ∧
    (0x70000001 : Word).extractLsb' 0 28 ≠ 0 := by decide

/-- StepRunsDecodedOperation: both of its cases. -/
theorem witness_step :
    (State.reset.withFetchWord 32 0x10000040).sched = [.host (.command 0x10000040)] ∧
    decode (.command 0x10000040) = .op (.beginSetup 64) ∧ State.reset.stall = false ∧
    ({ State.reset with sched := [.clock ⟨true, false, some (.command 0x10000040)⟩] } : State).sched =
      [.clock ⟨true, false, some (.command 0x10000040)⟩] := by decide
theorem witness_step_exec : ∃ u, exec (.beginSetup 64) State.reset = .next u := ⟨_, rfl⟩

/-- RefusedStepChangesOnlyFaults, RefusedCycleDiffersOnlyInFaults. -/
theorem witness_refused :
    (State.reset.withFetchWord 8 0x1C).sched = [.host ⟨false, 0x1C, 0⟩] ∧ State.reset.stall = false ∧
    decode ⟨false, 0x1C, 0⟩ = .refuse .busUnmapped ∧ (begun id).regs.begun = true ∧ State.reset.regs.begun = false ∧
    decode (.command 0x10000080) = .op (.beginSetup 128) ∧ (begun id).regs.remaining = 0 ∧
    decode (.command 0x60000000) = .op (.tare 0) ∧ startOperands (.tare 0) = some (.rawAverage, 0, false, true) := by
  decide
theorem witness_refused_cycle : ∃ u, clockCycle small ⟨true, true, none⟩ State.reset = .next u := ⟨_, rfl⟩

/-- StalledTransactionWaits. -/
theorem witness_stalled :
    ({ sampling with sched := [.host (.ofTd 4 0)] } : State).sched = [.host (.ofTd 4 0)] ∧ sampling.stall = true := by
  decide

/-- BeginSetsUpOnce: before and after. -/
theorem witness_begin : State.reset.regs.begun = false ∧ (begun id).regs.begun = true := by decide

/-- StartsFollowTheCommonSequence, BusyStartStaysWithinItsBounds: each case, with the counts 0, 1 and 255. -/
theorem witness_starts :
    startOperands (.startAverage true 0) = some (.rawAverage, 0, true, false) ∧
    startOperands (.startValue false 1) = some (.offsetValue, 1, false, false) ∧
    startOperands (.startUnits true 255) = some (.scaledUnits, 255, true, false) ∧
    startOperands (.tare 1) = some (.rawAverage, 1, false, true) ∧ State.reset.regs.begun = false ∧
    (begun id).regs.begun = true ∧ (begun id).regs.remaining = 0 ∧
    (acquiring .rawAverage true 2 1 100).regs.begun = true ∧ (acquiring .rawAverage true 2 1 100).regs.remaining ≠ 0 := by
  decide

/-- HostOperationsFrame: operations that write each of the registers it speaks of. -/
theorem witness_frame :
    (after (exec (.setGain 32) (begun id)) (·.regs.gainCode) = some .two) ∧
    (after (exec (.wrOffset 3) (begun id)) (·.regs.offset) = some 3) ∧
    (after (exec (.startValue true 9) (begun id)) (fun t => (t.regs.remaining, t.regs.requested)) = some (9, 9)) := by
  decide

/-- A block whose next move is `m`. -/
def next (m : Move) (s : State) : State := { s with sched := [m] }

/-- ScaleChangesOnlyByItsWrite, GainChangesOnlyByGainSelection, OffsetChangesOnlyByWriteOrTare: each cause. -/
theorem witness_changes :
    after (step (next (.host (encode (.wrScale 7))) (begun id))) (·.regs.scale) = some 7 ∧
    after (step (next (.host (encode (.setGain 64))) (begun id))) (·.regs.gainCode) = some .three ∧
    after (step (next (.host (encode (.beginSetup 32))) .reset)) (·.regs.gainCode) = some .two ∧
    after (step (next (.host (encode (.wrOffset 7))) (begun id))) (·.regs.offset) = some 7 ∧
    after (step (next (.clock ⟨false, true, none⟩) (begun (fun r => { r with scale := 7, offset := 7, gainCode := .two }))))
      (fun t => (t.regs.scale, t.regs.offset, t.regs.gainCode)) = some (0x3F800000, 0, .one) := by decide
theorem witness_tare_change :
    after (step (next (.readyEdge 100)
      (begun (fun r => { r with tareF := true, requested := 1, remaining := 1, pwr := true })))) (·.regs.offset) =
      some 100 := by decide

/-- ResultChangesOnlyAtFinalisation, IrqRisesAndFallsAsSignalled (its rise), EventsGrowByFinalisationsOnly. -/
theorem witness_result :
    after (step (next (.readyEdge 200) (acquiring .rawAverage true 2 1 100)))
      (fun t => (t.regs.result, t.irq, t.events)) = some (0x43160000, true, [0x43160000]) ∧
    (acquiring .rawAverage true 2 1 100).regs.result = 0 ∧ (acquiring .rawAverage true 2 1 100).irq = false := by decide

/-- IrqRisesAndFallsAsSignalled: its fall. -/
theorem witness_irq_falls :
    (begun (fun r => { r with irqPend := true })).irq = true ∧
    after (step (next (.host (encode .irqAck)) (begun (fun r => { r with irqPend := true })))) State.irq = some false := by
  decide

/-- BegunIsClearedOnlyByReset. -/
theorem witness_begun_cleared :
    after (step (next (.clock ⟨false, true, none⟩) (begun id))) (·.regs.begun) = some false := by decide

/-- FaultsOnlyGrow: a step with a fault recorded before it. -/
theorem witness_faults :
    after (step (next (.host (.ofTd 0 0)) ((begun id).recordFault .countZero))) (·.faults) =
      some [.busDirection, .countZero] := by decide

/-- NoStepAbortsAnAcquisition. -/
theorem witness_in_flight :
    (acquiring .rawAverage true 3 2 0).regs.busy = true ∧
    after (step (next (.readyEdge 5) (acquiring .rawAverage true 3 2 0))) (·.regs.remaining) = some 1 := by decide

/-- OnlyStartsLeaveIdle, StepKeepsTheInvariant. -/
theorem witness_leaves_idle :
    ∃ s t, State.Inv Config.timing s ∧ step s = .next t ∧ s.regs.busy = false ∧ t.regs.busy = true :=
  ⟨rested Config.timing (next (.host (encode (.startAverage true 2))) (begun id)), _,
    rested_inv _ _ rfl rfl rfl rfl ((begun_inv Config.timing).consistent (by decide)) (by decide), rfl, rfl, rfl⟩

/-- DetectorRunsEveryCycle: the reset state, whatever the timing; with SYNC = 2, two cycles. -/
theorem witness_detector (tm : Timing) : (State.atReset tm).dsync.length = tm.sync := List.length_replicate
theorem witness_detector_run :
    [(⟨true, false, none⟩ : Pins), ⟨true, true, none⟩].length = small.sync ∧
    ∃ t, runCycles small [⟨true, false, none⟩, ⟨true, true, none⟩] (State.atReset small) = .next t := ⟨rfl, _, rfl⟩

/-- OnlyAQualifiedEdgeStartsASampleStep, TransactionGoesBeforeTheSampleStep: an edge that is qualified, and two that are
not. -/
theorem witness_edge :
    let s : State := { acquiring .rawAverage false 1 1 0 with dsync := [false, false] }
    s.seq = .idle ∧ s.stall = false ∧ s.fallingEdge = true ∧ s.regs.armed = true ∧ s.regs.remaining ≠ 0 ∧
    (acquiring .rawAverage false 1 1 0).fallingEdge = false ∧ (begun id).regs.remaining = 0 ∧
    after (perform (.command 0x20000040) s) (fun u => (u.regs.armed, u.regs.remaining)) = some (true, 1) := by decide
theorem witness_edge_cycle : ∃ t, clockCycle small ⟨true, true, none⟩ (acquiring .rawAverage false 1 1 0) = .next t :=
  ⟨_, rfl⟩

/-- SampleStepPulseCount, ClockedSampleStepRefinesTheAtomicOne, DataBitsArriveMostSignificantFirst: a state and as many
cycles as a sample step takes; the run of those cycles answers a next state. -/
theorem witness_sampling :
    sampling.seq = .setup 0 ∧ sampling.stall = true ∧ sampling.holdWait small = 0 ∧
    sampling.regs.remaining ≠ 0 ∧ sampling.regs.remaining ≠ 1 ∧ sampling.regs.pwr = true := by decide
theorem witness_sampling_cycles (tm : Timing) :
    ∃ ps : List Pins, ps.length = sampling.holdWait tm + tm.sampleCycles sampling.regs.gainCode ∧
      (∀ p ∈ ps, p.rstN = true) ∧ ∃ t, runCycles tm ps sampling = .next t :=
  ⟨List.replicate _ ⟨true, true, none⟩, List.length_replicate, fun _ h => by rw [List.eq_of_mem_replicate h],
    runMoves_next _ _ _⟩

/-- SampleStepPulseCount, its last sample: one left to take. -/
def samplingLast : State := { acquiring .rawAverage true 2 1 100 with seq := .setup 0, stall := true }
theorem witness_sampling_last :
    samplingLast.seq = .setup 0 ∧ samplingLast.stall = true ∧ samplingLast.regs.remaining = 1 ∧
    samplingLast.regs.remaining ≠ 0 ∧ samplingLast.regs.pwr = true ∧
    (List.replicate (small.sampleCycles .one) (⟨true, true, none⟩ : Pins)).length =
      samplingLast.holdWait small + small.sampleCycles samplingLast.regs.gainCode := by decide +kernel

/-- SampleStepPulseCount, ClockedSampleStepRefinesTheAtomicOne, DataBitsArriveMostSignificantFirst and
SampleStepWaitsForTheHold, of a sample step that starts in a hold with two of its five cycles left: it agrees with the
clock line, and waits for three cycles. -/
def samplingHeld : State := { sampling with pdSck := true, pdHold := 3 }
theorem witness_sampling_held :
    samplingHeld.seq = .setup 0 ∧ samplingHeld.stall = true ∧ samplingHeld.holdWait holding = 3 ∧
    samplingHeld.regs.remaining ≠ 0 ∧ samplingHeld.regs.pwr = true ∧
    (List.replicate (3 + holding.sampleCycles .one) (⟨true, true, none⟩ : Pins)).length =
      samplingHeld.holdWait holding + holding.sampleCycles samplingHeld.regs.gainCode := by decide +kernel
theorem witness_sampling_held_agrees : State.ClockLineAgrees holding samplingHeld := ⟨fun _ => rfl, fun _ => ⟨rfl, .inr rfl⟩⟩
theorem witness_waits :
    ([] : List Pins).length < samplingHeld.holdWait holding ∧ holding.tSU = 0 ∧
    (List.replicate 3 (⟨true, true, none⟩ : Pins)).length = samplingHeld.holdWait holding ∧
    (List.replicate 4 (⟨true, true, none⟩ : Pins)).length = samplingHeld.holdWait holding + (1 + holding.tSU) := by decide

/-- SampleStepCourseIgnoresData: two states at one position, with different data. -/
theorem witness_course :
    let s := { sampling with seq := .data 3 1 }
    let t := { sampling with seq := .data 3 1, sr := 5, regs := { sampling.regs with mode := .scaledUnits, acc := 9 } }
    s.seq = t.seq ∧ s.seq ≠ .idle ∧ s.stall = true ∧ t.stall = true ∧ s.regs.gainCode = t.regs.gainCode ∧
    s.pdSck = t.pdSck ∧ s.pdHold = t.pdHold ∧ sampling.seq = .setup 0 := by decide
theorem witness_course_cycles : (∃ u, clockCycle small ⟨true, true, none⟩ sampling = .next u) ∧
    ∃ v, clockCycle small ⟨true, false, none⟩ { sampling with sr := 5 } = .next v := ⟨⟨_, rfl⟩, ⟨_, rfl⟩⟩

/-- PowerDownHoldIsKept, PdSckFollowsThePulseTrain: a fall, a rise and neither. -/
theorem witness_hold :
    after (clockCycle holding ⟨true, true, none⟩
      { acquiring .rawAverage false 1 1 0 with pdSck := true, pdHold := 5 }) (fun t => (t.seq, t.pdSck)) =
      some (.idle, false) ∧
    after (clockCycle small ⟨true, true, none⟩ { begun id with pdSck := false }) (fun t => (t.seq, t.pdSck)) =
      some (.idle, true) ∧
    after (clockCycle small ⟨true, true, none⟩ (begun id)) (fun t => (t.seq, t.pdSck)) = some (.idle, true) := by decide
/-- PdSckFollowsThePulseTrain, PowerDownHoldIsKept: held inside a sample step; a pulse's last high cycle; setup; the finish. -/
theorem witness_train :
    after (clockCycle holding ⟨true, true, none⟩ { sampling with pdSck := true, pdHold := 4 })
      (fun t => (t.seq, t.pdSck)) = some (.setup 0, true) ∧
    after (clockCycle small ⟨true, true, none⟩ { sampling with seq := .gainp 0 2, pdSck := true })
      (fun t => (t.seq, t.pdSck)) = some (.gainp 0 3, false) ∧
    after (clockCycle { small with setup := 1 } ⟨true, true, none⟩ sampling)
      (fun t => (t.seq, t.pdSck)) = some (.setup 1, false) ∧
    after (clockCycle small ⟨true, true, none⟩ { sampling with seq := .gainp 0 3 })
      (fun t => (t.seq, t.pdSck)) = some (.fin 0, false) := by decide

/-- PowerDownLastsItsHold: from reset, the whole of a hold. -/
theorem witness_hold_lasts :
    (State.atReset holding).pdSck = true ∧ (State.atReset holding).seq = .idle ∧
    (∀ m ∈ List.replicate 5 (Move.clock ⟨true, true, none⟩), ∀ d, m ≠ .readyEdge d) ∧
    (State.atReset holding).pdHold + (List.replicate 5 (Move.clock ⟨true, true, none⟩)).length ≤ holding.tPD := by
  refine ⟨rfl, rfl, fun m h d => ?_, by decide⟩
  rw [List.eq_of_mem_replicate h]; simp
theorem witness_hold_run (tm : Timing) (ms : List Move) : ∃ t, runMoves tm ms (State.atReset tm) = .next t :=
  runMoves_next _ _ _

/-- SilentConverterHangsTheAcquisition. -/
theorem witness_silent :
    let s := acquiring .rawAverage true 2 1 100
    s.seq = .idle ∧ s.stall = false ∧ (∀ b ∈ s.dsync, b = true) ∧ s.regs.busy = true := by decide

/-- ShiftedBitsAssembleTheBytes. -/
theorem witness_bytes : (List.replicate 8 true).length = 8 := by decide

/-- UnqualifiedEdgeIsLost: each reason. -/
theorem witness_lost :
    State.reset.regs.armed = false ∧ (begun id).regs.remaining = 0 ∧ sampling.seq ≠ .idle := by decide

/-- SampleStepAccumulatesAndRearms, LastSampleStepFinalises: two samples left, and one; PD_SCK low before. -/
theorem witness_sample :
    let s := acquiring .rawAverage true 2 2 0
    let l := acquiring .rawAverage true 2 1 100
    s.seq = .idle ∧ s.regs.armed = true ∧ s.regs.pwr = true ∧ 1 < s.regs.remaining.toNat ∧
    l.seq = .idle ∧ l.regs.armed = true ∧ l.regs.remaining = 1 ∧ l.regs.requested ≠ 0 := by decide

/-- RawAverageIsExact, OffsetValueIsTheRoundedDifference: 255 readings at the negative end; an average of 0; and a
difference beyond 2^24. -/
theorem witness_average :
    let r : Regs := { Regs.reset with requested := 255, acc := 0x80800000 }
    let v : Regs := { Regs.reset with requested := 1, mode := .offsetValue, offset := 0x7FFFFFFF }
    r.mode = .rawAverage ∧ r.requested ≠ 0 ∧ r.remaining = 0 ∧ r.Accounted ∧ Regs.reset.acc.toInt.tdiv 1 = 0 ∧
    v.mode = .offsetValue ∧ v.requested ≠ 0 ∧ v.remaining = 0 ∧ v.Accounted ∧
    (v.acc.toInt.tdiv 1 - v.offset.toInt).natAbs = 2 ^ 31 - 1 ∧ f32Finite 0xCF000000 = true := by
  unfold Regs.Accounted; decide +kernel

/-- IntegerConversionRoundsToNearestEven: the bound, and a tie between two different values. -/
theorem witness_conversion :
    ((2 : Int) ^ 33 - 1).natAbs < 2 ^ 33 ∧ f32Finite 0x4B800001 = true ∧ f32Scaled 0x4B800001 ≠ f32Scaled (i2f 16777217) ∧
    (f32Scaled (i2f 16777217) - 16777217 * 2 ^ 149).natAbs = (f32Scaled 0x4B800001 - 16777217 * 2 ^ 149).natAbs := by
  decide +kernel

/-- DivisionRoundsToNearestEven: an overflow, a finite quotient, and a tie between two different values. -/
theorem witness_division :
    f32Finite 0x7F7FFFFF = true ∧ f32Mag 0x00000001 ≠ 0 ∧
    (2 ^ 25 - 1) * 2 ^ 252 * f32Mag 0x00000001 ≤ f32Mag 0x7F7FFFFF * 2 ^ 149 ∧
    f32Finite 0x40000000 = true ∧ f32Mag 0x40000000 ≠ 0 ∧
    f32Mag 0x00000003 * 2 ^ 149 < (2 ^ 25 - 1) * 2 ^ 252 * f32Mag 0x40000000 ∧
    f32Mag 0x00000001 ≠ f32Mag (fdiv 0x00000003 0x40000000) ∧
    ((f32Mag (fdiv 0x00000003 0x40000000) * f32Mag 0x40000000 : Int) - f32Mag 0x00000003 * 2 ^ 149).natAbs =
      ((f32Mag 0x00000001 * f32Mag 0x40000000 : Int) - f32Mag 0x00000003 * 2 ^ 149).natAbs := by decide +kernel

/-- DivisionByZeroInfinityAndNaN: each kind of divisor. -/
theorem witness_divisors :
    f32IsNaN 0x7F800001 = true ∧ f32IsInf 0xFF800000 = true ∧ f32Finite 0x80000001 = true ∧ f32Mag 0x80000001 ≠ 0 ∧
    (-1 : Int) < 0 ∧ (-1 : Int).natAbs < 2 ^ 33 := by decide

/-- AcquisitionRunsToCompletion, TareOfConstantReadingsLoadsIt: counts of 1 and 255. -/
theorem witness_acquisition :
    startOperands (.startUnits true 1) = some (.scaledUnits, 1, true, false) ∧ [(5 : Raw)].length = (1 : Count).toNat ∧
    startOperands (.tare 255) = some (.rawAverage, 255, false, true) ∧ (begun id).seq = .idle ∧
    (begun id).stall = false ∧ (begun id).regs.begun = true ∧ (begun id).regs.remaining = 0 := by decide
theorem witness_readings : (List.replicate 255 (0x800000 : Raw)).length = (255 : Count).toNat := List.length_replicate

end Sys2Proof.Tests
end

section
/-! PROOFS. Binary32 rounding (00_scope.md R16, R166; log 12): what a conversion and a division answer.

The idea: `roundRatio n d` rounds to a multiple of `2^x`, where `x` is so chosen that the rounded significand has 24 bits
(or `x` is 0). A binary32 magnitude is such a multiple, or lies below the least 24-bit significand at that exponent, which
is itself a candidate between it and the exact value. -/

namespace Sys2Proof.Machine

/-! ## The nearest whole number -/

/-- The rounded quotient of a value below `k` divisors is at most `k`. -/
theorem divNearestEven_le {n d k : Nat} (h : n < d * k) : divNearestEven n d ≤ k := by
  have hq : n / d < k := Nat.div_lt_of_lt_mul h
  rw [divNearestEven_eq]
  split <;> omega

/-- The rounded quotient of a value of at least `k` divisors is at least `k`. -/
theorem le_divNearestEven {n d k : Nat} (hd : 0 < d) (h : d * k ≤ n) : k ≤ divNearestEven n d := by
  have hq : k ≤ n / d := (Nat.le_div_iff_mul_le hd).2 (by rwa [Nat.mul_comm])
  rw [divNearestEven_eq]
  split <;> omega

/-- A multiple as near as another rounded quotient makes that quotient even. -/
theorem divNearestEven_even_of_eq {n d m : Nat} (hd : 0 < d) (hm : m ≠ divNearestEven n d)
    (h : ((d * divNearestEven n d : Nat) - (n : Int)).natAbs = ((d * m : Nat) - (n : Int)).natAbs) :
    divNearestEven n d % 2 = 0 := by
  obtain ⟨h1, h2⟩ := divNearestEven_half (n := n) hd
  apply divNearestEven_tie hd
  generalize divNearestEven n d = q at hm h h1 h2 ⊢
  rcases Nat.lt_or_gt_of_ne hm with hlt | hlt
  · have : d * (m + 1) ≤ d * q := Nat.mul_le_mul_left d hlt
    rw [Nat.mul_add] at this
    omega
  · have : d * (q + 1) ≤ d * m := Nat.mul_le_mul_left d hlt
    rw [Nat.mul_add] at this
    omega

/-! ## Patterns and their magnitudes -/

theorem f32Frac_lt (p : Word) : f32Frac p < 2 ^ 23 := (p.extractLsb' 0 23).isLt

theorem f32Finite_iff {p : Word} : f32Finite p = true ↔ f32Exp p ≠ 255 := by
  simp [f32Finite]

@[simp] theorem f32Mag_zero : f32Mag 0 = 0 := rfl

@[simp] theorem f32Neg_zero : f32Neg 0 = false := rfl

/-- The value of a pattern is its magnitude or the negated one. -/
theorem f32Scaled_eq_or (p : Word) : f32Scaled p = f32Mag p ∨ f32Scaled p = -(f32Mag p : Int) := by
  rw [f32Scaled]
  split
  · exact .inr rfl
  · exact .inl rfl

/-- The magnitude of a pattern whose 31 bits are the sum of an exponent part `x * 2^23` and a significand `s`: the carry of
`s` into the exponent field is what makes the sum a binary32 number again. -/
theorem f32Mag_packFloat (neg : Bool) {x s : Nat} (hx : x = 0 ∨ 2 ^ 23 ≤ s) (hs : s ≤ 2 ^ 24)
    (hm : x * 2 ^ 23 + s < 2 ^ 31) : f32Mag (packFloat neg (x * 2 ^ 23 + s)) = s * 2 ^ x := by
  rw [f32Mag, f32Exp_packFloat neg hm, f32Frac_packFloat neg hm]
  by_cases hsub : s < 2 ^ 23
  · obtain rfl : x = 0 := by omega
    rw [if_pos (by simp only [beq_iff_eq]; omega)]
    omega
  rw [if_neg (by simp only [beq_iff_eq]; omega)]
  by_cases hcarry : s = 2 ^ 24
  · have he : (x * 2 ^ 23 + s) / 2 ^ 23 - 1 = x + 1 := by omega
    have hf : (x * 2 ^ 23 + s) % 2 ^ 23 = 0 := by omega
    rw [he, hf, hcarry, Nat.pow_succ]
    omega
  · have he : (x * 2 ^ 23 + s) / 2 ^ 23 - 1 = x := by omega
    have hf : 2 ^ 23 + (x * 2 ^ 23 + s) % 2 ^ 23 = s := by omega
    rw [he, hf]

/-- Bit 0 of an even magnitude is 0. -/
theorem packFloat_getLsbD_zero (neg : Bool) {m : Nat} (h : m % 2 = 0) : (packFloat neg m).getLsbD 0 = false := by
  rw [packFloat, BitVec.getLsbD_append, if_pos (by decide), BitVec.getLsbD_ofNat, Nat.testBit_zero, h]
  rfl

/-- The overflow pattern is an infinity of either sign. -/
theorem f32IsInf_packFloat (neg : Bool) : f32IsInf (packFloat neg 0x7F800000) = true := by
  cases neg <;> decide

/-- The magnitudes are multiples of `2^x` from `2^(23 + x)` on. -/
theorem f32Mag_multiple_or_lt (p : Word) (x : Nat) :
    (∃ k, f32Mag p = k * 2 ^ x) ∨ (x ≠ 0 ∧ f32Mag p < 2 ^ 23 * 2 ^ x) := by
  have hf := f32Frac_lt p
  rcases Nat.eq_zero_or_pos x with rfl | hx
  · exact .inl ⟨f32Mag p, by rw [Nat.pow_zero, Nat.mul_one]⟩
  rw [f32Mag]
  split
  · have : 2 ^ 23 ≤ 2 ^ 23 * 2 ^ x := Nat.le_mul_of_pos_right _ (Nat.two_pow_pos x)
    exact .inr ⟨by omega, by omega⟩
  · rcases Nat.lt_or_ge (f32Exp p - 1) x with hlt | hle
    · refine .inr ⟨by omega, ?_⟩
      calc (2 ^ 23 + f32Frac p) * 2 ^ (f32Exp p - 1)
          < 2 ^ 24 * 2 ^ (f32Exp p - 1) := Nat.mul_lt_mul_of_pos_right (by omega) (Nat.two_pow_pos _)
        _ = 2 ^ 23 * 2 ^ (f32Exp p - 1 + 1) := by rw [Nat.pow_succ]; omega
        _ ≤ 2 ^ 23 * 2 ^ x := Nat.mul_le_mul_left _ (Nat.pow_le_pow_right (by decide) hlt)
    · refine .inl ⟨(2 ^ 23 + f32Frac p) * 2 ^ (f32Exp p - 1 - x), ?_⟩
      rw [Nat.mul_assoc, ← Nat.pow_add, Nat.sub_add_cancel hle]

/-! ## The rounded fraction -/

/-- What the exponent `x` that `roundRatio` chooses says of the fraction `u / d`, in units: the significand at `x` has at
most 24 bits, and no fewer unless `x` is 0. -/
structure Normalises (u d x : Nat) : Prop where
  upper : u < d * 2 ^ x * 2 ^ 24
  lower : x = 0 ∨ d * 2 ^ x * 2 ^ 23 ≤ u

/-- The exponent that `roundRatio` takes from the logarithm normalises the fraction. -/
theorem normalises_log2 {u d : Nat} (hd : 0 < d) : Normalises u d (Nat.log2 (u / d) - 23) := by
  have scale (x k : Nat) : d * 2 ^ x * 2 ^ k = 2 ^ (x + k) * d := by
    rw [Nat.pow_add]
    ring
  constructor
  · rw [scale, ← Nat.div_lt_iff_lt_mul hd]
    exact Nat.lt_of_lt_of_le Nat.lt_log2_self (Nat.pow_le_pow_right (by decide) (by omega))
  · rw [scale, ← Nat.le_div_iff_mul_le hd]
    rcases Nat.lt_or_ge 23 (Nat.log2 (u / d)) with h | h
    · have hne : u / d ≠ 0 := fun h0 => by simp [h0] at h
      rw [Nat.sub_add_cancel (Nat.le_of_lt h)]
      exact .inr (Nat.log2_self_le hne)
    · exact .inl (by omega)

/-- `roundRatio` by the exponent it chooses. -/
theorem roundRatio_cases (n : Nat) {d : Nat} (hd : 0 < d) : ∃ x, Normalises (n * 2 ^ 149) d x ∧
    roundRatio n d = min (x * 2 ^ 23 + divNearestEven (n * 2 ^ 149) (d * 2 ^ x)) 0x7F800000 :=
  ⟨_, normalises_log2 hd, rfl⟩

/-- The fraction 0 rounds to 0. -/
theorem roundRatio_zero (d : Nat) : roundRatio 0 d = 0 := by
  simp [roundRatio, divNearestEven]

/-- `p` is a nearest finite binary32 to the fraction `u / d` (in units), and its last bit is 0 if another magnitude is
equally near. The distances are multiplied by `d`. -/
structure RoundsTo (u d : Nat) (p : Word) : Prop where
  finite : f32Finite p = true
  nearest : ∀ q : Word, ((f32Mag p * d : Int) - u).natAbs ≤ ((f32Mag q * d : Int) - u).natAbs
  tie : ∀ q : Word, ((f32Mag p * d : Int) - u).natAbs = ((f32Mag q * d : Int) - u).natAbs →
    f32Mag q ≠ f32Mag p → p.getLsbD 0 = false

namespace Normalises
variable {u d x : Nat}

theorem divNearestEven_le (h : Normalises u d x) : divNearestEven u (d * 2 ^ x) ≤ 2 ^ 24 :=
  Machine.divNearestEven_le h.upper

theorem le_divNearestEven (h : Normalises u d x) (hd : 0 < d) : x = 0 ∨ 2 ^ 23 ≤ divNearestEven u (d * 2 ^ x) :=
  h.lower.imp_right (Machine.le_divNearestEven (Nat.mul_pos hd (Nat.two_pow_pos x)))

/-- Below half a step beyond the largest finite value the sum of exponent and significand is below infinity's bits. -/
theorem sum_lt (h : Normalises u d x) (hd : 0 < d) (hu : u < (2 ^ 25 - 1) * 2 ^ 252 * d) :
    x * 2 ^ 23 + divNearestEven u (d * 2 ^ x) < 0x7F800000 := by
  have hs := h.divNearestEven_le
  have hx : x ≤ 253 := by
    by_contra hgt
    have hpow : 2 ^ 254 ≤ 2 ^ x := Nat.pow_le_pow_right (by decide) (by omega)
    have hle := h.lower.resolve_left (by omega)
    have : d * 2 ^ 254 ≤ d * 2 ^ x := Nat.mul_le_mul_left d hpow
    omega
  rcases Nat.lt_or_eq_of_le hx with hlt | rfl
  · omega
  · have hhalf := (divNearestEven_half (n := u) (d := d * 2 ^ 253) (by omega)).1
    have : divNearestEven u (d * 2 ^ 253) < 2 ^ 24 := by
      by_contra hge
      have : d * 2 ^ 253 * 2 ^ 24 ≤ d * 2 ^ 253 * divNearestEven u (d * 2 ^ 253) :=
        Nat.mul_le_mul_left _ (by omega)
      omega
    omega

/-- From half a step beyond the largest finite value on the sum reaches infinity's bits; at the half itself because the
largest significand is odd. -/
theorem le_sum (h : Normalises u d x) (hd : 0 < d) (hu : (2 ^ 25 - 1) * 2 ^ 252 * d ≤ u) :
    0x7F800000 ≤ x * 2 ^ 23 + divNearestEven u (d * 2 ^ x) := by
  have hs := h.le_divNearestEven hd
  have hx : 253 ≤ x := by
    by_contra hlt
    have hpow : 2 ^ x ≤ 2 ^ 252 := Nat.pow_le_pow_right (by decide) (by omega)
    have := h.upper
    have : d * 2 ^ x ≤ d * 2 ^ 252 := Nat.mul_le_mul_left d hpow
    omega
  rcases Nat.lt_or_eq_of_le hx with hlt | rfl
  · omega
  · have hD : 0 < d * 2 ^ 253 := by omega
    have hhalf := (divNearestEven_half (n := u) hD).2
    have htie := divNearestEven_tie (n := u) hD
    have : 2 ^ 24 ≤ divNearestEven u (d * 2 ^ 253) := by
      by_contra hlt
      have : d * 2 ^ 253 * divNearestEven u (d * 2 ^ 253) ≤ d * 2 ^ 253 * (2 ^ 24 - 1) :=
        Nat.mul_le_mul_left _ (by omega)
      have heven := htie (.inr (by omega))
      have : d * 2 ^ 253 * divNearestEven u (d * 2 ^ 253) ≤ d * 2 ^ 253 * (2 ^ 24 - 2) :=
        Nat.mul_le_mul_left _ (by omega)
      omega
    omega

/-- The magnitude that the sum of exponent and significand encodes. -/
theorem f32Mag_sum (h : Normalises u d x) (neg : Bool) (hd : 0 < d) (hu : u < (2 ^ 25 - 1) * 2 ^ 252 * d) :
    f32Mag (packFloat neg (x * 2 ^ 23 + divNearestEven u (d * 2 ^ x))) = divNearestEven u (d * 2 ^ x) * 2 ^ x :=
  f32Mag_packFloat neg (h.le_divNearestEven hd) h.divNearestEven_le (Nat.lt_trans (h.sum_lt hd hu) (by decide))

/-- A magnitude below the least 24-bit significand at `x` is farther from the fraction than the rounded one. -/
theorem farther_of_lt (h : Normalises u d x) (hd : 0 < d) (hx : x ≠ 0) {m : Nat} (hm : m < 2 ^ 23 * 2 ^ x) :
    ((d * 2 ^ x * divNearestEven u (d * 2 ^ x) : Nat) - (u : Int)).natAbs < ((m * d : Nat) - (u : Int)).natAbs := by
  have hle := h.lower.resolve_left hx
  have hnear := divNearestEven_nearest (n := u) (Nat.mul_pos hd (Nat.two_pow_pos x)) (2 ^ 23)
  have : m * d < d * 2 ^ x * 2 ^ 23 := calc
    m * d < 2 ^ 23 * 2 ^ x * d := Nat.mul_lt_mul_of_pos_right hm hd
    _ = d * 2 ^ x * 2 ^ 23 := by ring
  omega

/-- Below the overflow threshold the sum of exponent and significand rounds the fraction to nearest, ties to even. -/
theorem roundsTo (h : Normalises u d x) (neg : Bool) (hd : 0 < d) (hu : u < (2 ^ 25 - 1) * 2 ^ 252 * d) :
    RoundsTo u d (packFloat neg (x * 2 ^ 23 + divNearestEven u (d * 2 ^ x))) := by
  have hD : 0 < d * 2 ^ x := Nat.mul_pos hd (Nat.two_pow_pos x)
  have hsum := h.sum_lt hd hu
  have hmag := h.f32Mag_sum neg hd hu
  have scale (k : Nat) : ((k * 2 ^ x : Nat) * d : Int) = (d * 2 ^ x * k : Nat) := by
    push_cast
    ring
  refine ⟨?_, fun q => ?_, fun q ht hne => packFloat_getLsbD_zero neg ?_⟩
  · rw [f32Finite_iff, f32Exp_packFloat neg (by omega)]
    omega
  · rw [hmag, scale]
    rcases f32Mag_multiple_or_lt q x with ⟨k, hk⟩ | ⟨hx, hlt⟩
    · rw [hk, scale]
      exact divNearestEven_nearest hD k
    · exact Nat.le_of_lt (h.farther_of_lt hd hx hlt)
  · rw [hmag, scale] at ht
    rcases f32Mag_multiple_or_lt q x with ⟨k, hk⟩ | ⟨hx, hlt⟩
    · rw [hk, scale] at ht
      have hk' : k ≠ divNearestEven u (d * 2 ^ x) := fun he => hne (by rw [hk, hmag, he])
      have := divNearestEven_even_of_eq hD hk' ht
      omega
    · exact absurd ht (Nat.ne_of_lt (h.farther_of_lt hd hx hlt))

end Normalises

/-- From half a step beyond the largest finite value on a fraction rounds to infinity. -/
theorem roundRatio_overflow {n d : Nat} (hd : 0 < d) (h : (2 ^ 25 - 1) * 2 ^ 252 * d ≤ n * 2 ^ 149) :
    roundRatio n d = 0x7F800000 := by
  obtain ⟨x, hx, he⟩ := roundRatio_cases n hd
  rw [he, Nat.min_eq_right (hx.le_sum hd h)]

/-- Below the overflow threshold `roundRatio` rounds to nearest, ties to even, under either sign. -/
theorem roundsTo_packFloat (neg : Bool) {n d : Nat} (hd : 0 < d) (h : n * 2 ^ 149 < (2 ^ 25 - 1) * 2 ^ 252 * d) :
    RoundsTo (n * 2 ^ 149) d (packFloat neg (roundRatio n d)) := by
  obtain ⟨x, hx, he⟩ := roundRatio_cases n hd
  rw [he, Nat.min_eq_left (Nat.le_of_lt (hx.sum_lt hd h))]
  exact hx.roundsTo neg hd h

/-! ## Conversion -/

theorem f32Neg_i2f (z : Int) : f32Neg (i2f z) = decide (z < 0) := f32Neg_packFloat ..

theorem i2f_zero : i2f 0 = 0 := by decide

/-- `i2f` rounds the magnitude of every integer below 2^33 in magnitude. -/
theorem roundsTo_i2f {z : Int} (hz : z.natAbs < 2 ^ 33) : RoundsTo (z.natAbs * 2 ^ 149) 1 (i2f z) :=
  roundsTo_packFloat _ Nat.one_pos (by omega)

/-- A nonzero integer has a nonzero magnitude: 2^-149 is nearer to it than 0. -/
theorem f32Mag_i2f_ne_zero {z : Int} (hz : z.natAbs < 2 ^ 33) (h0 : z ≠ 0) : f32Mag (i2f z) ≠ 0 := by
  intro hm
  have h := (roundsTo_i2f hz).nearest 0x00000001
  rw [hm, show f32Mag 0x00000001 = 1 by decide] at h
  omega

/-- Settles O53: the magnitude rounds to nearest, and a pattern of the other sign is no nearer than 0. -/
theorem integerConversionRoundsToNearestEven : Obligations.IntegerConversionRoundsToNearestEven := by
  intro z hz
  have hr := roundsTo_i2f hz
  refine ⟨hr.finite, fun q _ => ?_⟩
  have hzero := hr.nearest 0
  have hnear := hr.nearest q
  have htie := hr.tie q
  rw [f32Mag_zero] at hzero
  have hs : 0 ≤ z ∧ f32Scaled (i2f z) = f32Mag (i2f z) ∨ z < 0 ∧ f32Scaled (i2f z) = -(f32Mag (i2f z) : Int) := by
    rw [f32Scaled, f32Neg_i2f]
    rcases lt_or_ge z 0 with h | h
    · exact .inr ⟨h, if_pos (decide_eq_true h)⟩
    · exact .inl ⟨h, if_neg (by simpa using h)⟩
  have hq := f32Scaled_eq_or q
  exact ⟨by omega, fun he hne => htie (by omega) (by omega)⟩

/-! ## Division -/

theorem f32IsNaN_of_finite {p : Word} (h : f32Finite p = true) : f32IsNaN p = false := by
  simp [f32IsNaN, f32Finite_iff.1 h]

theorem f32IsInf_of_finite {p : Word} (h : f32Finite p = true) : f32IsInf p = false := by
  simp [f32IsInf, f32Finite_iff.1 h]

theorem f32IsNaN_of_isInf {p : Word} (h : f32IsInf p = true) : f32IsNaN p = false := by
  obtain ⟨-, hf⟩ : f32Exp p = 255 ∧ f32Frac p = 0 := by simpa [f32IsInf] using h
  simp [f32IsNaN, hf]

/-- R166: a NaN divisor. -/
theorem fdiv_of_isNaN (a : Word) {b : Word} (hb : f32IsNaN b = true) : fdiv a b = canonicalNaN := by
  simp [fdiv, hb]

section
variable {a b : Word} (ha : f32Finite a = true)
include ha

/-- R166: an infinite divisor. -/
theorem fdiv_of_isInf (hb : f32IsInf b = true) : fdiv a b = packFloat (f32Neg a != f32Neg b) 0 := by
  simp [fdiv, f32IsNaN_of_finite ha, f32IsInf_of_finite ha, f32IsNaN_of_isInf hb, hb]

/-- R166: a zero divisor. -/
theorem fdiv_of_mag_eq_zero (hb : f32Finite b = true) (h0 : f32Mag b = 0) :
    fdiv a b = if f32Mag a = 0 then canonicalNaN else packFloat (f32Neg a != f32Neg b) 0x7F800000 := by
  simp [fdiv, f32IsNaN_of_finite, f32IsInf_of_finite, ha, hb, h0]

/-- R16: finite operands and a nonzero divisor. -/
theorem fdiv_of_finite (hb : f32Finite b = true) (h0 : f32Mag b ≠ 0) :
    fdiv a b = packFloat (f32Neg a != f32Neg b) (roundRatio (f32Mag a) (f32Mag b)) := by
  simp [fdiv, f32IsNaN_of_finite, f32IsInf_of_finite, ha, hb, h0]

end

/-- Settles O54: below the threshold `roundRatio` rounds to nearest, from it on to infinity. -/
theorem divisionRoundsToNearestEven : Obligations.DivisionRoundsToNearestEven := by
  intro a b ha hb h0
  have hd : 0 < f32Mag b := Nat.pos_of_ne_zero h0
  rw [fdiv_of_finite ha hb h0]
  refine ⟨f32Neg_packFloat _ _, fun hover => ?_, fun hlt => ?_⟩
  · rw [roundRatio_overflow hd hover]
    exact f32IsInf_packFloat _
  · have hr := roundsTo_packFloat (f32Neg a != f32Neg b) hd hlt
    exact ⟨hr.finite, fun q _ => ⟨by simpa using hr.nearest q, by simpa using hr.tie q⟩⟩

/-- The zero of either sign. -/
theorem packFloat_zero (neg : Bool) : packFloat neg 0 = if neg then 0x80000000 else 0x00000000 := by
  cases neg <;> decide

/-- The infinity of either sign. -/
theorem packFloat_infinity (neg : Bool) : packFloat neg 0x7F800000 = if neg then 0xFF800000 else 0x7F800000 := by
  cases neg <;> decide

/-- A nonzero integer over a zero is an infinity with the sign of the quotient. -/
theorem fdiv_i2f_of_mag_eq_zero {z : Int} (hz : z.natAbs < 2 ^ 33) (h0 : z ≠ 0) {b : Word} (hb : f32Finite b = true)
    (hb0 : f32Mag b = 0) : fdiv (i2f z) b = if decide (z < 0) != f32Neg b then 0xFF800000 else 0x7F800000 := by
  rw [fdiv_of_mag_eq_zero (roundsTo_i2f hz).finite hb hb0, if_neg (f32Mag_i2f_ne_zero hz h0), packFloat_infinity,
    f32Neg_i2f]

/-- Settles O55, by the class of the divisor. -/
theorem divisionByZeroInfinityAndNaN : Obligations.DivisionByZeroInfinityAndNaN := by
  intro z b hz
  have hfin := (roundsTo_i2f hz).finite
  have overZero (h0 : z ≠ 0) {c : Word} := fdiv_i2f_of_mag_eq_zero hz h0 (b := c)
  refine ⟨fun hpos => ⟨?_, ?_⟩, fun hneg => ⟨?_, ?_⟩, by decide, by decide, fdiv_of_isNaN _, fun hb => ?_,
    fun hb h0 => ?_⟩
  · rw [overZero (by omega) (by decide) (by decide), decide_eq_false (by omega)]
    rfl
  · rw [overZero (by omega) (by decide) (by decide), decide_eq_false (by omega)]
    rfl
  · rw [overZero (by omega) (by decide) (by decide), decide_eq_true hneg]
    rfl
  · rw [overZero (by omega) (by decide) (by decide), decide_eq_true hneg]
    rfl
  · rw [fdiv_of_isInf hfin hb, packFloat_zero, f32Neg_i2f]
    rfl
  · rw [i2f_zero, fdiv_of_finite (by decide) hb h0, f32Mag_zero, roundRatio_zero, packFloat_zero, f32Neg_zero,
      Bool.false_bne]
    rfl

end Sys2Proof.Machine
end

section
/-! PROOFS. The registers over a step (10_state.md R24-R42): what the host's part of a step writes, and which steps change
which element. -/

namespace Sys2Proof.Machine

/-! ## What the host's part of a step writes -/

/-- What the host's part of a step does to the registers `r`, leaving the state `u`: nothing, or the writes of the carried
operation (R191-R207). Only a start while busy performs some of R194's writes alone, and then it is recorded (R244). -/
inductive RegsEffect (carried : Instr → Prop) (r : Regs) (u : State) : Prop where
  | unchanged (regs : u.regs = r)
  | begun (f : BitVec 16) (op : carried (.beginSetup f)) (fresh : r.begun = false)
      (regs : u.regs = { r with gainCode := selectGain f r.gainCode, pwr := false, armed := true, begun := true })
  | gainSelected (f : BitVec 16) (op : carried (.setGain f))
      (regs : u.regs = { r with gainCode := selectGain f r.gainCode })
  | acknowledged (op : carried .irqAck) (regs : u.regs = r.acknowledgeIrq)
  | resultRead (op : carried .rdResult) (regs : u.regs = { r with ready := false })
  | offsetWritten (v : Word) (op : carried (.wrOffset v)) (regs : u.regs = { r with offset := v })
  | scaleWritten (v : Word) (op : carried (.wrScale v)) (regs : u.regs = { r with scale := v })
  | started (i : Instr) (mode : Mode) (count : Count) (sink tare : Bool) (op : carried i)
      (operands : startOperands i = some (mode, count, sink, tare)) (ready : r.begun = true) (idle : r.busy = false)
      (nonzero : count ≠ 0) (regs : u.regs = r.started mode count sink tare)
  | startedBusy (i : Instr) (mode : Mode) (count : Count) (sink tare : Bool) (b : BusyStart) (op : carried i)
      (operands : startOperands i = some (mode, count, sink, tare)) (busy : r.busy = true)
      (regs : u.regs = r.partlyStarted (r.started mode count sink tare) b)
      (recorded : .startWhileBusy ∈ u.faults)

/-- What one of the four starts does to the registers. -/
theorem start_regsEffect {carried : Instr → Prop} {i : Instr} {mode : Mode} {count : Count} {sink tare : Bool}
    (op : carried i) (h : startOperands i = some (mode, count, sink, tare)) (s : State) :
    RegsEffect carried s.regs (s.start mode count sink tare) := by
  obtain ⟨_, e⟩ | ⟨_, busy, e⟩ | ⟨_, _, _, e⟩ | ⟨hb, idle, nonzero, e⟩ := start_cases s mode count sink tare
  · exact .unchanged (by rw [e]; rfl)
  · obtain ⟨n, e'⟩ | ⟨b, n, e'⟩ := startBusy_cases s (s.regs.started mode count sink tare)
    · exact .unchanged (by rw [e, e']; rfl)
    · refine .startedBusy i mode count sink tare b op h busy (by rw [e, e']; rfl) ?_
      rw [e, e']
      exact mem_insertFault.2 (.inl rfl)
  · exact .unchanged (by rw [e]; rfl)
  · exact .started i mode count sink tare op h hb idle nonzero (by rw [e]; rfl)

/-- What each host operation does to the registers. -/
theorem exec_regsEffect {carried : Instr → Prop} {i : Instr} (op : carried i) {s t : State} (h : exec i s = .next t) :
    RegsEffect carried s.regs t := by
  have ofStart {mode : Mode} {count : Count} {sink tare : Bool}
      (ho : startOperands i = some (mode, count, sink, tare)) : RegsEffect carried s.regs t := by
    rw [exec_start ho] at h
    injection h with h
    exact h ▸ start_regsEffect op ho s
  cases i with
  | beginSetup f =>
    simp only [exec, execBegin] at h
    split at h <;> injection h with h <;> subst h
    · exact .unchanged rfl
    · next hb => exact .begun f op (Bool.eq_false_of_not_eq_true hb) rfl
  | setGain f => injection h with h; exact .gainSelected f op (by rw [← h]; rfl)
  | startAverage | startValue | startUnits | tare => exact ofStart rfl
  | irqAck => injection h with h; exact .acknowledged op (by rw [← h]; rfl)
  | rdResult => injection h with h; exact .resultRead op (by rw [← h]; rfl)
  | wrOffset v => injection h with h; exact .offsetWritten v op (by rw [← h]; rfl)
  | wrScale v => injection h with h; exact .scaleWritten v op (by rw [← h]; rfl)
  | rdStatus | rdOffset | rdScale | rdAcc | rdCounts => injection h with h; exact .unchanged (by rw [← h]; rfl)

/-- The host's part of a step, of a move that carries more operations. -/
theorem HostEffect.mono {carried carried' : Instr → Prop} {s u : State} (h : HostEffect carried s u)
    (hc : ∀ i, carried i → carried' i) : HostEffect carried' s u := by
  cases h with
  | none e => exact .none e
  | op i c e => exact .op i (hc i c) e
  | refused c r ne e => exact .refused c r ne e

/-- What the host's part of a step does to the registers. -/
theorem HostEffect.regsEffect {carried : Instr → Prop} {s u : State} (h : HostEffect carried s u) :
    RegsEffect carried s.regs u := by
  cases h with
  | none e => obtain ⟨n, sch, rfl⟩ := e; exact .unchanged rfl
  | op i c e => obtain ⟨n, sch, e⟩ := e; exact (exec_regsEffect c e :)
  | refused c r _ e => obtain ⟨n, sch, rfl⟩ := e; exact .unchanged rfl

/-- A host operation records at most one fault. -/
theorem exec_faults {i : Instr} {s t : State} (h : exec i s = .next t) :
    t.faults = s.faults ∨ ∃ c, t.faults = insertFault c s.faults := by
  obtain ⟨c, e, _⟩ | ⟨r, e⟩ | ⟨v, r, e⟩ | ⟨full, _, e⟩ := exec_cases i s <;> rw [e] at h <;> injection h with h <;>
    subst h
  · exact .inr ⟨c, rfl⟩
  · exact .inl rfl
  · exact .inl rfl
  · obtain ⟨n, e'⟩ | ⟨b, n, e'⟩ := startBusy_cases s full <;> rw [e'] <;> exact .inr ⟨.startWhileBusy, rfl⟩

/-- A host operation is acknowledged (R70, R91). -/
theorem exec_ack {i : Instr} {s t : State} (h : exec i s = .next t) : t.resp.ack = true := by
  obtain ⟨c, e, _⟩ | ⟨r, e⟩ | ⟨v, r, e⟩ | ⟨full, _, e⟩ := exec_cases i s <;> rw [e] at h <;> injection h with h <;>
    subst h
  · rfl
  · rfl
  · rfl
  · obtain ⟨n, e'⟩ | ⟨b, n, e'⟩ := startBusy_cases s full <;> rw [e'] <;> rfl

/-- The host's part of a step records at most one fault. -/
theorem HostEffect.faults {carried : Instr → Prop} {s u : State} (h : HostEffect carried s u) :
    u.faults = s.faults ∨ ∃ c, u.faults = insertFault c s.faults := by
  cases h with
  | none e => obtain ⟨n, sch, rfl⟩ := e; exact .inl rfl
  | op i c e => obtain ⟨n, sch, e⟩ := e; exact (exec_faults e :)
  | refused c r _ e => obtain ⟨n, sch, rfl⟩ := e; exact .inr ⟨c, rfl⟩

/-! ## Register by register -/

namespace RegsEffect
variable {carried : Instr → Prop} {r : Regs} {u : State} (h : RegsEffect carried r u)
include h

/-- R33: no operation writes RESULT. -/
theorem result : u.regs.result = r.result := by
  cases h <;> simp [*, Regs.acknowledgeIrq, Regs.started, Regs.partlyStarted]

/-- R24, R192. -/
theorem gainCode : u.regs.gainCode = r.gainCode ∨ ∃ f, carried (.beginSetup f) ∨ carried (.setGain f) := by
  cases h with
  | begun f op => exact .inr ⟨f, .inl op⟩
  | gainSelected f op => exact .inr ⟨f, .inr op⟩
  | _ => simp [*, Regs.acknowledgeIrq, Regs.started, Regs.partlyStarted]

/-- R25. -/
theorem offset : u.regs.offset = r.offset ∨ carried (.wrOffset u.regs.offset) := by
  cases h <;> simp [*, Regs.acknowledgeIrq, Regs.started, Regs.partlyStarted]

/-- R26. -/
theorem scale : u.regs.scale = r.scale ∨ carried (.wrScale u.regs.scale) := by
  cases h <;> simp [*, Regs.acknowledgeIrq, Regs.started, Regs.partlyStarted]

/-- R35. -/
theorem irqPend : u.regs.irqPend = r.irqPend ∨ carried .irqAck ∧ u.regs.irqPend = false := by
  cases h <;> simp [*, Regs.acknowledgeIrq, Regs.started, Regs.partlyStarted]

/-- R36. -/
theorem begun_eq : u.regs.begun = r.begun ∨ u.regs.begun = true ∧ ∃ f, carried (.beginSetup f) := by
  cases h with
  | begun f op _ regs => exact .inr ⟨by rw [regs], f, op⟩
  | _ => simp [*, Regs.acknowledgeIrq, Regs.started, Regs.partlyStarted]

/-- R194: the counts and ACC are written by a start alone, ACC with 0. -/
theorem counts : u.regs.remaining = r.remaining ∧ u.regs.requested = r.requested ∧ u.regs.acc = r.acc ∨
    (∃ i, carried i ∧ (startOperands i).isSome = true) ∧ (u.regs.acc = r.acc ∨ u.regs.acc = 0) := by
  cases h with
  | started i _ _ _ _ op operands _ _ _ regs => exact .inr ⟨⟨i, op, by rw [operands]; rfl⟩, .inr (by rw [regs]; rfl)⟩
  | startedBusy i _ _ _ _ b op operands _ regs =>
    refine .inr ⟨⟨i, op, by rw [operands]; rfl⟩, ?_⟩
    rw [regs]
    cases hb : b.acc <;> simp [Regs.started, Regs.partlyStarted, hb]
  | _ => simp [*, Regs.acknowledgeIrq]

/-- R201, R194: READY is cleared by a start and by the read of RESULT. -/
theorem ready_eq : u.regs.ready = r.ready ∨
    u.regs.ready = false ∧ ∃ i, carried i ∧ ((startOperands i).isSome = true ∨ i = .rdResult) := by
  cases h with
  | resultRead op regs => exact .inr ⟨by rw [regs], .rdResult, op, .inr rfl⟩
  | started i _ _ _ _ op operands _ _ _ regs =>
    exact .inr ⟨by rw [regs]; rfl, i, op, .inl (by rw [operands]; rfl)⟩
  | startedBusy i _ _ _ _ b op operands _ regs =>
    rw [regs]
    cases hb : b.ready with
    | false => exact .inl (by simp [Regs.partlyStarted, hb])
    | true => exact .inr ⟨by simp [Regs.started, Regs.partlyStarted, hb], i, op, .inl (by rw [operands]; rfl)⟩
  | _ => simp [*, Regs.acknowledgeIrq]

end RegsEffect

/-- Settles O24, register by register. -/
theorem hostOperationsFrame : Obligations.HostOperationsFrame := by
  intro i s t h
  obtain ⟨t', h', hidden⟩ := exec_next i s
  obtain rfl : t' = t := by rw [h] at h'; injection h' with h'; exact h'.symm
  have he : RegsEffect (i = ·) s.regs t' := exec_regsEffect rfl h
  have ofCounts (hne : ¬(t'.regs.remaining = s.regs.remaining ∧ t'.regs.requested = s.regs.requested ∧
      t'.regs.acc = s.regs.acc)) :
      (startOperands i).isSome = true ∧ (t'.regs.acc = s.regs.acc ∨ t'.regs.acc = 0) := by
    obtain ⟨⟨_, rfl, hs⟩, hacc⟩ := he.counts.resolve_left hne
    exact ⟨hs, hacc⟩
  refine ⟨exec_ack h, hidden.sr, hidden.seq, hidden.dsync, hidden.dprev, hidden.pdHold, hidden.pdSck, hidden.stall,
    hidden.events, hidden.sched, he.result, he.gainCode.resolve_left, he.offset.resolve_left, he.scale.resolve_left,
    he.irqPend.resolve_left, he.begun_eq.resolve_left, fun hne => (ofCounts fun e => hne e.1).1,
    fun hne => (ofCounts fun e => hne e.2.1).1, fun hne => ?_, fun hne => ?_⟩
  · obtain ⟨hs, hacc⟩ := ofCounts fun e => hne e.2.2
    exact ⟨hs, hacc.resolve_left hne⟩
  · obtain ⟨hf, _, rfl, hop⟩ := he.ready_eq.resolve_left hne
    exact ⟨hf, hop⟩

/-! ## The controller's part of a step -/

namespace SampleEffect
variable {s t : State} (h : SampleEffect s t)
include h

/-- R133: the controller writes none of these. -/
theorem frame : t.regs.gainCode = s.regs.gainCode ∧ t.regs.scale = s.regs.scale ∧ t.regs.begun = s.regs.begun := by
  cases h <;> simp [*, Regs.accumulate, Regs.finalized]

/-- R167: the controller loads OFFSET in the finalisation of a tare alone. -/
theorem offset : t.regs.offset = s.regs.offset ∨ t.regs.tareF = true ∧ t.regs.ready = true ∧ t.regs.busy = false := by
  cases h with
  | finalised raw armed idle _ regs =>
    cases ht : s.regs.tareF with
    | false => exact .inl (by simp [regs, Regs.accumulate, Regs.finalized, ht])
    | true => exact .inr ⟨by simp [regs, Regs.accumulate, Regs.finalized, ht], by rw [regs]; rfl, by rw [regs]; exact idle⟩
  | _ => simp [*, Regs.accumulate]

/-- R51, R170: one event with the new RESULT, at a finalisation with a completion sink. -/
theorem events : t.events = s.events ∨
    t.events = s.events ++ [t.regs.result] ∧ t.regs.sinkEn = true ∧ t.regs.ready = true ∧ t.irq = true := by
  cases h with
  | finalised raw armed idle _ regs events =>
    cases hs : s.regs.sinkEn with
    | false => exact .inl (by simpa [hs] using events)
    | true =>
      exact .inr ⟨by simpa [hs] using events, by simp [regs, Regs.accumulate, Regs.finalized, hs], by rw [regs]; rfl,
        by simp [State.irq, regs, Regs.accumulate, Regs.finalized, hs]⟩
  | none _ events | detached _ _ events | rearmed _ _ _ events => exact .inl events

end SampleEffect

/-- The host's part of a step appends no event. -/
theorem HostEffect.events {carried : Instr → Prop} {s u : State} (h : HostEffect carried s u) : u.events = s.events := by
  cases h with
  | none e => obtain ⟨n, sch, rfl⟩ := e; rfl
  | op i c e =>
    obtain ⟨n, sch, e⟩ := e
    obtain ⟨u', e', hidden⟩ := exec_next i { s with freeIdx := n, sched := sch }
    obtain rfl : u' = u := by rw [e] at e'; injection e' with e'; exact e'.symm
    exact hidden.events
  | refused c r _ e => obtain ⟨n, sch, rfl⟩ := e; rfl

/-! ## The whole machine -/

/-- A step is a reset cycle, or the host's part and then the controller's. -/
theorem step_cases {s t : State} (h : step s = .next t) :
    s.NextResets ∧ t = s.takeMove.2.resetCycle Config.timing ∨
      ∃ u, RegsEffect s.NextCarries s.regs u ∧ u.events = s.events ∧ SampleEffect u t := by
  have hm := takeMove_frame s
  obtain hr | ⟨u, hu, ht, _⟩ := runMove_effect h
  · exact .inl hr
  · have hregs : s.takeMove.2.regs = s.regs := by rw [hm]
    have hevents : s.takeMove.2.events = s.events := by rw [hm]
    exact .inr ⟨u, hregs ▸ hu.regsEffect, hu.events.trans hevents, ht⟩

/-- Settles O25. -/
theorem scaleChangesOnlyByItsWrite : Obligations.ScaleChangesOnlyByItsWrite := by
  intro s t h hne
  obtain ⟨hr, _⟩ | ⟨u, hu, _, ht⟩ := step_cases h
  · exact .inl hr
  · obtain ⟨_, hscale, _⟩ := ht.frame
    rw [hscale] at hne ⊢
    exact .inr (hu.scale.resolve_left hne)

/-- Settles O26. -/
theorem gainChangesOnlyByGainSelection : Obligations.GainChangesOnlyByGainSelection := by
  intro s t h hne
  obtain ⟨hr, _⟩ | ⟨u, hu, _, ht⟩ := step_cases h
  · exact .inl hr
  · obtain ⟨hgain, _, _⟩ := ht.frame
    rw [hgain] at hne
    exact .inr (hu.gainCode.resolve_left hne)

/-- Settles O27: the write is the host's, the tare's load the controller's. -/
theorem offsetChangesOnlyByWriteOrTare : Obligations.OffsetChangesOnlyByWriteOrTare := by
  intro s t h hne
  obtain ⟨hr, _⟩ | ⟨u, hu, _, ht⟩ := step_cases h
  · exact .inl hr
  · obtain hoffset | htare := ht.offset
    · rw [hoffset] at hne ⊢
      exact .inr (.inl (hu.offset.resolve_left hne))
    · exact .inr (.inr htare)

/-- Settles O29. -/
theorem begunIsClearedOnlyByReset : Obligations.BegunIsClearedOnlyByReset := by
  intro s t h hs hf
  obtain ⟨hr, _⟩ | ⟨u, hu, _, ht⟩ := step_cases h
  · exact hr
  · obtain ⟨_, _, hbegun⟩ := ht.frame
    rw [hbegun] at hf
    obtain he | ⟨htrue, _⟩ := hu.begun_eq
    · rw [he, hs] at hf; cases hf
    · rw [htrue] at hf; cases hf

/-- Settles O31. A reset cycle keeps the events (log 5). -/
theorem eventsGrowByFinalisationsOnly : Obligations.EventsGrowByFinalisationsOnly := by
  intro s t h
  obtain ⟨_, rfl⟩ | ⟨u, _, hu, ht⟩ := step_cases h
  · exact .inl (by rw [takeMove_frame s]; rfl)
  · rw [← hu]
    exact ht.events

/-! ## The packed registers -/

/-- The fields of a word packed as STATUS is (R41). The width of the reserved field is a variable, so that the word's is no
literal and the rules for a concatenation apply to it. -/
theorem statusLayout {n : Nat} (z : BitVec n) (irq : Bool) (gain mode : BitVec 2)
    (tare sink begun pwr armed busy ready : Bool) :
    let w := z ++ BitVec.ofBool irq ++ gain ++ mode ++ BitVec.ofBool tare ++ BitVec.ofBool sink ++
      BitVec.ofBool begun ++ BitVec.ofBool pwr ++ BitVec.ofBool armed ++ BitVec.ofBool busy ++ BitVec.ofBool ready
    w.getLsbD 0 = ready ∧ w.getLsbD 1 = busy ∧ w.getLsbD 2 = armed ∧ w.getLsbD 3 = pwr ∧ w.getLsbD 4 = begun ∧
      w.getLsbD 5 = sink ∧ w.getLsbD 6 = tare ∧ w.extractLsb' 7 2 = mode ∧ w.extractLsb' 9 2 = gain ∧
      w.getLsbD 11 = irq ∧ w.extractLsb' 12 n = z := by
  simp [BitVec.getElem_append, BitVec.extractLsb'_append_eq_of_le, extract_low]

/-- The fields of a word packed as COUNTS is (R42). -/
theorem countsLayout (z : BitVec 16) (requested remaining : Count) :
    let w := z ++ requested ++ remaining
    w.extractLsb' 0 8 = remaining ∧ w.extractLsb' 8 8 = requested ∧ w.extractLsb' 16 16 = z :=
  ⟨extract_low _ _, (extract_above (n := 0) _ remaining).trans (extract_low _ _),
    (extract_above (n := 8) _ remaining).trans (extract_high _ _)⟩

/-- Settles O23. -/
theorem packedRegisterLayouts : Obligations.PackedRegisterLayouts := by
  intro r
  obtain ⟨hready, hbusy, harmed, hpwr, hbegun, hsink, htare, hmode, hgain, hirq, hzero⟩ :=
    statusLayout (0 : BitVec 20) r.irqPend r.gainCode.code r.mode.code r.tareF r.sinkEn r.begun r.pwr r.armed r.busy r.ready
  have hbusy' : r.busy = decide (r.remaining ≠ 0) := Bool.eq_iff_iff.2 (by simp [Regs.busy_iff])
  refine ⟨hready, hbusy.trans hbusy', harmed, hpwr, hbegun, hsink, htare, hmode.trans ?_, hgain.trans ?_, hirq, hzero,
    countsLayout 0 r.requested r.remaining⟩
  · cases r.mode <;> rfl
  · cases r.gainCode <;> rfl

end Sys2Proof.Machine
end

section
/-! PROOFS. The clock line in a cycle, and the invariant over a step (10_state.md R44-R54, 70_reset_and_hazards.md R287).

The idea: a move takes one of four courses (`MoveCourse`). The invariant without its clauses on the clock line
(`State.InvOffLine`) is kept by the host's part of a move and by the sequencer's work; the clock line is what the move
then makes of it. -/

namespace Sys2Proof.Machine

/-! ## The sequencer's position after a cycle -/

/-- A sample step starts between sample steps, with a sample to take (R155). -/
theorem startsSample_enabled {s u : State} (h : startsSample s u = true) :
    s.seq = .idle ∧ u.seq = .idle ∧ u.regs.busy = true := by
  simp only [startsSample, State.sampleEnabled, Bool.and_eq_true, beq_iff_eq] at h
  obtain ⟨⟨_, ⟨hs, _⟩, _⟩, ⟨hu, _⟩, hb⟩ := h
  exact ⟨hs, hu, hb⟩

/-- After a cycle a sample step has started, or the sequencer has moved on. -/
theorem clockEdge_seq_cases (tm : Timing) (d : Bool) (s u : State) :
    (s.seq = .idle ∧ u.seq = .idle ∧ u.regs.busy = true ∧ (clockEdge tm d s u).seq = .setup 0) ∨
      (clockEdge tm d s u).seq = u.nextSeq tm := by
  rw [clockEdge_seq]
  cases h : startsSample s u with
  | true =>
    obtain ⟨hs, hu, hb⟩ := startsSample_enabled h
    exact .inl ⟨hs, hu, hb, rfl⟩
  | false => exact .inr rfl

/-- Outside a sample step the sequencer stays. -/
theorem nextSeq_idle {tm : Timing} {s : State} (h : s.seq = .idle) : s.nextSeq tm = .idle := by
  simp [State.nextSeq, State.waitsForHold, Seq.advance, h]

/-- A finish goes on to its last cycle, and then ends the sample step. -/
theorem nextSeq_fin {tm : Timing} {s : State} {c : Nat} (h : s.seq = .fin c) :
    s.nextSeq tm = if c + 1 < tm.tFIN then .fin (c + 1) else .idle := by
  simp [State.nextSeq, State.waitsForHold, Seq.advance, h]

/-- A sample step ends with the last cycle of its finish alone. -/
theorem seq_of_nextSeq_idle {tm : Timing} {s : State} (h : s.nextSeq tm = .idle) :
    s.seq = .idle ∨ ∃ c, s.seq = .fin c ∧ tm.tFIN ≤ c + 1 := by
  cases hq : s.seq with
  | idle => exact .inl rfl
  | fin c =>
    rw [nextSeq_fin hq] at h
    exact .inr ⟨c, rfl, by by_contra hlt; rw [if_pos (by omega)] at h; cases h⟩
  | setup c => simp only [State.nextSeq, State.waitsForHold, Seq.advance, hq] at h; split_ifs at h
  | data i c => simp only [State.nextSeq, State.waitsForHold, Seq.advance, hq] at h; split_ifs at h
  | gainp k c => simp only [State.nextSeq, State.waitsForHold, Seq.advance, hq] at h; split_ifs at h

/-- While PD_SCK is high, a position of the setup is that of a sample step that waits. -/
theorem seq_of_nextSeq_setup {tm : Timing} {s : State} {c : Nat} (h : s.nextSeq tm = .setup c) (hp : s.pdSck = true) :
    s.seq = .setup c := by
  cases hq : s.seq with
  | setup k => rw [nextSeq_waits hq hp] at h; exact h
  | idle => rw [nextSeq_idle hq] at h; cases h
  | fin k => rw [nextSeq_fin hq] at h; split_ifs at h
  | data i k => simp only [State.nextSeq, State.waitsForHold, Seq.advance, hq] at h; split_ifs at h
  | gainp i k => simp only [State.nextSeq, State.waitsForHold, Seq.advance, hq] at h; split_ifs at h

section
variable (tm : Timing) (d : Bool) {s u : State}

/-- From between sample steps the sequencer stays or a sample step starts. -/
theorem clockEdge_seq_of_idle (hq : u.seq = .idle) :
    (clockEdge tm d s u).seq = .idle ∨ (clockEdge tm d s u).seq = .setup 0 := by
  obtain ⟨_, _, _, h⟩ | h := clockEdge_seq_cases tm d s u
  · exact .inr h
  · exact .inl (h.trans (nextSeq_idle hq))

/-- A sample step that has started goes on. -/
theorem clockEdge_seq_of_running (hq : u.seq ≠ .idle) : (clockEdge tm d s u).seq = u.nextSeq tm :=
  (clockEdge_seq_cases tm d s u).resolve_left fun ⟨_, h, _⟩ => hq h

/-- The last cycle of a finish ends the sample step. -/
theorem clockEdge_seq_of_last {c : Nat} (hq : u.seq = .fin c) (hc : tm.tFIN ≤ c + 1) :
    (clockEdge tm d s u).seq = .idle := by
  rw [clockEdge_seq_of_running tm d (by rw [hq]; simp), nextSeq_fin hq, if_neg (by omega)]

/-- After a cycle the sequencer is idle only if it was, or if that cycle was the last of a finish. -/
theorem seq_of_clockEdge_idle (h : (clockEdge tm d s u).seq = .idle) :
    u.seq = .idle ∨ ∃ c, u.seq = .fin c ∧ tm.tFIN ≤ c + 1 := by
  obtain ⟨_, _, _, hq⟩ | hq := clockEdge_seq_cases tm d s u
  · rw [hq] at h; cases h
  · exact seq_of_nextSeq_idle (hq.symm.trans h)

/-- A sample step waits in its setup while PD_SCK is high (R287, log 10). -/
theorem clockEdge_seq_of_waiting {c : Nat} (hq : u.seq = .setup c) (hp : u.pdSck = true) :
    (clockEdge tm d s u).seq = .setup c := by
  rw [clockEdge_seq_of_running tm d (by rw [hq]; simp), nextSeq_waits hq hp]

end

/-! ## The clock line in a cycle -/

/-- A hold that has not ended keeps PD_SCK high between sample steps and in the setup (R287). -/
theorem nextPdSck_of_held {tm : Timing} {q : Seq} {s : State} (h : s.lineHeld tm = true)
    (hq : q = .idle ∨ ∃ c, q = .setup c) : nextPdSck tm q s = true := by
  obtain rfl | ⟨c, rfl⟩ := hq <;> simp [nextPdSck, h]

/-- Settles O59: the level is that of the new position. -/
theorem pdSckFollowsThePulseTrain : Obligations.PdSckFollowsThePulseTrain := by
  intro tm p s t hr h
  obtain ⟨hline, _⟩ := clockCycle_line hr h
  refine ⟨fun hq => ?_, fun c hq => ?_, fun i c hq => ?_, fun c hq => ?_⟩
  · rw [hline, hq, Bool.or_comm]
    rfl
  · rw [hline, hq]
    rfl
  · obtain hq | hq := hq <;> rw [hline, hq] <;> rfl
  · rw [hline, hq]
    rfl

/-- While a hold lasts, a cycle leaves PD_SCK high between sample steps and in the setup. -/
theorem clockEdge_pdSck_of_held {tm : Timing} (d : Bool) {s u : State} (hidden : HiddenUnchanged s u)
    (hp : s.pdSck = true) (hlt : s.pdHold < tm.tPD) (hq : s.seq = .idle ∨ ∃ c, s.seq = .setup c) :
    (clockEdge tm d s u).pdSck = true := by
  have hnext : (clockEdge tm d s u).seq = .idle ∨ ∃ c, (clockEdge tm d s u).seq = .setup c := by
    rw [← hidden.seq] at hq
    obtain hq | ⟨c, hq⟩ := hq
    · exact (clockEdge_seq_of_idle tm d hq).imp_right fun h => ⟨0, h⟩
    · exact .inr ⟨c, clockEdge_seq_of_waiting tm d hq (hidden.pdSck.trans hp)⟩
  rw [(clockEdge_line tm d hidden).1]
  exact nextPdSck_of_held (by simp [State.lineHeld, hp, hlt]) hnext

/-- Settles O44. A fall inside a pulse train finds the hold ended, by the invariant's clause `held`. -/
theorem powerDownHoldIsKept : Obligations.PowerDownHoldIsKept := by
  intro tm p s t hr h
  obtain ⟨u, _, hidden, rfl⟩ := clockCycle_run hr h
  obtain ⟨hline, hhold⟩ := clockEdge_line tm p.dout hidden
  generalize ht : clockEdge tm p.dout s u = t at hline hhold
  refine ⟨fun hp hf hq => ?_, fun _ hf hq => ?_, fun hq hp hrise => ⟨?_, ?_⟩, fun hno => ?_⟩
  · by_contra hge
    have hq : s.seq = .idle ∨ ∃ c, s.seq = .setup c := by
      obtain hq | hagrees := hq
      · exact hq
      · exact (hagrees.held (by omega)).2.imp_right fun h => ⟨0, h⟩
    rw [← ht, clockEdge_pdSck_of_held p.dout hidden hp (by omega) hq] at hf
    cases hf
  · rw [hline, hq] at hf
    simpa [nextPdSck] using (Bool.or_eq_false_iff.1 hf).2
  · rw [hhold, hq, hp, hrise]
    rfl
  · rw [hline, hq] at hrise
    simpa [nextPdSck, State.lineHeld, hp] using hrise
  · rw [hhold, if_neg]
    simp only [Bool.and_eq_true, beq_iff_eq, Bool.not_eq_true']
    rintro ⟨⟨hq, hrise⟩, hp⟩
    simp [hq, hp, hrise] at hno

/-- The clock line agrees with the sequencer after every cycle, if it did before. -/
theorem clockEdge_clockLine {tm : Timing} (d : Bool) {s u : State} (hs : s.ClockLineAgrees tm)
    (hidden : HiddenUnchanged s u) : (clockEdge tm d s u).ClockLineAgrees tm := by
  obtain ⟨hline, hhold⟩ := clockEdge_line tm d hidden
  constructor
  · cases hq : (clockEdge tm d s u).seq with
    | idle =>
      intro hpwr
      rw [hline, hq]
      simp [nextPdSck, hpwr]
    | setup c =>
      intro hp
      rw [hline, hq] at hp
      obtain ⟨hsp, _⟩ : s.pdSck = true ∧ _ := by simpa [nextPdSck, State.lineHeld] using hp
      obtain ⟨_, _, _, hstart⟩ | hnext := clockEdge_seq_cases tm d s u
      · rw [hq] at hstart
        injection hstart
      · have hlevel := hs.level
        rw [← hidden.seq, seq_of_nextSeq_setup (hnext.symm.trans hq) (hidden.pdSck.trans hsp)] at hlevel
        exact hlevel hsp
    | data i c => rw [hline, hq]; rfl
    | gainp k c => rw [hline, hq]; rfl
    | fin c => rw [hline, hq]; rfl
  · intro hne
    rw [hhold] at hne
    split at hne
    · next hrise =>
      simp only [Bool.and_eq_true, beq_iff_eq] at hrise
      exact ⟨hrise.1.2, .inl hrise.1.1⟩
    · obtain ⟨hp, hq⟩ := hs.held (by omega)
      refine ⟨clockEdge_pdSck_of_held d hidden hp (by omega) (hq.imp_right fun h => ⟨0, h⟩), ?_⟩
      rw [← hidden.seq] at hq
      obtain hq | hq := hq
      · exact clockEdge_seq_of_idle tm d hq
      · exact .inr (clockEdge_seq_of_waiting tm d hq (hidden.pdSck.trans hp))

/-- `PDHOLD` stays within `T_PD` in a cycle (log 8). -/
theorem clockEdge_hold_le {tm : Timing} (d : Bool) {s u : State} (hidden : HiddenUnchanged s u) :
    (clockEdge tm d s u).pdHold ≤ tm.tPD := by
  rw [(clockEdge_line tm d hidden).2]
  split <;> omega

/-- A transaction that switches PWR takes PD_SCK with it (log 6). -/
theorem followPower_switched (tm : Timing) {before : Bool} {s : State} (h : s.regs.pwr ≠ before) :
    s.followPower tm before = { s with
      pdSck := nextPdSck tm .idle s, pdHold := if nextPdSck tm .idle s && !s.pdSck then 0 else s.pdHold } := by
  rw [State.followPower, if_neg h]

/-- The clock line after an atomic transaction between sample steps (log 6). -/
theorem followPower_clockLine {tm : Timing} {s u : State} (hs : s.ClockLineAgrees tm) (hle : s.pdHold ≤ tm.tPD)
    (hidden : HiddenUnchanged s u) (hq : s.seq = .idle) :
    (u.followPower tm s.regs.pwr).ClockLineAgrees tm ∧ (u.followPower tm s.regs.pwr).pdHold ≤ tm.tPD := by
  obtain ⟨hlevel, hheld⟩ := hs
  rw [hq] at hlevel
  rw [← hidden.pdHold] at hle hheld
  rw [← hidden.pdSck] at hlevel hheld
  rw [← hidden.seq] at hheld hq
  by_cases hpwr : u.regs.pwr = s.regs.pwr
  · rw [← hpwr] at hlevel ⊢
    rw [followPower_unchanged]
    exact ⟨⟨by rw [hq]; exact hlevel, hheld⟩, hle⟩
  · rw [followPower_switched tm hpwr]
    refine ⟨⟨?_, fun hne => ⟨?_, .inl hq⟩⟩, ?_⟩
    · simp only [hq]
      intro hoff
      simp [nextPdSck, hoff]
    · dsimp only at hne ⊢
      split at hne
      · next hrise => exact (Bool.and_eq_true_iff.1 hrise).1
      · have hp := (hheld hne).1
        exact nextPdSck_of_held (by simp [State.lineHeld, hp]; omega) (.inl rfl)
    · dsimp only
      split <;> omega

/-! ## The end of a sample step -/

/-- Sign extension is the library's (R126). -/
theorem signExtend24_eq (v : Raw) : signExtend24 v = v.signExtend 32 := by
  rw [BitVec.signExtend_eq_append_of_le (by decide), BitVec.msb_eq_getLsbD_last, signExtend24]
  cases v.getLsbD 23 <;> simp

/-- A reading is a 24-bit two's-complement number (R156). -/
theorem signExtend24_bounds (v : Raw) : -2 ^ 23 ≤ (signExtend24 v).toInt ∧ (signExtend24 v).toInt ≤ 2 ^ 23 - 1 := by
  rw [signExtend24_eq, BitVec.toInt_signExtend_of_le (by decide)]
  have hlow := BitVec.le_toInt v
  have hhigh := BitVec.toInt_lt (x := v)
  omega

namespace Regs.Consistent

/-- The clauses of R53 and R54 leave ARMED free. -/
theorem withArmed {r : Regs} (h : r.Consistent) (b : Bool) : Regs.Consistent { r with armed := b } :=
  ⟨h.remaining_le, h.busy_powered, h.busy_unread, h.busy_begun, h.idle_off, h.tare_plain, h.accounted⟩

/-- One more reading keeps ACC within the range of the readings taken (R10). -/
theorem accumulate_accounted {r : Regs} (h : r.Consistent) (hb : r.busy = true) (d : Raw) :
    (r.accumulate (signExtend24 d)).Accounted ∧
      (r.accumulate (signExtend24 d)).remaining.toNat ≤ (r.accumulate (signExtend24 d)).requested.toNat := by
  have hne := (Regs.busy_iff r).1 hb
  have hpos : r.remaining.toNat ≠ 0 := fun h0 => hne (BitVec.eq_of_toNat_eq h0)
  have hrem : (r.remaining - 1).toNat = r.remaining.toNat - 1 := remaining_sub_one hne
  have hle := h.remaining_le
  have hlt := r.requested.isLt
  obtain ⟨hlow, hhigh⟩ := h.accounted
  obtain ⟨dlow, dhigh⟩ := signExtend24_bounds d
  have hacc : (r.acc + signExtend24 d).toInt = r.acc.toInt + (signExtend24 d).toInt := by
    rw [BitVec.toInt_add]
    exact Int.bmod_eq_of_le (by omega) (by omega)
  refine ⟨?_, ?_⟩
  · simp only [Regs.Accounted, Regs.accumulate, hacc, hrem]
    omega
  · simp only [Regs.accumulate, hrem]
    omega

/-- The end of a sample step keeps the clauses of R53 and R54. -/
theorem finishSample {s : State} (h : s.regs.Consistent) (hb : s.regs.busy = true) (d : Raw) :
    (s.finishSample (signExtend24 d)).regs.Consistent := by
  obtain ⟨hacc, hle⟩ := h.accumulate_accounted hb d
  cases hbusy : (s.regs.accumulate (signExtend24 d)).busy with
  | true =>
    rw [finishSample_rearms hbusy]
    exact ⟨hle, fun _ => h.busy_powered hb, fun _ => h.busy_unread hb, fun _ => h.busy_begun hb,
      fun hidle => absurd (hidle.symm.trans hbusy) Bool.false_ne_true, h.tare_plain, hacc⟩
  | false =>
    rw [finishSample_finalises hbusy]
    have hidle {p : Prop} (hb' : (s.regs.accumulate (signExtend24 d)).busy = true) : p :=
      absurd (hbusy.symm.trans hb') Bool.false_ne_true
    exact ⟨hle, hidle, hidle, hidle, fun _ => rfl, h.tare_plain, hacc⟩

end Regs.Consistent

/-- After the end of a sample step an acquisition that goes on waits armed (R160). -/
theorem finishSample_armed (s : State) (raw : Word) (h : (s.finishSample raw).regs.busy = true) :
    (s.finishSample raw).regs.armed = true := by
  cases hb : (s.regs.accumulate raw).busy with
  | true => rw [finishSample_rearms hb]; rfl
  | false =>
    rw [finishSample_finalises hb] at h
    exact absurd (hb.symm.trans h) Bool.false_ne_true

/-- The end of a sample step writes RESULT in a finalisation alone, which leaves the block idle (R161-R169). -/
theorem finishSample_result {s : State} {raw : Word} (h : (s.finishSample raw).regs.result ≠ s.regs.result) :
    (s.finishSample raw).regs.ready = true ∧ (s.finishSample raw).regs.busy = false ∧
      (s.finishSample raw).regs.pwr = false ∧ (s.finishSample raw).regs.armed = s.regs.armed := by
  cases hb : (s.regs.accumulate raw).busy with
  | true => rw [finishSample_rearms hb] at h; exact absurd rfl h
  | false => rw [finishSample_finalises hb]; exact ⟨rfl, hb, rfl, rfl⟩

/-- What the sequencer's work does to the registers: it detaches in the first cycle, ends the sample step in the last, and
leaves them in every other. -/
theorem sequencerWork_regs_cases (tm : Timing) (s : State) :
    (s.seq = .setup 0 ∧ (s.sequencerWork tm).regs = { s.regs with armed := false }) ∨
    (∃ c, s.seq = .fin c ∧ tm.tFIN ≤ c + 1 ∧
      (s.sequencerWork tm).regs = (s.finishSample (signExtend24 s.sr)).regs) ∨
    (s.seq ≠ .setup 0 ∧ (∀ c, s.seq = .fin c → c + 1 < tm.tFIN) ∧ (s.sequencerWork tm).regs = s.regs) := by
  cases hq : s.seq with
  | idle => exact .inr (.inr ⟨by simp, by simp, by rw [sequencerWork_idle hq]⟩)
  | setup c =>
    rw [sequencerWork_setup hq]
    by_cases hc : c = 0
    · subst hc
      exact .inl ⟨rfl, rfl⟩
    · exact .inr (.inr ⟨by simpa using hc, by simp, by rw [if_neg hc]⟩)
  | data i c => exact .inr (.inr ⟨by simp, by simp, by rw [sequencerWork_data hq]; split <;> rfl⟩)
  | gainp k c => exact .inr (.inr ⟨by simp, by simp, by rw [sequencerWork_gainp hq]⟩)
  | fin c =>
    rw [sequencerWork_fin hq]
    by_cases hc : c + 1 < tm.tFIN
    · exact .inr (.inr ⟨by simp, fun k hk => by injection hk with hk; omega, by rw [if_pos hc]⟩)
    · exact .inr (.inl ⟨c, rfl, by omega, by rw [if_neg hc]⟩)

/-! ## The invariant but for the clock line -/

/-- The clauses of the invariant that do not speak of the clock line. -/
structure State.InvOffLine (tm : Timing) (s : State) : Prop where
  stall_iff   : s.stall = (s.seq != .idle)
  in_range    : s.seq.InRange tm s.regs.gainCode.pulses
  sampling    : s.stall = true → s.regs.busy = true
  detached    : s.seq = .idle ∨ s.seq = .setup 0 ∨ s.regs.armed = false
  sync_stages : s.dsync.length = tm.sync
  faults_wf   : CanonicalFaults s.faults
  consistent  : FaultCode.startWhileBusy ∉ s.faults → s.regs.Consistent
  waits_armed : FaultCode.startWhileBusy ∉ s.faults → s.seq = .idle → s.regs.busy = true → s.regs.armed = true

namespace State.Inv
variable {tm : Timing} {s : State}

theorem offLine (h : s.Inv tm) : s.InvOffLine tm :=
  ⟨h.stall_iff, h.in_range, h.sampling, h.detached, h.sync_stages, h.faults_wf, h.consistent, h.waits_armed⟩

theorem ofOffLine (h : s.InvOffLine tm) (hline : s.ClockLineAgrees tm) (hle : s.pdHold ≤ tm.tPD) : s.Inv tm :=
  ⟨h.stall_iff, h.in_range, h.sampling, h.detached, h.sync_stages, hline, hle, h.faults_wf, h.consistent,
    h.waits_armed⟩

/-- The invariant does not speak of the environment's moves. -/
theorem withSchedule (h : s.Inv tm) (n : Nat) (sch : List Move) :
    State.Inv tm { s with freeIdx := n, sched := sch } :=
  ⟨h.stall_iff, h.in_range, h.sampling, h.detached, h.sync_stages, ⟨h.clock_line.level, h.clock_line.held⟩, h.hold_le,
    h.faults_wf, h.consistent, h.waits_armed⟩

/-- Outside a sample step the sequencer is idle (R50). -/
theorem seq_idle (h : s.Inv tm) (hs : s.stall = false) : s.seq = .idle := by
  have := h.stall_iff
  simpa [hs] using this

end State.Inv

/-! ## The host's part keeps it -/

/-- The start that computes a tare is a raw average without a sink (R198). -/
theorem startOperands_tare {i : Instr} {mode : Mode} {count : Count} {sink tare : Bool}
    (h : startOperands i = some (mode, count, sink, tare)) (ht : tare = true) : mode = .rawAverage ∧ sink = false := by
  subst ht
  cases i <;> simp [startOperands] at h
  obtain ⟨hmode, _, hsink⟩ := h
  exact ⟨hmode.symm, hsink⟩

namespace RegsEffect
variable {carried : Instr → Prop} {r : Regs} {u : State}

/-- The host's part keeps the clauses of R53 and R54, unless it is a start while busy (R244). -/
theorem consistent (h : RegsEffect carried r u) (hr : r.Consistent) (hf : .startWhileBusy ∉ u.faults) :
    u.regs.Consistent := by
  obtain ⟨hle, hpowered, hunread, hbegun, hoff, hplain, hacc⟩ := hr
  cases h with
  | unchanged regs | gainSelected _ _ regs | acknowledged _ regs | offsetWritten _ _ regs | scaleWritten _ _ regs =>
    rw [regs]
    exact ⟨hle, hpowered, hunread, hbegun, hoff, hplain, hacc⟩
  | resultRead _ regs =>
    rw [regs]
    exact ⟨hle, hpowered, fun _ => rfl, hbegun, hoff, hplain, hacc⟩
  | begun f _ fresh regs =>
    have hidle (hb : r.busy = true) : False := by rw [hbegun hb] at fresh; cases fresh
    rw [regs]
    exact ⟨hle, fun hb => (hidle hb).elim, hunread, fun _ => rfl, fun _ => rfl, hplain, hacc⟩
  | started i mode count sink tare _ operands ready _ nonzero regs =>
    rw [regs]
    refine ⟨le_refl _, fun _ => rfl, fun _ => rfl, fun _ => ready, fun hidle => ?_,
      startOperands_tare operands, ?_⟩
    · exact absurd ((Regs.busy_eq_false_iff _).1 hidle) nonzero
    · simp [Regs.Accounted, Regs.started]
  | startedBusy _ _ _ _ _ _ _ _ _ _ recorded => exact absurd recorded hf

/-- The host's part keeps an acquisition that waits armed, unless it is a start while busy (R53, R244). -/
theorem waits_armed (h : RegsEffect carried r u) (hr : r.busy = true → r.armed = true)
    (hf : .startWhileBusy ∉ u.faults) (hb : u.regs.busy = true) : u.regs.armed = true := by
  cases h with
  | unchanged regs | gainSelected _ _ regs | acknowledged _ regs | resultRead _ regs | offsetWritten _ _ regs
  | scaleWritten _ _ regs => rw [regs] at hb ⊢; exact hr hb
  | begun _ _ _ regs | started _ _ _ _ _ _ _ _ _ _ regs => exact congrArg Regs.armed regs
  | startedBusy _ _ _ _ _ _ _ _ _ _ recorded => exact absurd recorded hf

/-- The host's part makes the block busy by a start alone, whose count it then has to take (R44, R171). -/
theorem leaves_idle (h : RegsEffect carried r u) (hr : r.busy = false) (hb : u.regs.busy = true) :
    ∃ i mode sink tare, carried i ∧ startOperands i = some (mode, u.regs.remaining, sink, tare) := by
  have idle (he : u.regs.remaining = r.remaining) : False := by
    rw [Regs.busy_eq_false_iff] at hr
    exact (Regs.busy_iff _).1 hb (he.trans hr)
  cases h with
  | unchanged regs | begun _ _ _ regs | gainSelected _ _ regs | acknowledged _ regs | resultRead _ regs
  | offsetWritten _ _ regs | scaleWritten _ _ regs => exact (idle (congrArg Regs.remaining regs :)).elim
  | started i mode count sink tare op operands _ _ _ regs => exact ⟨i, mode, sink, tare, op, by rw [regs]; exact operands⟩
  | startedBusy _ _ _ _ _ _ _ _ busy => rw [hr] at busy; cases busy

end RegsEffect

/-- The host's part of a move keeps the clauses that do not speak of the clock line. -/
theorem HostEffect.invOffLine {tm : Timing} {carried : Instr → Prop} {s u : State} (h : HostEffect carried s u)
    (hs : s.InvOffLine tm) (hidden : HiddenUnchanged s u) (stalled : s.stall = true → u.regs = s.regs) :
    u.InvOffLine tm := by
  have hclean (hf : FaultCode.startWhileBusy ∉ u.faults) : FaultCode.startWhileBusy ∉ s.faults := by
    obtain he | ⟨c, he⟩ := h.faults
    · rwa [← he]
    · rw [he, mem_insertFault] at hf
      exact fun hmem => hf (.inr hmem)
  have hquiet : s.seq = .idle ∨ u.regs = s.regs := by
    cases hst : s.stall with
    | true => exact .inr (stalled hst)
    | false => exact .inl (by simpa [hst] using hs.stall_iff)
  constructor
  · rw [hidden.stall, hidden.seq]
    exact hs.stall_iff
  · rw [hidden.seq]
    obtain hq | hregs := hquiet
    · rw [hq]; trivial
    · rw [hregs]; exact hs.in_range
  · intro hst
    rw [hidden.stall] at hst
    rw [stalled hst]
    exact hs.sampling hst
  · rw [hidden.seq]
    obtain hq | hregs := hquiet
    · exact .inl hq
    · rw [hregs]; exact hs.detached
  · rw [hidden.dsync]
    exact hs.sync_stages
  · obtain he | ⟨c, he⟩ := h.faults <;> rw [he]
    · exact hs.faults_wf
    · exact insertFault_canonical c hs.faults_wf
  · exact fun hf => h.regsEffect.consistent (hs.consistent (hclean hf)) hf
  · intro hf hq
    rw [hidden.seq] at hq
    exact h.regsEffect.waits_armed (hs.waits_armed (hclean hf) hq) hf

/-- The clauses off the clock line depend on these elements alone. -/
theorem State.InvOffLine.congr {tm : Timing} {s t : State} (h : s.InvOffLine tm) (hr : t.regs = s.regs)
    (hq : t.seq = s.seq) (hst : t.stall = s.stall) (hd : t.dsync = s.dsync) (hf : t.faults = s.faults) :
    t.InvOffLine tm := by
  constructor <;> simp only [hr, hq, hst, hd, hf]
  · exact h.stall_iff
  · exact h.in_range
  · exact h.sampling
  · exact h.detached
  · exact h.sync_stages
  · exact h.faults_wf
  · exact h.consistent
  · exact h.waits_armed

/-! ## The cycle keeps it -/

/-- The sequencer's counters stay in their ranges (R46). -/
theorem Seq.advance_inRange {tm : Timing} (g : GainCode) {q : Seq} (h : q.InRange tm g.pulses) :
    (q.advance tm g.pulses).InRange tm g.pulses := by
  have hpulses : 0 < g.pulses := by cases g <;> decide
  have hpulse := pulse_pos tm
  have hfin := tFIN_pos tm
  cases q with
  | idle => trivial
  | setup c =>
    simp only [Seq.advance]
    split
    · next hc => exact hc
    · exact ⟨by decide, hpulse⟩
  | data i c =>
    obtain ⟨hi, _⟩ := h
    simp only [Seq.advance]
    split
    · next hc => exact ⟨hi, hc⟩
    · split
      · next hnext => exact ⟨hnext, hpulse⟩
      · exact ⟨hpulses, hpulse⟩
  | gainp k c =>
    obtain ⟨hk, _⟩ := h
    simp only [Seq.advance]
    split
    · next hc => exact ⟨hk, hc⟩
    · split
      · next hnext => exact ⟨hnext, hpulse⟩
      · exact hfin
  | fin c =>
    simp only [Seq.advance]
    split
    · next hc => exact hc
    · trivial

/-- So they do while a sample step waits. -/
theorem nextSeq_inRange {tm : Timing} {s : State} (h : s.seq.InRange tm s.regs.gainCode.pulses) :
    (s.nextSeq tm).InRange tm s.regs.gainCode.pulses := by
  unfold State.nextSeq
  split
  · exact h
  · exact Seq.advance_inRange _ h

/-- And so they do in a cycle, whether a sample step starts or not. -/
theorem clockEdge_inRange {tm : Timing} (d : Bool) {s u : State} (h : u.seq.InRange tm u.regs.gainCode.pulses) :
    (clockEdge tm d s u).seq.InRange tm (clockEdge tm d s u).regs.gainCode.pulses := by
  obtain ⟨hgain, _, _⟩ := (clockEdge_effect tm d s u).frame
  rw [hgain]
  obtain ⟨_, _, _, hq⟩ | hq := clockEdge_seq_cases tm d s u <;> rw [hq]
  · exact Nat.zero_le _
  · exact nextSeq_inRange h

/-- A sample step that runs after a cycle started in it, with a sample to take, or ran before it. -/
theorem busy_of_clockEdge_running {tm : Timing} (d : Bool) {s u : State} (h : u.InvOffLine tm)
    (hq : (clockEdge tm d s u).seq ≠ .idle) : u.regs.busy = true := by
  obtain ⟨_, _, hb, _⟩ | hnext := clockEdge_seq_cases tm d s u
  · exact hb
  · refine h.sampling ?_
    rw [h.stall_iff, bne_iff_ne]
    exact fun hu => hq (hnext.trans (nextSeq_idle hu))

/-- The block's cycle keeps the clauses that do not speak of the clock line: by what the sequencer's work does to the
registers. -/
theorem clockEdge_invOffLine {tm : Timing} (d : Bool) {s u : State} (h : u.InvOffLine tm) :
    (clockEdge tm d s u).InvOffLine tm := by
  obtain ⟨hfaults, _, _, _, _, hdsync⟩ := clockEdge_rest tm d s u
  have hregs := clockEdge_regs tm d s u
  have hstall := clockEdge_stall tm d s u
  have position := clockEdge_inRange d (s := s) h.in_range
  have running := busy_of_clockEdge_running d (s := s) h
  have ended := seq_of_clockEdge_idle tm d (s := s) (u := u)
  have stages : (clockEdge tm d s u).dsync.length = tm.sync := by
    rw [hdsync, shiftIntoSync_length]
    exact h.sync_stages
  have canonical : CanonicalFaults (clockEdge tm d s u).faults := by rw [hfaults]; exact h.faults_wf
  obtain ⟨hq, hwork⟩ | ⟨c, hq, hc, hwork⟩ | ⟨hq, hfin, hwork⟩ := sequencerWork_regs_cases tm u <;> rw [hwork] at hregs
  -- the first cycle detaches
  · have hne : (clockEdge tm d s u).seq ≠ .idle := by
      intro hidle
      obtain he | ⟨c, he, _⟩ := ended hidle <;> simp [hq] at he
    refine ⟨hstall, position, fun _ => ?_, .inr (.inr (by rw [hregs])), stages, canonical, fun hf => ?_,
      fun _ hidle => absurd hidle hne⟩
    · rw [hregs]
      exact running hne
    · rw [hfaults] at hf
      rw [hregs]
      exact (h.consistent hf).withArmed false
  -- the last cycle accumulates, and re-arms or finalises
  · have hidle := clockEdge_seq_of_last (s := s) tm d hq hc
    have hbusy : u.regs.busy = true := h.sampling (by rw [h.stall_iff, hq]; rfl)
    refine ⟨hstall, position, fun hst => ?_, .inl hidle, stages, canonical, fun hf => ?_, fun _ _ hb => ?_⟩
    · rw [hstall, hidle] at hst; cases hst
    · rw [hfaults] at hf
      rw [hregs]
      exact (h.consistent hf).finishSample hbusy u.sr
    · rw [hregs] at hb ⊢
      exact finishSample_armed _ _ hb
  -- any other cycle leaves the registers
  · refine ⟨hstall, position, fun hst => ?_, ?_, stages, canonical, fun hf => ?_, fun hf hidle => ?_⟩
    · rw [hregs]
      exact running (by simpa [hstall] using hst)
    · obtain hu | hu | hu := h.detached
      · exact (clockEdge_seq_of_idle tm d hu).imp_right .inl
      · exact absurd hu hq
      · exact .inr (.inr (by rw [hregs]; exact hu))
    · rw [hfaults] at hf
      rw [hregs]
      exact h.consistent hf
    · rw [hfaults] at hf
      rw [hregs]
      obtain hu | ⟨c, hu, hc⟩ := ended hidle
      · exact h.waits_armed hf hu
      · exact absurd (hfin c hu) (by omega)

/-! ## A ready edge and a reset keep the invariant -/

/-- A ready edge starts a sample step between sample steps, with a sample to take, or is lost (R154, R155). -/
theorem readyEdge_cases (tm : Timing) (s : State) (d : Raw) :
    (s.seq = .idle ∧ s.regs.busy = true ∧ s.readyEdge tm d = (s.sampleStep tm d).withResp .idle) ∨
      s.readyEdge tm d = s.withResp .idle := by
  unfold State.readyEdge
  split
  · next he =>
    simp only [State.sampleEnabled, Bool.and_eq_true, beq_iff_eq] at he
    obtain ⟨⟨hq, _⟩, hb⟩ := he
    exact .inl ⟨hq, hb, rfl⟩
  · exact .inr rfl

/-- The clock line after an atomic sample step: low, or risen for a power-down (log 6). -/
theorem sampleStep_line (tm : Timing) (s : State) (d : Raw) :
    (s.sampleStep tm d).pdSck = (!(s.sampleStep tm d).regs.pwr) ∧
      (s.sampleStep tm d).pdHold = if (s.sampleStep tm d).regs.pwr then tm.tPD else 0 := by
  have hframe := finishSample_frame (s.detach.transfer tm d) (signExtend24 d)
  have hlow : ((s.detach.transfer tm d).finishSample (signExtend24 d)).pdSck = false := congrArg State.pdSck hframe
  have hhold : ((s.detach.transfer tm d).finishSample (signExtend24 d)).pdHold = tm.tPD := congrArg State.pdHold hframe
  refine ⟨rfl, ?_⟩
  rw [State.sampleStep, State.settleClockLine_pdHold, State.settleClockLine_regs, hlow, hhold]
  cases ((s.detach.transfer tm d).finishSample (signExtend24 d)).regs.pwr <;> rfl

/-- The atomic sample step between sample steps keeps the invariant. -/
theorem State.Inv.sampleStep {tm : Timing} {s : State} (h : s.Inv tm) (hq : s.seq = .idle)
    (hb : s.regs.busy = true) (d : Raw) : (s.sampleStep tm d).Inv tm := by
  have hframe := sampleStep_frame tm s d
  have hseq : (s.sampleStep tm d).seq = s.seq := (congrArg State.seq hframe :)
  have hstall : (s.sampleStep tm d).stall = s.stall := (congrArg State.stall hframe :)
  have hdsync : (s.sampleStep tm d).dsync = s.dsync := (congrArg State.dsync hframe :)
  have hfaults : (s.sampleStep tm d).faults = s.faults := (congrArg State.faults hframe :)
  obtain ⟨hlevel, hhold⟩ := sampleStep_line tm s d
  rw [hq] at hseq
  have off : (s.sampleStep tm d).stall = false := by rw [hstall, h.stall_iff, hq]; rfl
  refine .ofOffLine ⟨by rw [off, hseq]; rfl, by rw [hseq]; trivial, fun hst => ?_, .inl hseq, ?_, ?_, fun hf => ?_,
    fun _ _ => finishSample_armed _ _⟩ ⟨?_, fun hne => ?_⟩ ?_
  · rw [off] at hst; cases hst
  · rw [hdsync]; exact h.sync_stages
  · rw [hfaults]; exact h.faults_wf
  · rw [hfaults] at hf
    exact Regs.Consistent.finishSample (s := s.detach.transfer tm d) ((h.consistent hf).withArmed false) hb d
  · rw [hseq]
    intro hpwr
    rw [hlevel, hpwr]; rfl
  · rw [hhold] at hne
    cases hpwr : (s.sampleStep tm d).regs.pwr with
    | true => rw [hpwr] at hne; exact absurd rfl hne
    | false => exact ⟨by rw [hlevel, hpwr]; rfl, .inl hseq⟩
  · rw [hhold]
    split <;> omega

/-- A ready edge keeps the invariant. -/
theorem State.Inv.readyEdge {tm : Timing} {s : State} (h : s.Inv tm) (d : Raw) : (s.readyEdge tm d).Inv tm := by
  have withResp {v : State} (hv : v.Inv tm) (b : BusResp) : (v.withResp b).Inv tm :=
    .ofOffLine (hv.offLine.congr rfl rfl rfl rfl rfl) ⟨hv.clock_line.level, hv.clock_line.held⟩ hv.hold_le
  obtain ⟨hq, hb, e⟩ | e := readyEdge_cases tm s d <;> rw [e]
  · exact withResp (h.sampleStep hq hb d) _
  · exact withResp h _

/-- The registers after reset meet the clauses of R53 and R54 (R271). -/
theorem Regs.reset_consistent : Regs.reset.Consistent := by
  refine ⟨by decide, by decide, by decide, by decide, by decide, by decide, ?_⟩
  simp [Regs.Accounted, Regs.reset]

/-- A reset cycle establishes the invariant; the recorded faults stay (R246). -/
theorem resetCycle_inv (tm : Timing) {s : State} (h : CanonicalFaults s.faults) : (s.resetCycle tm).Inv tm :=
  .ofOffLine ⟨rfl, trivial, fun hst => (by cases hst), .inl rfl, List.length_replicate, h,
    fun _ => Regs.reset_consistent, fun _ _ hb => (by cases hb)⟩ ⟨fun _ => rfl, fun _ => ⟨rfl, .inl rfl⟩⟩ (Nat.zero_le _)

/-- Settles O35: the reset state is one that a reset cycle leaves. -/
theorem invariantHoldsAtReset : Obligations.InvariantHoldsAtReset :=
  resetCycle_inv Config.timing (s := State.reset) List.Pairwise.nil

/-! ## Every move -/

/-- What a transaction does, as the host's part of a move. -/
theorem perform_hostEffect {tx : Txn} {s u : State} (h : perform tx s = .next u) :
    HostEffect (fun i => decode tx = .op i) s u ∧ HiddenUnchanged s u := by
  obtain ⟨i, v, hd, hi, hp, hidden⟩ | ⟨c, hd, hp⟩ := perform_cases tx s <;> rw [hp] at h <;> injection h with h <;>
    subst h
  · exact ⟨.op i hd ⟨_, _, hi⟩, hidden⟩
  · exact ⟨.refused c _ (decode_refuse_ne hd) ⟨_, _, rfl⟩, by constructor <;> rfl⟩

/-- What the host port does, as the host's part of a move; while a sample step runs, nothing to the registers (R70). -/
theorem hostPort_hostEffect {req : Option Txn} {s u : State} (h : hostPort req s = .next u) :
    HostEffect (fun i => ∃ tx, req = some tx ∧ decode tx = .op i) s u ∧ (s.stall = true → u.regs = s.regs) := by
  cases hst : s.stall with
  | true =>
    rw [hostPort_stalled hst] at h
    injection h with h
    exact ⟨.none ⟨_, _, h.symm⟩, fun _ => h ▸ rfl⟩
  | false =>
    refine ⟨?_, fun hne => by cases hne⟩
    cases req with
    | none => injection h with h; exact .none ⟨_, _, h.symm⟩
    | some tx =>
      rw [hostPort, hst] at h
      obtain ⟨he, _⟩ := perform_hostEffect h
      exact he.mono fun i hi => ⟨tx, rfl, hi⟩

/-- The four courses of a move. The transaction that finds STALL = 1 takes the course of a cycle too (R70): `before` is the
state `s` in which that cycle begins, with the schedule it leaves. -/
inductive MoveCourse (tm : Timing) (m : Move) (s t : State) : Prop where
  | reset (isReset : m.IsReset) (next : t = s.resetCycle tm)
  | transaction (u : State) (stall : s.stall = false) (host : HostEffect m.Carries s u) (hidden : HiddenUnchanged s u)
      (next : t = u.followPower tm s.regs.pwr)
  | readyEdge (d : Raw) (next : t = s.readyEdge tm d)
  | cycle (d : Bool) (before u : State) (same : ∃ n sch, before = { s with freeIdx := n, sched := sch })
      (host : HostEffect m.Carries before u) (hidden : HiddenUnchanged before u)
      (stalled : s.stall = true → u.regs = s.regs) (next : t = clockEdge tm d before u)

/-- Every move takes one of them. -/
theorem runMove_course {tm : Timing} {m : Move} {s t : State} (h : runMove tm m s = .next t) : MoveCourse tm m s t := by
  cases m with
  | host tx =>
    simp only [runMove] at h
    split at h
    · next hst =>
      obtain ⟨u, hu, hidden, hnext⟩ := clockCycle_run rfl h
      obtain ⟨host, stalled⟩ := hostPort_hostEffect hu
      refine .cycle _ _ u ⟨_, _, rfl⟩ (host.mono fun i => ?_) hidden stalled hnext
      rintro ⟨_, hreq, hd⟩
      injection hreq with hreq
      exact ⟨tx, hreq ▸ hd, .inl rfl⟩
    · next hst =>
      obtain ⟨u, hu⟩ : ∃ u, perform tx s = .next u := by
        obtain ⟨_, u, _, _, hp, _⟩ | ⟨_, _, hp⟩ := perform_cases tx s <;> exact ⟨_, hp⟩
      rw [hostStep, hu] at h
      injection h with h
      obtain ⟨host, hidden⟩ := perform_hostEffect hu
      exact .transaction u (Bool.eq_false_of_not_eq_true hst) (host.mono fun i hd => ⟨tx, hd, .inl rfl⟩) hidden h.symm
  | readyEdge d => injection h with h; exact .readyEdge d h.symm
  | clock p =>
    cases hr : p.rstN with
    | false =>
      rw [runMove, clockCycle, if_neg (by simp [hr])] at h
      injection h with h
      exact .reset ⟨p, rfl, hr⟩ h.symm
    | true =>
      obtain ⟨u, hu, hidden, hnext⟩ := clockCycle_run hr h
      obtain ⟨host, stalled⟩ := hostPort_hostEffect hu
      refine .cycle p.dout s u ⟨_, _, rfl⟩ (host.mono fun i => ?_) hidden stalled hnext
      rintro ⟨tx, hreq, hd⟩
      refine ⟨tx, hd, .inr ⟨p.dout, ?_⟩⟩
      rw [← hr, ← hreq]

/-- Every move keeps the invariant. -/
theorem MoveCourse.inv {tm : Timing} {m : Move} {s t : State} (h : MoveCourse tm m s t) (hs : s.Inv tm) : t.Inv tm := by
  cases h with
  | reset _ next => rw [next]; exact resetCycle_inv tm hs.faults_wf
  | transaction u stall host hidden next =>
    obtain ⟨hline, hle⟩ := followPower_clockLine hs.clock_line hs.hold_le hidden (hs.seq_idle stall)
    have hu := host.invOffLine hs.offLine hidden (by rw [stall]; simp)
    rw [next]
    exact .ofOffLine (hu.congr (by simp) (by simp) (by simp) (by simp) (by simp)) hline hle
  | readyEdge d next => rw [next]; exact hs.readyEdge d
  | cycle d before u same host hidden stalled next =>
    obtain ⟨n, sch, rfl⟩ := same
    have hb := hs.withSchedule n sch
    rw [next]
    exact .ofOffLine (clockEdge_invOffLine d (host.invOffLine hb.offLine hidden stalled))
      (clockEdge_clockLine d hb.clock_line hidden) (clockEdge_hold_le d hidden)

/-- A step takes one of the four courses, from its state with the move taken from the schedule. -/
theorem step_course {s t : State} (h : step s = .next t) :
    ∃ n sch, MoveCourse Config.timing s.takeMove.1 { s with freeIdx := n, sched := sch } t := by
  have hcourse := runMove_course h
  rw [takeMove_frame] at hcourse
  exact ⟨_, _, hcourse⟩

/-- Settles O36. -/
theorem stepKeepsTheInvariant : Obligations.StepKeepsTheInvariant := by
  intro s t hs h
  obtain ⟨n, sch, hcourse⟩ := step_course h
  exact hcourse.inv (hs.withSchedule n sch)

/-- Settles O34: outside a sample step the block's part of a move leaves the counts to the host's. -/
theorem onlyStartsLeaveIdle : Obligations.OnlyStartsLeaveIdle := by
  intro s t hs h hidle hbusy
  have hst : s.stall = false := by
    by_contra hne
    have := hs.sampling (Bool.eq_true_of_not_eq_false hne)
    rw [hidle] at this
    cases this
  obtain ⟨n, sch, hcourse⟩ := step_course h
  cases hcourse with
  | reset _ next => rw [next] at hbusy; cases hbusy
  | transaction u stall host hidden next =>
    rw [next, State.followPower_regs] at hbusy ⊢
    exact host.regsEffect.leaves_idle hidle hbusy
  | readyEdge d next =>
    obtain ⟨_, hb, _⟩ | e := readyEdge_cases Config.timing { s with freeIdx := n, sched := sch } d
    · exact absurd (hidle.symm.trans hb) Bool.false_ne_true
    · rw [next, e] at hbusy
      exact absurd (hidle.symm.trans hbusy) Bool.false_ne_true
  | cycle d before u same host hidden stalled next =>
    obtain ⟨n', sch', rfl⟩ := same
    have hregs : t.regs = u.regs := by
      rw [next, clockEdge_regs, sequencerWork_idle (hidden.seq.trans (hs.seq_idle hst))]
    rw [hregs] at hbusy ⊢
    exact host.regsEffect.leaves_idle hidle hbusy

/-- Settles O28: RESULT is written by the end of a sample step alone. -/
theorem resultChangesOnlyAtFinalisation : Obligations.ResultChangesOnlyAtFinalisation := by
  intro s t h hne
  obtain ⟨n, sch, hcourse⟩ := step_course h
  cases hcourse with
  | reset isReset => exact .inl isReset
  | transaction u stall host hidden next =>
    rw [next, State.followPower_regs] at hne
    exact absurd host.regsEffect.result hne
  | readyEdge d next =>
    obtain ⟨hq, hb, e⟩ | e := readyEdge_cases Config.timing { s with freeIdx := n, sched := sch } d <;> rw [e] at next
    · have hseq : t.seq = s.seq := by rw [next, sampleStep_frame]; rfl
      subst next
      obtain ⟨hready, hbusy, hpwr, harmed⟩ := finishSample_result hne
      exact .inr ⟨hready, hbusy, hpwr, hseq.trans hq, fun _ => harmed⟩
    · subst next
      exact absurd rfl hne
  | cycle d before u same host hidden stalled next =>
    obtain ⟨n', sch', rfl⟩ := same
    have hu : u.regs.result = s.regs.result := host.regsEffect.result
    have hregs : t.regs = (u.sequencerWork Config.timing).regs := by rw [next]; rfl
    rw [← hu] at hne
    obtain ⟨_, hwork⟩ | ⟨c, hq, hc, hwork⟩ | ⟨_, _, hwork⟩ := sequencerWork_regs_cases Config.timing u <;>
      rw [hregs, hwork] at hne
    · exact absurd rfl hne
    · obtain ⟨hready, hbusy, hpwr, harmed⟩ := finishSample_result hne
      have hseq : t.seq = .idle := by
        rw [next, clockEdge_seq_of_last _ _ hq hc]
      have hsq : s.seq = .fin c := hidden.seq.symm.trans hq
      refine .inr ?_
      rw [hregs, hwork]
      refine ⟨hready, hbusy, hpwr, hseq, fun hs => ?_⟩
      have hst : s.stall = true := by rw [hs.stall_iff, hsq]; rfl
      rw [harmed, stalled hst]
      simpa [hsq] using hs.detached
    · exact absurd rfl hne

end Sys2Proof.Machine
end

section
/-! PROOFS. Legal and illegal transactions (20_memory.md R64, 30_encoding.md R92-R99): the checks as conditions on the
descriptor `TD` and on the fields of a command word, and what the decoder answers to them. -/

namespace Sys2Proof.Machine

/-! ## The bus check -/

/-- A descriptor is its direction bit and its address (R92). -/
theorem td_eq_iff (t : Txn) (n : BitVec 6) : t.td = n ↔ t.we = n.getLsbD 5 ∧ t.addr = n.extractLsb' 0 5 := by
  constructor
  · rintro rfl
    refine ⟨?_, (extract_low _ _).symm⟩
    rw [Txn.td, BitVec.getLsbD_append]
    cases t.we <;> rfl
  · rintro ⟨hwe, haddr⟩
    refine BitVec.eq_of_getLsbD_eq fun i hi => ?_
    rw [Txn.td, hwe, haddr, BitVec.getLsbD_append]
    obtain h | rfl : i < 5 ∨ i = 5 := by omega
    · simp [h]
    · simp

/-- The address outside the register map, read and written (R62, R64). -/
theorem mapped_eq_false_iff (t : Txn) : t.mapped = false ↔ t.td = 0x1C ∨ t.td = 0x3C := by
  cases hw : t.we <;> simp [Txn.mapped, td_eq_iff, hw]

/-- The accesses in a direction that the register does not permit (R61, R64). -/
theorem directed_eq_false_iff (t : Txn) :
    t.directed = false ↔ t.td = 0x00 ∨ t.td = 0x24 ∨ t.td = 0x28 ∨ t.td = 0x34 ∨ t.td = 0x38 := by
  cases hw : t.we with
  | false => simp [Txn.directed, td_eq_iff, hw]
  | true => simp [Txn.directed, td_eq_iff, hw, or_iff_not_imp_left]

/-- A command is the write to CMD (R92). -/
theorem isCommand_iff (t : Txn) : t.isCommand = true ↔ t.td = 0x20 := by
  simp [Txn.isCommand, td_eq_iff]

/-- The aligned addresses (R61, R62). -/
theorem aligned_iff (t : Txn) : t.aligned = true ↔
    t.addr = 0x00 ∨ t.addr = 0x04 ∨ t.addr = 0x08 ∨ t.addr = 0x0C ∨ t.addr = 0x10 ∨ t.addr = 0x14 ∨ t.addr = 0x18 ∨
      t.addr = 0x1C := by
  rw [Txn.aligned]
  generalize t.addr = a
  revert a
  decide

/-- The bus check passes exactly what is aligned, mapped and in a permitted direction (R64). -/
theorem checkBus_eq_none_iff (t : Txn) :
    checkBus t = none ↔ t.aligned = true ∧ t.mapped = true ∧ t.directed = true := by
  unfold checkBus
  split_ifs with ha hm hd <;> simp_all

/-- A command passes the bus check. -/
theorem checkBus_command {t : Txn} (h : t.isCommand = true) : checkBus t = none := by
  obtain ⟨hwe, haddr⟩ : t.we = true ∧ t.addr = 0 := by simpa [Txn.isCommand] using h
  simp [checkBus_eq_none_iff, aligned_iff, Txn.mapped, Txn.directed, hwe, haddr]

/-- A misaligned transaction is refused as such (R64). -/
theorem decode_of_misaligned {t : Txn} (h : t.aligned = false) : decode t = .refuse .busMisaligned := by
  simp [decode, checkBus, h]

/-- An unmapped one is: its address is aligned. -/
theorem decode_of_unmapped {t : Txn} (h : t.mapped = false) : decode t = .refuse .busUnmapped := by
  have haddr : t.addr = 0x1C := by simpa [Txn.mapped] using h
  have ha : t.aligned = true := by simp [aligned_iff, haddr]
  simp [decode, checkBus, ha, h]

/-- One in a wrong direction is: its address is that of a register. -/
theorem decode_of_misdirected {t : Txn} (h : t.directed = false) : decode t = .refuse .busDirection := by
  obtain ⟨ha, hm⟩ : t.aligned = true ∧ t.mapped = true := by
    obtain e | e | e | e | e := (directed_eq_false_iff t).1 h <;> obtain ⟨_, haddr⟩ := (td_eq_iff t _).1 e <;>
      simp [aligned_iff, Txn.mapped, haddr]
  simp [decode, checkBus, ha, hm, h]

/-- A transaction that passes the bus check and is no command is a register operation (R98). -/
theorem decodeRegister_op {t : Txn} (h : checkBus t = none) (hc : t.isCommand = false) :
    ∃ i, decodeRegister t = .op i := by
  obtain ⟨ha, hm, hd⟩ := (checkBus_eq_none_iff t).1 h
  -- each aligned address, in either direction, is a register's or fails one of the checks
  cases hw : t.we <;> obtain e | e | e | e | e | e | e | e := (aligned_iff t).1 ha <;>
    simp_all [decodeRegister, Txn.mapped, Txn.directed, Txn.isCommand]

/-! ## The command decode -/

/-- A bit that no field of the word's sub-format takes is set (R93-R97). -/
def ReservedBitSet (w : Word) : Prop :=
  ((w.extractLsb' 28 4 = 1 ∨ w.extractLsb' 28 4 = 2) ∧ w.extractLsb' 16 12 ≠ 0) ∨
  ((w.extractLsb' 28 4 = 3 ∨ w.extractLsb' 28 4 = 4 ∨ w.extractLsb' 28 4 = 5) ∧ w.extractLsb' 9 19 ≠ 0) ∨
  (w.extractLsb' 28 4 = 6 ∧ w.extractLsb' 8 20 ≠ 0) ∨ (w.extractLsb' 28 4 = 7 ∧ w.extractLsb' 0 28 ≠ 0)

/-- The assigned opcodes are 1 to 7 (R93, R104). -/
theorem opAssigned_iff (w : Word) :
    opAssigned w = true ↔ ¬(w.extractLsb' 28 4 = 0 ∨ 8 ≤ (w.extractLsb' 28 4).toNat) := by
  simp [opAssigned, BitVec.ult]

/-- The check of the reserved bits, opcode by opcode. -/
theorem reservedZero_iff {w : Word} (h : opAssigned w = true) : reservedZero w = true ↔ ¬ReservedBitSet w := by
  have assigned : ∀ op : BitVec 4, ¬(op = 0 ∨ 8 ≤ op.toNat) →
      op = 1 ∨ op = 2 ∨ op = 3 ∨ op = 4 ∨ op = 5 ∨ op = 6 ∨ op = 7 := by decide
  obtain e | e | e | e | e | e | e := assigned _ ((opAssigned_iff w).1 h) <;> simp [reservedZero, ReservedBitSet, e]

/-- A legal command word (R93, R99). -/
theorem legalCommand_iff (w : Word) : opAssigned w = true ∧ reservedZero w = true ↔
    ¬(w.extractLsb' 28 4 = 0 ∨ 8 ≤ (w.extractLsb' 28 4).toNat ∨ ReservedBitSet w) := by
  rw [← or_assoc, not_or, ← opAssigned_iff]
  exact and_congr_right reservedZero_iff

/-- A legal command word is an operation (R93). -/
theorem decodeCommand_legal {w : Word} (h : opAssigned w = true ∧ reservedZero w = true) :
    ∃ i, decodeCommand w = .op i := by
  obtain ⟨ho, hr⟩ := h
  simp only [decodeCommand, ho, hr, Bool.not_true, Bool.or_self, Bool.false_eq_true, if_false]
  split_ifs <;> exact ⟨_, rfl⟩

/-- Any other is refused (R93). -/
theorem decodeCommand_illegal {w : Word} (h : ¬(opAssigned w = true ∧ reservedZero w = true)) :
    decodeCommand w = .refuse .illegalCommand :=
  if_pos (by simpa [or_iff_not_imp_left] using h)

/-! ## The decoder -/

/-- A command is decoded by its word (R92). -/
theorem decode_of_command {t : Txn} (h : t.isCommand = true) : decode t = decodeCommand t.wdata := by
  simp [decode, checkBus_command h, h]

/-- A legal transaction passes the bus check, and is a legal command word if it is a command (R99). -/
theorem wellFormed_iff (t : Txn) : t.WellFormed = true ↔
    checkBus t = none ∧ (t.isCommand = true → opAssigned t.wdata = true ∧ reservedZero t.wdata = true) := by
  rw [checkBus_eq_none_iff]
  cases hc : t.isCommand <;> simp [Txn.WellFormed, hc, and_assoc]

/-- Settles O9, by the check that refuses the transaction if one does. -/
theorem legalTransactionsAreTheOperations : Obligations.LegalTransactionsAreTheOperations := by
  intro t
  rw [wellFormed_iff]
  cases hc : t.isCommand with
  | true =>
    rw [decode_of_command hc, checkBus_command hc]
    by_cases h : opAssigned t.wdata = true ∧ reservedZero t.wdata = true
    · simpa [h] using decodeCommand_legal h
    · simp [h, decodeCommand_illegal h]
  | false =>
    cases hb : checkBus t with
    | some c => simp [decode, hb]
    | none => simpa [decode, hb, hc] using decodeRegister_op hb hc

/-- A transaction that the decoder refuses changes nothing but the fault and the bus outputs (R242). -/
theorem perform_refuse {t : Txn} {c : FaultCode} (h : decode t = .refuse c) (s : State) :
    perform t s = .next
      { s with faults := insertFault c s.faults, resp := ⟨true, true, if t.we then none else some 0⟩ } := by
  rw [perform, h]
  cases t.we <;> rfl

/-- Settles O8: each illegal encoding fails a check of its own, and what fails none is well formed. -/
theorem illegalEncodingsAreRefused : Obligations.IllegalEncodingsAreRefused := by
  intro t s op reserved misaligned unmapped direction illegal refusedAs
  have hmisaligned : t.aligned = false ↔ misaligned := by simp [Txn.aligned, misaligned]
  have hunmapped : t.mapped = false ↔ unmapped := mapped_eq_false_iff t
  have hdirection : t.directed = false ↔ direction := directed_eq_false_iff t
  have hcommand : opAssigned t.wdata = true ∧ reservedZero t.wdata = true ↔ ¬(op = 0 ∨ 8 ≤ op.toNat ∨ reserved) :=
    legalCommand_iff t.wdata
  refine ⟨fun h => perform_refuse (decode_of_misaligned (hmisaligned.2 h)) s,
    fun h => perform_refuse (decode_of_unmapped (hunmapped.2 h)) s,
    fun h => perform_refuse (decode_of_misdirected (hdirection.2 h)) s, fun ⟨hc, hw⟩ => perform_refuse ?_ s,
    fun ha hm hd hi => (legalTransactionsAreTheOperations t).1 ?_⟩
  · rw [decode_of_command ((isCommand_iff t).2 hc)]
    exact decodeCommand_illegal fun hlegal => hcommand.1 hlegal hw
  · rw [wellFormed_iff, checkBus_eq_none_iff, isCommand_iff, hcommand]
    rw [← hmisaligned, Bool.not_eq_false] at ha
    rw [← hunmapped, Bool.not_eq_false] at hm
    rw [← hdirection, Bool.not_eq_false] at hd
    exact ⟨⟨ha, hm, hd⟩, fun hc hw => hi ⟨hc, hw⟩⟩

end Sys2Proof.Machine
end

section
/-! PROOFS. The sample step cycle by cycle (20_memory.md R66, R70, 41_transport.md R121-R136, 42_controller.md R156, R289):
a transaction waits while it runs, its whole course has the effect of the atomic one, and its bits arrive most significant
first.

The idea: while STALL is 1 a cycle is `State.stalledCycle`, whatever the host requests. So the run of a sample step is
`State.stalledRun`: the wait for a hold (`stalledRun_holdWait`), then the positions that `Seq.advance` gives. -/

namespace Sys2Proof.Machine

/-! ## A waiting transaction -/

/-- A cycle with STALL = 1 is the block's own. -/
theorem clockCycle_eq_stalledCycle {tm : Timing} {p : Pins} {s : State} (hr : p.rstN = true) (hst : s.stall = true) :
    clockCycle tm p s = .next (s.stalledCycle tm p) := clockCycle_stalled hr hst

/-- What such a cycle leaves of the state, whatever the schedule of the environment's moves (log 1). -/
theorem stalledCycle_withSchedule (tm : Timing) (p : Pins) (s : State) (n : Nat) (sch : List Move) :
    let t := State.stalledCycle tm p s
    let u := State.stalledCycle tm p { s with freeIdx := n, sched := sch }
    t.regs = u.regs ∧ t.seq = u.seq ∧ t.stall = u.stall ∧ t.events = u.events := by
  obtain ⟨hregs, _, hevents⟩ := sequencerWork_congr tm (s := { s with freeIdx := n, sched := sch }.withResp .idle)
    (u := s.withResp .idle) rfl rfl rfl rfl rfl
  exact ⟨hregs, rfl, rfl, hevents⟩

/-- A host move that meets STALL = 1 is a cycle with a free data line, and stays the next move (R70, log 14). -/
theorem step_of_stalled_host {s : State} {t : Txn} {rest : List Move} (hs : s.sched = .host t :: rest)
    (hst : s.stall = true) :
    step s = .next (State.stalledCycle Config.timing ⟨true, Config.freeDout s.freeIdx, some t⟩
      { s with freeIdx := s.freeIdx + 1, sched := .host t :: rest }) := by
  have htake : s.takeMove = (.host t, { s with sched := rest }) := by rw [State.takeMove, hs]
  rw [step_eq, htake, runMove, if_pos hst]
  exact clockCycle_eq_stalledCycle rfl hst

/-- Settles O14: the cycle that passes is the block's own, whatever the host requests. -/
theorem stalledTransactionWaits : Obligations.StalledTransactionWaits := by
  intro s t rest hs hst
  obtain ⟨hfaults, hresp, hsched, _⟩ := clockEdge_rest Config.timing (Config.freeDout s.freeIdx)
    { s with freeIdx := s.freeIdx + 1, sched := .host t :: rest }
    ({ s with freeIdx := s.freeIdx + 1, sched := .host t :: rest }.withResp .idle)
  exact ⟨_, step_of_stalled_host hs hst, congrArg BusResp.ack hresp, hsched, hfaults, _, _,
    clockCycle_eq_stalledCycle rfl hst, stalledCycle_withSchedule Config.timing _ s _ _⟩

/-! ## The run of a sample step -/

/-- A run begins with its first cycle. -/
theorem runCycles_cons {tm : Timing} {p : Pins} {ps : List Pins} {s t : State} (h : clockCycle tm p s = .next t) :
    runCycles tm (p :: ps) s = runCycles tm ps t := by
  rw [runCycles, List.map_cons, runMoves, runMove, h]
  rfl

section
variable {tm : Timing}

/-- STALL is 1 exactly while the sequencer runs (R50), over every run. -/
theorem stalledRun_stall (ps : List Pins) {s : State} (h : s.stall = (s.seq != .idle)) :
    (s.stalledRun tm ps).stall = ((s.stalledRun tm ps).seq != .idle) := by
  induction ps generalizing s with
  | nil => exact h
  | cons p ps ih => exact ih (clockEdge_stall ..)

/-- A run before each of whose cycles STALL is 1 holds the host off throughout (R70). -/
theorem runCycles_eq_stalledRun {ps : List Pins} {s : State} (hr : ∀ p ∈ ps, p.rstN = true)
    (hst : ∀ k < ps.length, (s.stalledRun tm (ps.take k)).stall = true) :
    runCycles tm ps s = .next (s.stalledRun tm ps) := by
  induction ps generalizing s with
  | nil => rfl
  | cons p ps ih =>
    have h0 : s.stall = true := hst 0 (by simp)
    rw [runCycles_cons (clockCycle_eq_stalledCycle (hr p (by simp)) h0)]
    exact ih (fun q hq => hr q (by simp [hq])) fun k hk => hst (k + 1) (by simpa using hk)

end

/-- The last cycle of a run. -/
theorem stalledRun_concat (tm : Timing) (ps : List Pins) (p : Pins) (s : State) :
    s.stalledRun tm (ps ++ [p]) = (s.stalledRun tm ps).stalledCycle tm p := stalledRun_append tm ps [p] s

/-- A list in two parts of given lengths. -/
theorem exists_append_of_length {α : Type} {l : List α} {n k : Nat} (h : l.length = n + k) :
    ∃ l₁ l₂, l = l₁ ++ l₂ ∧ l₁.length = n ∧ l₂.length = k :=
  ⟨l.take n, l.drop n, (List.take_append_drop ..).symm, by rw [List.length_take]; omega, by rw [List.length_drop]; omega⟩

section
variable {tm : Timing} {s : State} (hq : s.seq = .setup 0)
include hq

/-- The position of a sample step `k` cycles after its wait for a hold (R289, log 10). -/
theorem stalledRun_seq_after_wait {ps : List Pins} {k : Nat} (hl : ps.length = s.holdWait tm + k)
    (hk : k ≤ tm.sampleCycles s.regs.gainCode) :
    (s.stalledRun tm ps).seq = (Seq.advance tm s.regs.gainCode.pulses)^[k] (.setup 0) := by
  obtain ⟨ws, qs, rfl, hw, rfl⟩ := exists_append_of_length hl
  obtain ⟨wq, wlow, wregs, _⟩ := stalledRun_holdWait tm ws s hq hw
  have hgain : (s.stalledRun tm ws).regs.gainCode = s.regs.gainCode := (congrArg Regs.gainCode wregs :)
  obtain ⟨hseq, _⟩ := stalledRun_seq tm s.regs.gainCode qs (s.stalledRun tm ws) hgain (fun _ _ => wlow)
    fun k hk => by rw [wq]; exact course_not_idle tm _ k (by omega)
  rw [stalledRun_append, hseq, wq]

/-- A sample step runs until its last cycle. -/
theorem stalledRun_running {ps : List Pins} (hl : ps.length < s.holdWait tm + tm.sampleCycles s.regs.gainCode) :
    (s.stalledRun tm ps).seq ≠ .idle := by
  obtain hlt | hge := Nat.lt_or_ge ps.length (s.holdWait tm)
  · -- it still waits for the hold
    cases hp : s.pdSck with
    | false => simp [State.holdWait, hp] at hlt
    | true =>
      rw [State.holdWait, hp, if_pos rfl] at hlt
      obtain ⟨hseq, _⟩ := stalledRun_waits tm ps s hq hp (by rw [← List.length_eq_zero_iff]; omega)
      rw [hseq]
      simp
  · obtain ⟨k, hk⟩ := Nat.exists_eq_add_of_le hge
    rw [stalledRun_seq_after_wait hq hk (by omega)]
    exact course_not_idle tm _ _ (by omega)

/-- So STALL is 1 before each of its cycles (R70). -/
theorem stalledRun_stalled (hst : s.stall = true) {ps : List Pins}
    (hl : ps.length < s.holdWait tm + tm.sampleCycles s.regs.gainCode) : (s.stalledRun tm ps).stall = true := by
  rw [stalledRun_stall ps (by rw [hst, hq]; rfl), bne_iff_ne]
  exact stalledRun_running hq hl

/-- The run of a sample step, or of its first cycles, whatever the host requests. -/
theorem runCycles_sampleStep (hst : s.stall = true) {ps : List Pins} (hr : ∀ p ∈ ps, p.rstN = true)
    (hl : ps.length ≤ s.holdWait tm + tm.sampleCycles s.regs.gainCode) :
    runCycles tm ps s = .next (s.stalledRun tm ps) :=
  runCycles_eq_stalledRun hr fun k hk => stalledRun_stalled hq hst (by rw [List.length_take]; omega)

end

/-! ## The last cycle -/

/-- The end of a sample step depends on the registers and the events alone. -/
theorem finishSample_congr {s u : State} (hr : u.regs = s.regs) (he : u.events = s.events) (raw : Word) :
    (u.finishSample raw).regs = (s.finishSample raw).regs ∧ (u.finishSample raw).events = (s.finishSample raw).events := by
  cases hb : (s.regs.accumulate raw).busy with
  | true =>
    rw [finishSample_rearms hb, finishSample_rearms (by rw [hr]; exact hb), hr]
    exact ⟨rfl, he⟩
  | false =>
    rw [finishSample_finalises hb, finishSample_finalises (by rw [hr]; exact hb), hr]
    refine ⟨rfl, ?_⟩
    rw [State.finalize_events, State.finalize_events, State.withRegs_events, State.withRegs_events, he]
    rfl

/-- The last cycle of a sample step ends it, and settles the clock line (R49, R156, log 7). -/
theorem stalledCycle_last {tm : Timing} (p : Pins) {s : State} {c : Nat} (hq : s.seq = .fin c) (hc : tm.tFIN ≤ c + 1)
    (hlow : s.pdSck = false) :
    let t := s.stalledCycle tm p
    t.regs = (s.finishSample (signExtend24 s.sr)).regs ∧ t.events = (s.finishSample (signExtend24 s.sr)).events ∧
      t.sr = s.sr ∧ t.faults = s.faults ∧ t.seq = .idle ∧ t.stall = false ∧ t.pdSck = !t.regs.pwr ∧
      t.pdHold = if t.regs.pwr then min (s.pdHold + 1) tm.tPD else 0 := by
  have hwork : (s.withResp .idle).sequencerWork tm = (s.withResp .idle).finishSample (signExtend24 s.sr) := by
    rw [sequencerWork_fin (s := s.withResp .idle) hq, if_neg (by omega)]
    rfl
  obtain ⟨hregs, hevents⟩ := finishSample_congr (s := s) (u := s.withResp .idle) rfl rfl (signExtend24 s.sr)
  have hseq : (s.stalledCycle tm p).seq = .idle := clockEdge_seq_of_last tm p.dout hq hc
  have hlevel : (s.stalledCycle tm p).pdSck = !(s.stalledCycle tm p).regs.pwr := by
    rw [(stalledCycle_line tm p s).1, hseq]
    simp [nextPdSck, State.lineHeld, hlow]
  refine ⟨?_, ?_, ?_, (clockEdge_rest ..).1, hseq, ?_, hlevel, ?_⟩
  · rw [State.stalledCycle, clockEdge_regs, hwork, hregs]
  · rw [State.stalledCycle, clockEdge_events, hwork, hevents]
  · rw [State.stalledCycle, clockEdge_sr, hwork, finishSample_frame]
    rfl
  · rw [State.stalledCycle, clockEdge_stall]
    exact congrArg (· != Seq.idle) hseq
  · rw [(stalledCycle_line tm p s).2, hseq, hlevel, hlow]
    cases (s.stalledCycle tm p).regs.pwr <;> rfl

/-- In the data bits of a sample step PD_SCK is high in the first `T_H` cycles of each pulse, and in the finish it is low
(R121, R136, log 7). -/
theorem stalledRun_pulseTrain {tm : Timing} {s : State} (hq : s.seq = .setup 0) (ps : List Pins) :
    let t := s.stalledRun tm ps
    (∀ i c, t.seq = .data i c → t.pdSck = decide (c < tm.tH)) ∧ ∀ c, t.seq = .fin c → t.pdSck = false := by
  induction ps using List.reverseRecOn with
  | nil => simp [State.stalledRun, hq]
  | append_singleton ps p _ =>
    rw [stalledRun_concat]
    refine ⟨fun i c h => ?_, fun c h => ?_⟩ <;> rw [(stalledCycle_line ..).1, h] <;> rfl

/-- The clock line agrees with the sequencer throughout a run, if it does before. -/
theorem stalledRun_clockLine {tm : Timing} (ps : List Pins) {s : State} (h : s.ClockLineAgrees tm) :
    (s.stalledRun tm ps).ClockLineAgrees tm := by
  induction ps generalizing s with
  | nil => exact h
  | cons p ps ih => exact ih (clockEdge_clockLine p.dout h (by constructor <;> rfl))

/-- The last position of a sample step. -/
theorem course_last (tm : Timing) (g : GainCode) :
    (Seq.advance tm g.pulses)^[tm.sampleCycles g - 1] (.setup 0) = .fin (tm.tFIN - 1) := by
  have hfin := tFIN_pos tm
  have hsum : tm.sampleCycles g - 1 = (tm.tFIN - 1) + (1 + tm.tSU + (24 + g.pulses) * tm.pulse) := by
    rw [sampleCycles_eq]
    omega
  rw [hsum, Function.iterate_add_apply, course_reaches_fin, course_fin tm g _ 0 (by omega), Nat.zero_add]

/-- Before its last cycle a sample step is detached and stands at the end of its finish, with PD_SCK low and the hold over;
nothing else has happened to the registers, the events and the faults (R157). -/
theorem stalledRun_before_last {tm : Timing} {s : State} (hq : s.seq = .setup 0) {ps : List Pins}
    (hl : ps.length + 1 = s.holdWait tm + tm.sampleCycles s.regs.gainCode) :
    let u := s.stalledRun tm ps
    u.regs = s.detach.regs ∧ u.events = s.events ∧ u.faults = s.faults ∧ u.seq = .fin (tm.tFIN - 1) ∧
      u.pdSck = false ∧ (s.ClockLineAgrees tm → u.pdHold = tm.tPD) := by
  have hcycles := sampleCycles_eq tm s.regs.gainCode
  have hfin := tFIN_pos tm
  have hlen : ps.length = s.holdWait tm + (tm.sampleCycles s.regs.gainCode - 1) := by omega
  have hseq : (s.stalledRun tm ps).seq = .fin (tm.tFIN - 1) := by
    rw [stalledRun_seq_after_wait hq hlen (Nat.sub_le ..), course_last]
  have hlow := (stalledRun_pulseTrain hq ps).2 _ hseq
  obtain ⟨ws, qs, rfl, hw, hqs⟩ := exists_append_of_length hlen
  obtain ⟨wq, wlow, wregs, _, wevents, wfaults, _⟩ := stalledRun_holdWait tm ws s hq hw
  obtain ⟨hregs, hevents, hfaults⟩ := stalledRun_regs tm s.regs.gainCode qs (s.stalledRun tm ws)
    (congrArg Regs.gainCode wregs :) wq (fun _ _ => wlow) (by omega) (by omega)
  refine ⟨?_, ?_, ?_, hseq, hlow, fun hagrees => ?_⟩
  · rw [stalledRun_append]; exact hregs.trans wregs
  · rw [stalledRun_append]; exact hevents.trans wevents
  · rw [stalledRun_append]; exact hfaults.trans wfaults
  · by_contra hheld
    obtain ⟨hhigh, _⟩ := (stalledRun_clockLine _ hagrees).held hheld
    rw [hlow] at hhigh
    cases hhigh

/-- From there the last cycle leaves what the atomic sample step leaves (R156). -/
theorem stalledCycle_last_eq_sampleStep {tm : Timing} (p : Pins) {s u : State} {c : Nat} (hq : u.seq = .fin c)
    (hc : tm.tFIN ≤ c + 1) (hlow : u.pdSck = false) (hr : u.regs = s.detach.regs) (he : u.events = s.events) :
    let t := u.stalledCycle tm p
    let a := s.sampleStep tm t.sr
    t.regs = a.regs ∧ t.events = a.events ∧ t.pdSck = a.pdSck ∧ (u.pdHold = tm.tPD → t.pdHold = a.pdHold) := by
  obtain ⟨hregs, hevents, hsr, _, _, _, hlevel, hhold⟩ := stalledCycle_last p hq hc hlow
  dsimp only
  rw [hsr]
  obtain ⟨aregs, aevents⟩ := finishSample_congr (s := s.detach.transfer tm u.sr) hr he (signExtend24 u.sr)
  obtain ⟨alevel, ahold⟩ := sampleStep_line tm s u.sr
  have eregs : (u.stalledCycle tm p).regs = (s.sampleStep tm u.sr).regs := hregs.trans aregs
  refine ⟨eregs, hevents.trans aevents, by rw [hlevel, alevel, eregs], fun hover => ?_⟩
  rw [hhold, ahold, eregs, hover, min_eq_right (Nat.le_succ _)]

/-- Settles O41. The hold is over in the finish, by the invariant's clause `held`. -/
theorem clockedSampleStepRefinesTheAtomicOne : Obligations.ClockedSampleStepRefinesTheAtomicOne := by
  intro tm ps s hq hst hl hr
  refine ⟨?_, fun k hk => ?_⟩
  · have hne : ps ≠ [] := by
      rw [← List.length_pos_iff, hl, sampleCycles_eq]
      omega
    obtain ⟨qs, p, rfl⟩ : ∃ qs p, ps = qs ++ [p] := ⟨_, _, (List.dropLast_append_getLast hne).symm⟩
    obtain ⟨uregs, uevents, ufaults, useq, ulow, uover⟩ := stalledRun_before_last (ps := qs) hq (by simpa using hl)
    have hrun := runCycles_sampleStep hq hst hr hl.le
    rw [stalledRun_concat] at hrun
    generalize s.stalledRun tm qs = u at *
    have hlast : tm.tFIN ≤ tm.tFIN - 1 + 1 := by omega
    obtain ⟨_, _, _, hfaults, hseq, hstall, _⟩ := stalledCycle_last p useq hlast ulow
    obtain ⟨hregs, hevents, hlevel, hhold⟩ := stalledCycle_last_eq_sampleStep p useq hlast ulow uregs uevents
    exact ⟨_, hrun, hregs, hevents, hlevel, fun h => hhold (uover h), hfaults.trans ufaults, hseq, hstall⟩
  · have hle : (ps.take k).length = k := by rw [List.length_take]; omega
    exact ⟨_, runCycles_sampleStep hq hst (fun p hp => hr p (List.mem_of_mem_take hp)) (by omega),
      stalledRun_stalled hq hst (by omega)⟩

/-! ## The bits of a conversion -/

/-- A pulse has a high part. -/
theorem tH_pos (tm : Timing) : 0 < tm.tH := by simp [Timing.tH]

/-- And a low one. -/
theorem tH_lt_pulse (tm : Timing) : tm.tH < tm.pulse := by simp [Timing.pulse, Timing.tL]

/-- The bit received last is bit 0 of `SR` (R66, R124). -/
theorem shiftIntoSr_zero (sr : Raw) (b : Bool) : (shiftIntoSr sr b).getLsbD 0 = b := by
  simp [shiftIntoSr]

/-- The bits received before it move up by one. -/
theorem shiftIntoSr_succ (sr : Raw) (b : Bool) {k : Nat} (h : k + 1 < 24) :
    (shiftIntoSr sr b).getLsbD (k + 1) = sr.getLsbD k := by
  simp [shiftIntoSr, h]

/-- The data bits that a sample step has shifted into `SR` before the cycle at this position (R121). -/
def Seq.bitsTaken (tm : Timing) : Seq → Nat
  | .setup _  => 0
  | .data i c => if c < tm.tH then i else i + 1
  | _         => 24

/-- `SR` after a cycle inside a sample step is what the sequencer's work leaves. -/
theorem stalledCycle_sr (tm : Timing) (p : Pins) (s : State) : (s.stalledCycle tm p).sr = (s.sequencerWork tm).sr := by
  obtain ⟨_, hsr, _⟩ := sequencerWork_congr tm (s := s) (u := s.withResp .idle) rfl rfl rfl rfl rfl
  exact hsr

/-- A cycle of data pulse `i`: the last high one shifts the data line into `SR` (R121). -/
theorem stalledCycle_data {tm : Timing} (p : Pins) {s : State} {i c : Nat} (hq : s.seq = .data i c) (hi : i < 24)
    (hc : c < tm.pulse) :
    let t := s.stalledCycle tm p
    t.seq.bitsTaken tm = (if c + 1 < tm.tH then i else i + 1) ∧
      t.sr = if c + 1 = tm.tH then shiftIntoSr s.sr s.dataLine else s.sr := by
  have hhigh := tH_pos tm
  have hlow := tH_lt_pulse tm
  constructor
  · rw [stalledCycle_nextSeq (by simp [hq]), nextSeq_advances (by simp [hq]), hq, Seq.advance]
    by_cases hin : c + 1 < tm.pulse
    · rw [if_pos hin]
      rfl
    · rw [if_neg hin, if_neg (show ¬c + 1 < tm.tH by omega)]
      split
      · exact if_pos hhigh
      · show 24 = i + 1
        omega
  · rw [stalledCycle_sr, sequencerWork_data hq]
    split <;> rfl

/-- A cycle of a sample step outside the data pulses takes no bit. -/
theorem stalledCycle_no_data {tm : Timing} (p : Pins) {s : State} (hne : s.seq ≠ .idle)
    (hq : ∀ i c, s.seq ≠ .data i c) :
    let t := s.stalledCycle tm p
    t.seq.bitsTaken tm = s.seq.bitsTaken tm ∧ t.sr = s.sr := by
  dsimp only
  rw [stalledCycle_sr, stalledCycle_nextSeq hne]
  cases hs : s.seq with
  | idle => exact absurd hs hne
  | data i c => exact absurd hs (hq i c)
  | setup c =>
    refine ⟨?_, by rw [sequencerWork_setup hs]; split <;> rfl⟩
    have hhigh := tH_pos tm
    simp only [State.nextSeq, State.waitsForHold, hs, Seq.advance]
    split_ifs <;> simp [Seq.bitsTaken, hhigh]
  | gainp k c =>
    refine ⟨?_, by rw [sequencerWork_gainp hs]⟩
    rw [nextSeq_advances (by simp [hs]), hs, Seq.advance]
    split_ifs <;> rfl
  | fin c =>
    refine ⟨?_, ?_⟩
    · rw [nextSeq_fin hs]
      split <;> rfl
    · rw [sequencerWork_fin hs, finishSample_frame]
      split <;> rfl

/-- A cycle of a sample step shifts in its next bit or leaves `SR`. -/
theorem stalledCycle_sr_cases (tm : Timing) (p : Pins) {s : State} (hne : s.seq ≠ .idle)
    (hrange : s.seq.InRange tm s.regs.gainCode.pulses) :
    let t := s.stalledCycle tm p
    (s.seq.bitsTaken tm < 24 ∧ t.seq.bitsTaken tm = s.seq.bitsTaken tm + 1 ∧ t.sr = shiftIntoSr s.sr s.dataLine) ∨
      (t.seq.bitsTaken tm = s.seq.bitsTaken tm ∧ t.sr = s.sr) := by
  by_cases hq : ∃ i c, s.seq = .data i c
  · obtain ⟨i, c, hq⟩ := hq
    rw [hq] at hrange ⊢
    obtain ⟨hi, hc⟩ := hrange
    obtain ⟨htaken, hsr⟩ := stalledCycle_data p hq hi hc
    by_cases hlast : c + 1 = tm.tH
    · have hbits : Seq.bitsTaken tm (.data i c) = i := if_pos (by omega)
      exact .inl ⟨by omega, by rw [htaken, if_neg (by omega), hbits], by rw [hsr, if_pos hlast]⟩
    · refine .inr ⟨?_, by rw [hsr, if_neg hlast]⟩
      rw [htaken, Seq.bitsTaken]
      split_ifs <;> omega
  · exact .inr (stalledCycle_no_data p hne fun i c h => hq ⟨i, c, h⟩)

/-- Bit `i` of those the sample step receives has been shifted in, and `SR` holds it as `b`. -/
structure State.HoldsBit (tm : Timing) (i : Nat) (b : Bool) (s : State) : Prop where
  taken : i < s.seq.bitsTaken tm
  value : s.sr.getLsbD (s.seq.bitsTaken tm - 1 - i) = b

/-- A bit shifted in stays to the end of the sample step. -/
theorem State.HoldsBit.stalledCycle {tm : Timing} {i : Nat} {b : Bool} {s : State} (h : s.HoldsBit tm i b) (p : Pins)
    (hne : s.seq ≠ .idle) (hrange : s.seq.InRange tm s.regs.gainCode.pulses) :
    (s.stalledCycle tm p).HoldsBit tm i b := by
  obtain ⟨htaken, hvalue⟩ := h
  obtain ⟨hlt, ht, hsr⟩ | ⟨ht, hsr⟩ := stalledCycle_sr_cases tm p hne hrange
  · refine ⟨by omega, ?_⟩
    rw [ht, hsr, show s.seq.bitsTaken tm + 1 - 1 - i = s.seq.bitsTaken tm - 1 - i + 1 by omega,
      shiftIntoSr_succ _ _ (by omega), hvalue]
  · exact ⟨by rw [ht]; exact htaken, by rw [ht, hsr, hvalue]⟩

/-- So it does over a run within the sample step. -/
theorem State.HoldsBit.stalledRun {tm : Timing} {i : Nat} {b : Bool} {ps : List Pins} {s : State}
    (h : s.HoldsBit tm i b) (hrange : s.seq.InRange tm s.regs.gainCode.pulses)
    (hne : ∀ k < ps.length, (s.stalledRun tm (ps.take k)).seq ≠ .idle) : (s.stalledRun tm ps).HoldsBit tm i b := by
  induction ps generalizing s with
  | nil => exact h
  | cons p ps ih =>
    exact ih (h.stalledCycle p (hne 0 (by simp)) hrange) (clockEdge_inRange p.dout hrange)
      fun k hk => hne (k + 1) (by simpa using hk)

/-- The last high cycle of data pulse `i` shifts in bit `i`, the data line's level. -/
theorem stalledCycle_holdsBit {tm : Timing} (p : Pins) {s : State} {i : Nat} (hq : s.seq = .data i (tm.tH - 1))
    (hi : i < 24) : (s.stalledCycle tm p).HoldsBit tm i s.dataLine := by
  have hhigh := tH_pos tm
  have hlow := tH_lt_pulse tm
  obtain ⟨htaken, hsr⟩ := stalledCycle_data (tm := tm) p hq hi (by omega)
  rw [if_neg (by omega)] at htaken
  rw [if_pos (by omega)] at hsr
  refine ⟨by omega, ?_⟩
  rw [htaken, hsr, show i + 1 - 1 - i = 0 by omega, shiftIntoSr_zero]

/-- The cycles of a sample step before the last high cycle of data pulse `i` (R289). -/
theorem course_samples (tm : Timing) (g : GainCode) {i : Nat} (hi : i < 24) :
    1 + tm.tSU + i * tm.pulse + (tm.tH - 1) < tm.sampleCycles g ∧
      (Seq.advance tm g.pulses)^[1 + tm.tSU + i * tm.pulse + (tm.tH - 1)] (.setup 0) = .data i (tm.tH - 1) := by
  have hlow := tH_lt_pulse tm
  have hmul : (i + 1) * tm.pulse ≤ (24 + g.pulses) * tm.pulse := Nat.mul_le_mul_right _ (by omega)
  rw [Nat.add_mul] at hmul
  refine ⟨by rw [sampleCycles_eq]; omega, ?_⟩
  rw [Nat.add_comm, Function.iterate_add_apply, course_reaches_data tm g i hi,
    course_data tm g i (tm.tH - 1) 0 (by omega), Nat.zero_add]

/-- The cycles of a sample step before the one that shifts in bit `i`, its wait for a hold among them (R289, log 10). -/
def State.cyclesToBit (tm : Timing) (s : State) (i : Nat) : Nat :=
  s.holdWait tm + (1 + tm.tSU + i * tm.pulse + (tm.tH - 1))

section
variable {tm : Timing} {s : State} {i : Nat} (hi : i < 24)
include hi

/-- Bit `i` is shifted in before the sample step ends. -/
theorem cyclesToBit_lt : s.cyclesToBit tm i < s.holdWait tm + tm.sampleCycles s.regs.gainCode :=
  Nat.add_lt_add_left (course_samples tm s.regs.gainCode hi).1 _

variable (hq : s.seq = .setup 0)
include hq

/-- After those cycles a sample step stands in the last high cycle of data pulse `i`. -/
theorem stalledRun_cyclesToBit {ps : List Pins} (hl : ps.length = s.cyclesToBit tm i) :
    (s.stalledRun tm ps).seq = .data i (tm.tH - 1) ∧ (s.stalledRun tm ps).pdSck = true := by
  obtain ⟨hlt, hcourse⟩ := course_samples tm s.regs.gainCode hi
  have hseq := (stalledRun_seq_after_wait hq hl hlt.le).trans hcourse
  have hhigh := tH_pos tm
  obtain ⟨hlevel, _⟩ := stalledRun_pulseTrain hq ps (tm := tm)
  exact ⟨hseq, by rw [hlevel _ _ hseq, decide_eq_true_iff]; omega⟩

/-- From the next cycle on to its end `SR` holds bit `i`, the level of the data line then. -/
theorem stalledRun_holdsBit {ps qs : List Pins} (p : Pins) (hps : ps.length = s.cyclesToBit tm i)
    (hl : (ps ++ p :: qs).length ≤ s.holdWait tm + tm.sampleCycles s.regs.gainCode) :
    (s.stalledRun tm (ps ++ p :: qs)).HoldsBit tm i (s.stalledRun tm ps).dataLine := by
  obtain ⟨hseq, _⟩ := stalledRun_cyclesToBit hi hq hps
  have hlow := tH_lt_pulse tm
  have hrange : (s.stalledRun tm ps).seq.InRange tm (s.stalledRun tm ps).regs.gainCode.pulses := by
    rw [hseq]
    exact ⟨hi, by omega⟩
  rw [stalledRun_append]
  refine (stalledCycle_holdsBit p hseq hi).stalledRun (clockEdge_inRange p.dout hrange) fun k hk => ?_
  change ((s.stalledRun tm ps).stalledRun tm (p :: qs.take k)).seq ≠ .idle
  rw [← stalledRun_append]
  refine stalledRun_running hq ?_
  simp only [List.length_append, List.length_cons, List.length_take] at hl ⊢
  omega

end

/-- Settles O42: bit `i` is shifted in there, and `SR` holds it to the end of the sample step. -/
theorem dataBitsArriveMostSignificantFirst : Obligations.DataBitsArriveMostSignificantFirst := by
  intro tm ps s t hq hst hl hr hrun i hi
  change ∃ u, runCycles tm (ps.take (s.cyclesToBit tm i)) s = .next u ∧ _
  have hlt := cyclesToBit_lt (tm := tm) (s := s) hi
  obtain rfl : s.stalledRun tm ps = t := by
    rw [runCycles_sampleStep hq hst hr hl.le] at hrun
    injection hrun
  have hend : (s.stalledRun tm ps).seq = .idle :=
    (stalledRun_seq_after_wait hq hl le_rfl).trans (course_ends tm s.regs.gainCode)
  obtain ⟨qs, rest, rfl, hqs, hrest⟩ := exists_append_of_length (l := ps) (n := s.cyclesToBit tm i)
    (k := ps.length - s.cyclesToBit tm i) (by omega)
  obtain ⟨p, rest, rfl⟩ := List.exists_cons_of_length_pos (l := rest) (by omega)
  rw [← hqs, List.take_left]
  obtain ⟨_, hhigh⟩ := stalledRun_cyclesToBit hi hq hqs
  obtain ⟨_, hbit⟩ := stalledRun_holdsBit hi hq p hqs hl.le
  rw [hend] at hbit
  exact ⟨_, runCycles_sampleStep hq hst (fun p hp => hr p (List.mem_append_left _ hp)) (by omega), hhigh, hbit⟩

end Sys2Proof.Machine
end

section
/-! PROOFS. The decoder, the encoder and the opcode table agree (30_encoding.md R92-R98, R101).

The idea: the decoder undoes the encoder (O5), some row of the table matches every legal transaction
(`exists_row_covers`), and what a row matches is an encoding of the row's mnemonic (`exists_encode_of_covers`). So the
operation that a row gives is the decoded one, which settles O6 and O7 alike. -/

namespace Sys2Proof

/-- The transaction with the write data 0 that the encoder gives a read (log 18). -/
def Txn.withoutReadData (t : Txn) : Txn := { t with wdata := if t.we then t.wdata else 0 }

namespace Machine

/-- Settles O4, word by word. -/
theorem specWordsDecode : Obligations.SpecWordsDecode := by
  unfold Obligations.SpecWordsDecode
  decide

/-! ## Command words and their masks -/

section
variable {a b c : Nat}

/-- A concatenation of three parts is given by its fields. -/
theorem append_append_eq_iff (x : BitVec a) (y : BitVec b) (z : BitVec c) (w : BitVec (a + b + c)) :
    x ++ y ++ z = w ↔ w.extractLsb' (c + b) a = x ∧ w.extractLsb' c b = y ∧ w.extractLsb' 0 c = z := by
  constructor
  · rintro rfl
    exact ⟨(extract_above _ z).trans (extract_high x y), (extract_above (n := 0) _ z).trans (extract_low x y),
      extract_low _ z⟩
  · rintro ⟨rfl, rfl, rfl⟩
    rw [BitVec.extractLsb'_append_extractLsb'_eq_extractLsb' rfl]
    exact BitVec.extractLsb'_append_extractLsb'

/-- A mask of the two upper parts compares those alone. -/
theorem and_highMask_eq_iff (x : BitVec a) (y : BitVec b) (w : BitVec (a + b + c)) :
    w &&& (BitVec.allOnes a ++ BitVec.allOnes b ++ 0#c) = x ++ y ++ 0#c ↔
      w.extractLsb' (c + b) a = x ∧ w.extractLsb' c b = y := by
  obtain ⟨hx, hy, hz⟩ := (append_append_eq_iff (BitVec.allOnes a) (BitVec.allOnes b) 0#c _).1 rfl
  rw [eq_comm, append_append_eq_iff, BitVec.extractLsb'_and, BitVec.extractLsb'_and, BitVec.extractLsb'_and, hx, hy, hz]
  simp

end

section
variable (op : BitVec 4) (w : Word)

/-- The rows of sub-format G compare the opcode and the reserved bits (R94, R98). -/
theorem and_maskG_eq_iff : w &&& 0xFFFF0000 = wordG op 0 ↔ w.extractLsb' 28 4 = op ∧ w.extractLsb' 16 12 = 0 :=
  and_highMask_eq_iff (c := 16) op (0 : BitVec 12) w

/-- The rows of sub-format S compare the opcode and the reserved bits (R95, R98). -/
theorem and_maskS_eq_iff : w &&& 0xFFFFFE00 = wordS op false 0 ↔ w.extractLsb' 28 4 = op ∧ w.extractLsb' 9 19 = 0 := by
  have hrow : wordS op false 0 = op ++ (0 : BitVec 19) ++ (0 : BitVec 9) := BitVec.append_assoc
  rw [hrow]
  exact and_highMask_eq_iff (c := 9) op (0 : BitVec 19) w

/-- The row of sub-format T compares the opcode and the reserved bits (R96, R98). -/
theorem and_maskT_eq_iff : w &&& 0xFFFFFF00 = wordT 0 ↔ w.extractLsb' 28 4 = 6 ∧ w.extractLsb' 8 20 = 0 :=
  and_highMask_eq_iff (c := 8) (6 : BitVec 4) (0 : BitVec 20) w

/-- The row of sub-format N compares the whole word (R97, R98). -/
theorem and_maskN_eq_iff : w &&& 0xFFFFFFFF = 0x70000000 ↔ w.extractLsb' 28 4 = 7 ∧ w.extractLsb' 0 28 = 0 :=
  and_highMask_eq_iff (c := 0) (7 : BitVec 4) (0 : BitVec 28) w

variable {op w}

/-- A word of sub-format G is the encoder's, with the factor it holds (R94, R101). -/
theorem wordG_of_fields (h : w.extractLsb' 28 4 = op ∧ w.extractLsb' 16 12 = 0) : wordG op (w.extractLsb' 0 16) = w :=
  (append_append_eq_iff (c := 16) op (0 : BitVec 12) _ w).2 ⟨h.1, h.2, rfl⟩

/-- A word of sub-format S is the encoder's, with its sink bit and its count (R95, R101). -/
theorem wordS_of_fields (h : w.extractLsb' 28 4 = op ∧ w.extractLsb' 9 19 = 0) :
    wordS op (w.getLsbD 8) (w.extractLsb' 0 8) = w := by
  have hsink : BitVec.ofBool (w.getLsbD 8) = w.extractLsb' 8 1 := by
    ext i hi
    obtain rfl : i = 0 := by omega
    simp
  refine (append_append_eq_iff (a := 23) (b := 1) (c := 8) (op ++ (0 : BitVec 19)) _ _ w).2 ⟨?_, hsink.symm, rfl⟩
  rw [← h.1, ← h.2]
  exact (BitVec.extractLsb'_append_extractLsb'_eq_extractLsb' (start₁ := 9) (len₁ := 19) rfl).symm

/-- A word of sub-format T is the encoder's, with its count (R96, R101). -/
theorem wordT_of_fields (h : w.extractLsb' 28 4 = 6 ∧ w.extractLsb' 8 20 = 0) : wordT (w.extractLsb' 0 8) = w :=
  (append_append_eq_iff (c := 8) (6 : BitVec 4) (0 : BitVec 20) _ w).2 ⟨h.1, h.2, rfl⟩

end

/-! ## The decoder undoes the encoder -/

/-- Settles O5, operation by operation: the fields of its word are its opcode and its operands. -/
theorem decodeEncodeRoundTrip : Obligations.DecodeEncodeRoundTrip := by
  intro i
  cases i with
  | beginSetup f | setGain f =>
    rw [encode, decode_command]
    simp only [decodeCommand, opAssigned, reservedZero, wordG_op, wordG_reserved, wordG_factor]
    rfl
  | startAverage s c | startValue s c | startUnits s c =>
    rw [encode, decode_command]
    simp only [decodeCommand, opAssigned, reservedZero, wordS_op, wordS_reserved, wordS_sink, wordS_count]
    rfl
  | tare c =>
    rw [encode, decode_command]
    simp only [decodeCommand, opAssigned, reservedZero, wordT_op, wordT_reserved, wordT_count]
    rfl
  | irqAck | rdStatus | rdResult | rdOffset | rdScale | rdAcc | rdCounts => rfl
  | wrOffset v | wrScale v =>
    simp [encode, Txn.ofTd, decode, checkBus, Txn.aligned, Txn.mapped, Txn.directed, Txn.isCommand, decodeRegister]

/-- The decoder ignores a read's write data (log 18). -/
theorem decode_withoutReadData (t : Txn) : decode t.withoutReadData = decode t := by
  obtain ⟨we, addr, wdata⟩ := t
  cases we <;> rfl

/-! ## What a row of the opcode table matches -/

section
variable {m : String} {t : Txn}

/-- A command row matches the command words that agree with its pattern under its mask (R92). -/
theorem covers_command_iff {p k : Word} :
    (⟨m, true, p, k⟩ : TableRow).covers t = true ↔ t.isCommand = true ∧ t.wdata &&& k = p := by
  simp [TableRow.covers]

/-- A register row matches its own descriptor alone (R92). -/
theorem covers_register_iff (n : BitVec 6) :
    (⟨m, false, n.setWidth 32, 0x3F⟩ : TableRow).covers t = true ↔ t.td = n := by
  have hmask : t.td.setWidth 32 &&& 0x3F = t.td.setWidth 32 := by
    have hones : (0x3F : Word) = (BitVec.allOnes 6).setWidth 32 := rfl
    rw [hones, ← BitVec.setWidth_and, BitVec.and_allOnes]
  simp only [TableRow.covers, Bool.false_eq_true, if_false, hmask, beq_iff_eq]
  exact ⟨fun h => by simpa using congrArg (BitVec.setWidth 6) h, congrArg _⟩

/-- A command that a row matches is the write of `w`, if the words of that row's pattern are `w`. -/
theorem command_of_covers {p k w : Word} (h : (⟨m, true, p, k⟩ : TableRow).covers t = true)
    (hw : t.wdata &&& k = p → w = t.wdata) : .command w = t.withoutReadData := by
  obtain ⟨hc, hp⟩ := covers_command_iff.1 h
  obtain ⟨hwe, haddr⟩ : t.we = true ∧ t.addr = 0 := by simpa [Txn.isCommand] using hc
  simp [Txn.command, Txn.withoutReadData, hw hp, hwe, haddr]

/-- A transaction matched by a register row is the one with the row's descriptor. -/
theorem ofTd_of_covers (n : BitVec 6) (h : (⟨m, false, n.setWidth 32, 0x3F⟩ : TableRow).covers t = true) :
    .ofTd n (if n.getLsbD 5 then t.wdata else 0) = t.withoutReadData := by
  obtain ⟨hwe, haddr⟩ := (td_eq_iff t n).1 ((covers_register_iff n).1 h)
  rw [Txn.withoutReadData, Txn.ofTd, ← hwe, ← haddr]

end

/-- What a row matches is an encoding of the row's mnemonic, row by row (R98). -/
theorem exists_encode_of_covers {r : TableRow} {t : Txn} (hr : r ∈ opcodeTable) (h : r.covers t = true) :
    ∃ i : Instr, i.mnemonic = r.mnemonic ∧ encode i = t.withoutReadData := by
  simp only [opcodeTable, List.mem_cons, List.not_mem_nil, or_false] at hr
  obtain rfl | rfl | rfl | rfl | rfl | rfl | rfl | rfl | rfl | rfl | rfl | rfl | rfl | rfl | rfl := hr
  · exact ⟨.beginSetup _, rfl, command_of_covers h fun hw => wordG_of_fields ((and_maskG_eq_iff 1 _).1 hw)⟩
  · exact ⟨.setGain _, rfl, command_of_covers h fun hw => wordG_of_fields ((and_maskG_eq_iff 2 _).1 hw)⟩
  · exact ⟨.startAverage _ _, rfl, command_of_covers h fun hw => wordS_of_fields ((and_maskS_eq_iff 3 _).1 hw)⟩
  · exact ⟨.startValue _ _, rfl, command_of_covers h fun hw => wordS_of_fields ((and_maskS_eq_iff 4 _).1 hw)⟩
  · exact ⟨.startUnits _ _, rfl, command_of_covers h fun hw => wordS_of_fields ((and_maskS_eq_iff 5 _).1 hw)⟩
  · exact ⟨.tare _, rfl, command_of_covers h fun hw => wordT_of_fields ((and_maskT_eq_iff _).1 hw)⟩
  · exact ⟨.irqAck, rfl, command_of_covers h fun hw => hw.symm.trans BitVec.and_allOnes⟩
  · exact ⟨.rdStatus, rfl, ofTd_of_covers 0x04 h⟩
  · exact ⟨.rdResult, rfl, ofTd_of_covers 0x08 h⟩
  · exact ⟨.rdOffset, rfl, ofTd_of_covers 0x0C h⟩
  · exact ⟨.wrOffset _, rfl, ofTd_of_covers 0x2C h⟩
  · exact ⟨.rdScale, rfl, ofTd_of_covers 0x10 h⟩
  · exact ⟨.wrScale _, rfl, ofTd_of_covers 0x30 h⟩
  · exact ⟨.rdAcc, rfl, ofTd_of_covers 0x14 h⟩
  · exact ⟨.rdCounts, rfl, ofTd_of_covers 0x18 h⟩

/-! ## Every legal transaction is matched by a row -/

/-- The assigned opcodes, one by one (R93). -/
theorem opcode_cases {w : Word} (h : opAssigned w = true) :
    w.extractLsb' 28 4 = 1 ∨ w.extractLsb' 28 4 = 2 ∨ w.extractLsb' 28 4 = 3 ∨ w.extractLsb' 28 4 = 4 ∨
      w.extractLsb' 28 4 = 5 ∨ w.extractLsb' 28 4 = 6 ∨ w.extractLsb' 28 4 = 7 := by
  rw [opAssigned_iff] at h
  generalize w.extractLsb' 28 4 = op at h
  revert op
  decide

/-- A legal command word agrees with the row of its opcode: the bits the row masks are its opcode and reserved bits. -/
theorem exists_row_of_legalCommand {w : Word} (ho : opAssigned w = true) (hr : reservedZero w = true) :
    ∃ r ∈ opcodeTable, r.command = true ∧ w &&& r.mask = r.pattern := by
  obtain e | e | e | e | e | e | e := opcode_cases ho <;> simp [reservedZero, e] at hr
  · exact ⟨⟨"BEGIN", true, 0x10000000, 0xFFFF0000⟩, by simp [opcodeTable], rfl, (and_maskG_eq_iff 1 w).2 ⟨e, hr⟩⟩
  · exact ⟨⟨"SET_GAIN", true, 0x20000000, 0xFFFF0000⟩, by simp [opcodeTable], rfl, (and_maskG_eq_iff 2 w).2 ⟨e, hr⟩⟩
  · exact ⟨⟨"START_AVERAGE", true, 0x30000000, 0xFFFFFE00⟩, by simp [opcodeTable], rfl, (and_maskS_eq_iff 3 w).2 ⟨e, hr⟩⟩
  · exact ⟨⟨"START_VALUE", true, 0x40000000, 0xFFFFFE00⟩, by simp [opcodeTable], rfl, (and_maskS_eq_iff 4 w).2 ⟨e, hr⟩⟩
  · exact ⟨⟨"START_UNITS", true, 0x50000000, 0xFFFFFE00⟩, by simp [opcodeTable], rfl, (and_maskS_eq_iff 5 w).2 ⟨e, hr⟩⟩
  · exact ⟨⟨"TARE", true, 0x60000000, 0xFFFFFF00⟩, by simp [opcodeTable], rfl, (and_maskT_eq_iff w).2 ⟨e, hr⟩⟩
  · exact ⟨⟨"IRQ_ACK", true, 0x70000000, 0xFFFFFFFF⟩, by simp [opcodeTable], rfl, (and_maskN_eq_iff w).2 ⟨e, hr⟩⟩

/-- Some row matches a legal transaction (R98, R99). -/
theorem exists_row_covers {t : Txn} (h : t.WellFormed = true) : ∃ r ∈ opcodeTable, r.covers t = true := by
  obtain ⟨hbus, hword⟩ := (wellFormed_iff t).1 h
  cases hc : t.isCommand with
  | true =>
    obtain ⟨ho, hr⟩ := hword hc
    obtain ⟨⟨m, c, p, k⟩, hmem, rfl, hw⟩ := exists_row_of_legalCommand ho hr
    exact ⟨_, hmem, covers_command_iff.2 ⟨hc, hw⟩⟩
  | false =>
    obtain ⟨ha, hm, hd⟩ := (checkBus_eq_none_iff t).1 hbus
    -- each aligned address, in either direction, is a row's or fails one of the checks
    cases hwe : t.we <;> obtain e | e | e | e | e | e | e | e := (aligned_iff t).1 ha <;>
      simp_all [opcodeTable, TableRow.covers, Txn.td, Txn.mapped, Txn.directed, Txn.isCommand]

/-! ## The decoder, the encoder and the table -/

/-- What a row matches decodes to an operation of the row's mnemonic, whose encoding it is. -/
theorem decode_of_covers {r : TableRow} {t : Txn} (hr : r ∈ opcodeTable) (h : r.covers t = true) :
    ∃ i, decode t = .op i ∧ i.mnemonic = r.mnemonic ∧ encode i = t.withoutReadData := by
  obtain ⟨i, hm, he⟩ := exists_encode_of_covers hr h
  refine ⟨i, ?_, hm, he⟩
  rw [← decode_withoutReadData, ← he]
  exact decodeEncodeRoundTrip i

/-- What decodes to an operation is matched by a row of its mnemonic, and is its encoding. -/
theorem covers_of_decode {t : Txn} {i : Instr} (h : decode t = .op i) :
    (∃ r ∈ opcodeTable, r.mnemonic = i.mnemonic ∧ r.covers t = true) ∧ encode i = t.withoutReadData := by
  obtain ⟨r, hr, hc⟩ := exists_row_covers ((legalTransactionsAreTheOperations t).2 ⟨i, h⟩)
  obtain ⟨j, hj, hm, he⟩ := decode_of_covers hr hc
  obtain rfl : i = j := by simpa [h] using hj
  exact ⟨⟨r, hr, hm.symm, hc⟩, he⟩

/-- Settles O6, by the row that matches the transaction. -/
theorem decodedTransactionIsTheEncoding : Obligations.DecodedTransactionIsTheEncoding :=
  fun _ _ h => (covers_of_decode h).2

/-- Settles O7: each side gives an operation and a row, of one mnemonic, that share the transaction's encoding. -/
theorem decodeFollowsOpcodeTable : Obligations.DecodeFollowsOpcodeTable := by
  intro t m
  constructor
  · rintro ⟨i, h, rfl⟩
    exact (covers_of_decode h).1
  · rintro ⟨r, hr, rfl, hc⟩
    obtain ⟨i, hi, hm, _⟩ := decode_of_covers hr hc
    exact ⟨i, hi, hm⟩

end Machine
end Sys2Proof
end

section
/-! PROOFS. The transport's bits and pulses (41_transport.md R122-R128, R136, 42_controller.md R169): the order in which
received bits stand, sign extension, and the number of pulses of a sample step.

The ideas: both shift registers of the transport are the library's `BitVec.shiftConcat`, so one induction over the bits
received says where each stands; and the pulses a sample step has begun are a function of its position
(`State.risesMade`), to which each cycle adds its own rise. -/

namespace Sys2Proof.Machine

/-! ## Received bits -/

/-- `SR` is a shift register. -/
theorem shiftIntoSr_eq : shiftIntoSr = BitVec.shiftConcat := rfl

/-- So is the byte register. -/
theorem shiftByte_eq (bits : List Bool) : shiftByte bits = bits.foldl BitVec.shiftConcat 0 := rfl

/-- Bit `k` of a shift register is the one received `k` before the last, or one that it held before them all. -/
theorem getLsbD_foldl_shiftConcat {w : Nat} (bits : List Bool) (v : BitVec w) {k : Nat} (hk : k < w) :
    (bits.foldl BitVec.shiftConcat v).getLsbD k =
      if k < bits.length then bits.reverse.getD k false else v.getLsbD (k - bits.length) := by
  induction bits using List.reverseRecOn generalizing k with
  | nil => simp
  | append_singleton bits b ih =>
    rw [List.foldl_concat, BitVec.getLsbD_shiftConcat, List.reverse_concat, List.length_append, List.length_singleton]
    cases k with
    | zero => simp [hk]
    | succ k => simp [hk, ih (Nat.lt_of_succ_lt hk)]

/-- Eight bits received in a row stand in `SR`, above those received after them, as the byte they make (R122, R124). -/
theorem extractLsb'_foldl_shiftIntoSr (before byte after : List Bool) (sr : Raw) (hb : byte.length = 8)
    (hw : after.length + 8 ≤ 24) :
    ((before ++ byte ++ after).foldl shiftIntoSr sr).extractLsb' after.length 8 = shiftByte byte := by
  apply BitVec.eq_of_getLsbD_eq
  intro k hk
  have hreceived : after.length + k < (before ++ byte ++ after).length := by simp; omega
  have habove : after.reverse.length ≤ after.length + k := by simp
  have hin : k < byte.reverse.length := by simpa [hb] using hk
  rw [shiftIntoSr_eq, shiftByte_eq, BitVec.getLsbD_extractLsb', decide_eq_true hk, Bool.true_and,
    getLsbD_foldl_shiftConcat _ _ (by omega), if_pos hreceived, getLsbD_foldl_shiftConcat _ _ hk, if_pos (by omega),
    List.reverse_append, List.reverse_append, List.getD_append_right _ _ _ _ habove, List.length_reverse,
    Nat.add_sub_cancel_left, List.getD_append _ _ _ _ hin]

/-- The first bit received into a byte is its bit 7 (R122). -/
theorem getLsbD_shiftByte {byte : List Bool} (hb : byte.length = 8) {j : Nat} (hj : j < 8) :
    (shiftByte byte).getLsbD (7 - j) = byte.getD j false := by
  rw [shiftByte_eq, getLsbD_foldl_shiftConcat _ _ (by omega), if_pos (by omega), List.getD_reverse _ (by omega),
    show byte.length - 1 - (7 - j) = j by omega]

/-- Settles O47: `SR` is given by its three bytes, and its first and last bit are bits of these. -/
theorem shiftedBitsAssembleTheBytes : Obligations.ShiftedBitsAssembleTheBytes := by
  intro x y z sr hx hy hz v
  have hhigh : v.extractLsb' 16 8 = shiftByte x := by
    have h := extractLsb'_foldl_shiftIntoSr [] x (y ++ z) sr hx (by simp [hy, hz])
    rwa [List.length_append, hy, hz, ← List.append_assoc] at h
  have hmid : v.extractLsb' 8 8 = shiftByte y := by
    have h := extractLsb'_foldl_shiftIntoSr x y z sr hy (by omega)
    rwa [hz] at h
  have hlow : v.extractLsb' 0 8 = shiftByte z := by
    have h := extractLsb'_foldl_shiftIntoSr (x ++ y) z [] sr hz (by decide)
    rwa [List.append_nil] at h
  have hbytes : shiftByte x ++ shiftByte y ++ shiftByte z = v := (append_append_eq_iff ..).2 ⟨hhigh, hmid, hlow⟩
  have hfirst : v.getLsbD 23 = (v.extractLsb' 16 8).getLsbD (7 - 0) := by simp
  have hlast : v.getLsbD 0 = (v.extractLsb' 0 8).getLsbD (7 - 7) := by simp
  refine ⟨hbytes.symm, hhigh, hmid, hlow, ?_, ?_, fun j hj => getLsbD_shiftByte hx hj⟩
  · rw [hfirst, hhigh, getLsbD_shiftByte hx (by decide)]
  · rw [hlast, hlow, getLsbD_shiftByte hz (by decide)]

/-- Settles O46: the value is the library's two's-complement one, and the fields are those of a concatenation. -/
theorem signExtensionValue : Obligations.SignExtensionValue := by
  intro v
  refine ⟨?_, ?_, ?_⟩
  · rw [signExtend24_eq, BitVec.toInt_signExtend_of_le (by decide), BitVec.toInt_eq_msb_cond,
      BitVec.msb_eq_getLsbD_last]
    rfl
  · rw [signExtend24]
    split <;> exact extract_low _ v
  · rw [signExtend24]
    split <;> exact extract_high _ v

/-! ## The pulses of a sample step -/

/-- PD_SCK is high in the first `T_H` cycles of each pulse, and low in the finish (R136, log 7). -/
structure State.OnPulseTrain (tm : Timing) (s : State) : Prop where
  pulse  : ∀ i c, s.seq = .data i c ∨ s.seq = .gainp i c → s.pdSck = decide (c < tm.tH)
  finish : ∀ c, s.seq = .fin c → s.pdSck = false

/-- The rises of PD_SCK that a sample step has made at its position, the one for a power-down at its end among them
(R128, R169). -/
def State.risesMade (s : State) : Nat :=
  match s.seq with
  | .setup _   => 0
  | .data i _  => i + 1
  | .gainp k _ => 24 + k + 1
  | .fin _     => 24 + s.regs.gainCode.pulses
  | .idle      => 24 + s.regs.gainCode.pulses + if s.pdSck then 1 else 0

/-- Within a pulse PD_SCK does not rise. -/
theorem no_rise_in_pulse (tm : Timing) (c : Nat) : (!decide (c < tm.tH) && decide (c + 1 < tm.tH)) = false := by
  simp only [Bool.and_eq_false_imp, Bool.not_eq_true', decide_eq_false_iff_not]
  omega

/-- In the last cycle of a pulse PD_SCK is low. -/
theorem low_at_pulse_end {tm : Timing} {c : Nat} (h : ¬c + 1 < tm.pulse) : decide (c < tm.tH) = false := by
  have hlow := tH_lt_pulse tm
  rw [decide_eq_false_iff_not]
  omega

section
variable (tm : Timing) (p : Pins) {s : State}

/-- After each of its cycles a sample step is on its pulse train. -/
theorem stalledCycle_onPulseTrain : (s.stalledCycle tm p).OnPulseTrain tm := by
  have hline := (stalledCycle_line tm p s).1
  refine ⟨fun i c hq => ?_, fun c hq => ?_⟩
  · obtain hq | hq := hq <;> rw [hline, hq] <;> rfl
  · rw [hline, hq]; rfl

/-- A cycle of a sample step makes the rise that its new position counts. -/
theorem stalledCycle_risesMade (hne : s.seq ≠ .idle) (hrange : s.seq.InRange tm s.regs.gainCode.pulses)
    (htrain : s.OnPulseTrain tm) :
    (if !s.pdSck && (s.stalledCycle tm p).pdSck then 1 else 0) + s.risesMade = (s.stalledCycle tm p).risesMade := by
  have hgain := stalledCycle_gainCode tm p s
  have hseq := stalledCycle_nextSeq (tm := tm) (p := p) hne
  obtain ⟨hline, _⟩ := stalledCycle_line tm p s
  have hhigh := tH_pos tm
  generalize s.stalledCycle tm p = t at *
  cases hq : s.seq with
  | idle => exact absurd hq hne
  | setup c =>
    cases hp : s.pdSck with
    | true =>
      rw [nextSeq_waits hq hp] at hseq
      simp [State.risesMade, hq, hseq]
    | false =>
      rw [nextSeq_advances (fun _ _ => hp), hq, Seq.advance] at hseq
      split_ifs at hseq <;> rw [hseq] at hline
      · simp [State.risesMade, hq, hseq, hline, nextPdSck, State.lineHeld, hp]
      · simp [State.risesMade, hq, hseq, hline, nextPdSck, hhigh]
  | data i c =>
    rw [hq] at hrange
    obtain ⟨hi, _⟩ := hrange
    have hp := htrain.pulse i c (.inl hq)
    rw [nextSeq_advances (by simp [hq]), hq, Seq.advance] at hseq
    split_ifs at hseq with hin hnext <;> rw [hseq] at hline
    · simp [State.risesMade, hq, hseq, hline, hp, nextPdSck, no_rise_in_pulse]
    · rw [low_at_pulse_end hin] at hp
      simp [State.risesMade, hq, hseq, hline, hp, nextPdSck, hhigh, Nat.add_comm]
    · rw [low_at_pulse_end hin] at hp
      obtain rfl : i = 23 := by omega
      simp [State.risesMade, hq, hseq, hline, hp, nextPdSck, hhigh]
  | gainp k c =>
    rw [hq] at hrange
    obtain ⟨hk, _⟩ := hrange
    have hp := htrain.pulse k c (.inr hq)
    rw [nextSeq_advances (by simp [hq]), hq, Seq.advance] at hseq
    split_ifs at hseq with hin hnext <;> rw [hseq] at hline
    · simp [State.risesMade, hq, hseq, hline, hp, nextPdSck, no_rise_in_pulse]
    · rw [low_at_pulse_end hin] at hp
      simp [State.risesMade, hq, hseq, hline, hp, nextPdSck, hhigh]
      omega
    · rw [low_at_pulse_end hin] at hp
      have hlast : s.regs.gainCode.pulses = k + 1 := by omega
      simp [State.risesMade, hq, hseq, hline, nextPdSck, hgain, hlast, Nat.add_assoc]
  | fin c =>
    have hp := htrain.finish c hq
    rw [nextSeq_fin hq] at hseq
    split_ifs at hseq <;> rw [hseq] at hline
    · simp [State.risesMade, hq, hseq, hline, nextPdSck, hp, hgain]
    · simp [State.risesMade, hq, hseq, hp, hgain, Nat.add_comm]

end

/-- The rises in a run of cycles begin with those of the first. -/
theorem pdSckRises_cons {tm : Timing} {p : Pins} {ps : List Pins} {s t : State} (h : clockCycle tm p s = .next t) :
    pdSckRises tm (p :: ps) s = (if !s.pdSck && t.pdSck then 1 else 0) + pdSckRises tm ps t := by
  rw [pdSckRises, h]

/-- So a run within a sample step makes the rises from its first position to its last. -/
theorem pdSckRises_of_running {tm : Timing} {ps : List Pins} {s : State} (hr : ∀ p ∈ ps, p.rstN = true)
    (hrun : ∀ k < ps.length, (s.stalledRun tm (ps.take k)).seq ≠ .idle) (hst : s.stall = (s.seq != .idle))
    (hrange : s.seq.InRange tm s.regs.gainCode.pulses) (htrain : s.OnPulseTrain tm) :
    pdSckRises tm ps s + s.risesMade = (s.stalledRun tm ps).risesMade := by
  induction ps generalizing s with
  | nil => exact Nat.zero_add _
  | cons p ps ih =>
    have hne : s.seq ≠ .idle := hrun 0 (by simp)
    have hcycle := stalledCycle_risesMade tm p hne hrange htrain
    have hrest := ih (fun q hq => hr q (by simp [hq])) (fun k hk => hrun (k + 1) (by simpa using hk))
      (clockEdge_stall ..) (clockEdge_inRange p.dout hrange) (stalledCycle_onPulseTrain tm p)
    rw [pdSckRises_cons (clockCycle_eq_stalledCycle (hr p (by simp)) (by rwa [hst, bne_iff_ne]))]
    change _ = ((s.stalledCycle tm p).stalledRun tm ps).risesMade
    omega

/-- The atomic sample step leaves the converter powered up unless it takes the last sample (R160, R169). -/
theorem sampleStep_pwr (tm : Timing) {s : State} (d : Raw) (hp : s.regs.pwr = true) :
    (s.sampleStep tm d).regs.pwr = decide (s.regs.remaining ≠ 1) := by
  by_cases hlast : s.regs.remaining = 1
  · rw [sampleStep_finalises (by simp [Regs.busy, Regs.accumulate, hlast])]
    simp [hlast, Regs.finalized]
  · have hbusy : (s.regs.accumulate (signExtend24 d)).busy = true :=
      (Regs.busy_iff _).2 fun h => hlast (sub_eq_zero.1 h)
    rw [sampleStep_rearms hbusy, decide_eq_true hlast]
    exact hp

/-- Settles O40: at its end the sample step has made its pulses, and PD_SCK is high exactly if the atomic sample step,
which it refines (O41), leaves the converter powered down. -/
theorem sampleStepPulseCount : Obligations.SampleStepPulseCount := by
  intro tm ps s hq hst _ hpwr hl hr
  obtain ⟨⟨t, hrun, hregs, _, hlevel, _, _, hend, _⟩, _⟩ :=
    clockedSampleStepRefinesTheAtomicOne tm ps s hq hst hl hr
  obtain rfl : s.stalledRun tm ps = t := by
    rw [runCycles_sampleStep hq hst hr hl.le] at hrun
    injection hrun
  have hrises := pdSckRises_of_running (tm := tm) hr
    (fun k hk => stalledRun_running hq (by rw [List.length_take]; omega)) (by rw [hst, hq]; rfl)
    (by rw [hq]; exact Nat.zero_le _) (by constructor <;> simp [hq])
  rw [(sampleStep_line ..).1, sampleStep_pwr _ _ hpwr] at hlevel
  obtain ⟨hgain, _, _⟩ := (sampleStep_effect tm s (s.stalledRun tm ps).sr).frame
  rw [← hregs] at hgain
  simp only [State.risesMade, hq, hend, hlevel, hgain, Nat.add_zero] at hrises
  rw [hrises]
  cases s.regs.gainCode <;> simp [GainCode.pulses]

end Sys2Proof.Machine
end

section
/-! PROOFS. The edge detector and the start of a sample step (10_state.md R47, 42_controller.md R151-R155, R173, R174,
60_exceptions.md R254): the synchroniser over a run of cycles, what qualifies an edge, and what a step does to an
acquisition in flight.

The idea: in a cycle that finds the sequencer idle the block's part has no work (`sequencerWork_idle`), so the registers
are those the host port leaves, and only the position tells whether the edge was qualified (`startsSample_iff`). -/

namespace Sys2Proof.Machine

/-! ## The synchroniser -/

/-- The synchroniser keeps the newest levels (R151). -/
theorem shiftIntoSync_eq_take (d : List Bool) (b : Bool) : shiftIntoSync d b = (b :: d).take d.length := by
  rw [shiftIntoSync, List.dropLast_eq_take, List.length_cons, Nat.add_sub_cancel]

/-- The synchronised level is that of the last flip-flop. -/
theorem getElem?_dataLine {s : State} (h : 0 < s.dsync.length) : s.dsync[s.dsync.length - 1]? = some s.dataLine := by
  have hne : s.dsync ≠ [] := List.length_pos_iff.1 h
  rw [← List.getLast?_eq_getElem?, State.dataLine, List.getLastD_eq_getLast?, List.getLast?_eq_some_getLast hne]
  rfl

/-- After a run of cycles out of reset the flip-flops hold the newest of its levels, the last first, then those they held
before it. -/
theorem runCycles_dsync {tm : Timing} {ps : List Pins} {s t : State} (hr : ∀ p ∈ ps, p.rstN = true)
    (h : runCycles tm ps s = .next t) :
    t.dsync = ((ps.map Pins.dout).reverse ++ s.dsync).take s.dsync.length := by
  induction ps generalizing s with
  | nil => injection h with h; rw [← h]; simp
  | cons p ps ih =>
    obtain ⟨u, hu⟩ := clockCycle_next tm p s
    obtain ⟨hd, _⟩ := clockCycle_detector (hr p (by simp)) hu
    rw [runCycles_cons hu] at h
    rw [ih (fun q hq => hr q (by simp [hq])) h, hd, shiftIntoSync_length, shiftIntoSync_eq_take]
    simp [List.take_append, List.take_take]

/-- Settles O37: after `SYNC` cycles the newest `SYNC` levels are those of the run. -/
theorem detectorRunsEveryCycle : Obligations.DetectorRunsEveryCycle := by
  refine ⟨fun tm p s t hr hlen h => ?_, fun tm p ps s t hlen hps hr h => ?_⟩
  · obtain ⟨hd, hprev⟩ := clockCycle_detector hr h
    have htwo : 2 ≤ tm.sync := Nat.le_add_left ..
    have stages : t.dsync.length = tm.sync := by rw [hd, shiftIntoSync_length, hlen]
    have shifts (k : Nat) (hk : k + 1 < tm.sync) : t.dsync[k + 1]? = s.dsync[k]? := by
      rw [hd, shiftIntoSync_eq_take, List.getElem?_take, hlen, if_pos hk, List.getElem?_cons_succ]
    refine ⟨stages, ?_, shifts, ?_, t.dataLine, ?_, rfl⟩
    · rw [hd, shiftIntoSync_eq_take, List.getElem?_take, if_pos (by omega), List.getElem?_cons_zero]
    · rw [hprev, ← hlen]
      exact getElem?_dataLine (by omega)
    · rw [← shifts (tm.sync - 2) (by omega), show tm.sync - 2 + 1 = t.dsync.length - 1 by omega]
      exact getElem?_dataLine (by omega)
  · have hd : t.dsync = ((p :: ps).map Pins.dout).reverse := by
      rw [runCycles_dsync hr h]
      exact List.take_left' (by rw [List.length_reverse, List.length_map, hps, hlen])
    refine ⟨hd, ?_⟩
    rw [State.dataLine, hd, List.map_cons, List.reverse_cons, List.getLastD_concat]

/-! ## A cycle between sample steps -/

/-- Between sample steps the block's part of a cycle leaves what the host port leaves. -/
theorem clockEdge_of_idle (tm : Timing) (d : Bool) {s u : State} (hq : u.seq = .idle) :
    (clockEdge tm d s u).regs = u.regs ∧ (clockEdge tm d s u).sr = u.sr ∧ (clockEdge tm d s u).events = u.events := by
  rw [clockEdge_regs, clockEdge_sr, clockEdge_events, sequencerWork_idle hq]
  exact ⟨rfl, rfl, rfl⟩

/-- What qualifies an edge between sample steps (R155, log 11). -/
theorem startsSample_iff {s u : State} (hs : s.seq = .idle) (hu : u.seq = .idle) :
    startsSample s u = true ↔ (s.fallingEdge = true ∧ s.regs.armed = true ∧ s.regs.remaining ≠ 0) ∧
      u.regs.armed = true ∧ u.regs.remaining ≠ 0 := by
  simp [startsSample, State.sampleEnabled, hs, hu, Regs.busy_iff, and_assoc]

/-- A sample step that starts stands in its first position. -/
theorem clockEdge_starts (tm : Timing) (d : Bool) {s u : State} (h : startsSample s u = true) :
    (clockEdge tm d s u).seq = .setup 0 ∧ (clockEdge tm d s u).stall = true := by
  rw [clockEdge_stall, clockEdge_seq, if_pos h]
  exact ⟨rfl, rfl⟩

/-- Where none starts the sequencer stays idle. -/
theorem clockEdge_stays_idle (tm : Timing) (d : Bool) {s u : State} (hq : u.seq = .idle)
    (h : ¬startsSample s u = true) : (clockEdge tm d s u).seq = .idle ∧ (clockEdge tm d s u).stall = false := by
  rw [clockEdge_stall, clockEdge_seq, if_neg h, nextSeq_idle hq]
  exact ⟨rfl, rfl⟩

/-- A cycle without a request. -/
theorem clockCycle_quiet (tm : Timing) (d : Bool) (s : State) :
    clockCycle tm ⟨true, d, none⟩ s = .next (clockEdge tm d s (s.withResp .idle)) :=
  clockCycle_eq rfl rfl

/-- Settles O38: without a transaction the host port leaves the registers, so the two qualifications of the edge (log 11)
are one. -/
theorem onlyAQualifiedEdgeStartsASampleStep : Obligations.OnlyAQualifiedEdgeStartsASampleStep := by
  intro tm d s t hq _ h
  rw [clockCycle_quiet] at h
  injection h with h
  subst h
  obtain ⟨hregs, hsr, hevents⟩ := clockEdge_of_idle tm d (s := s) (u := s.withResp .idle) hq
  have hstarts := startsSample_iff hq (u := s.withResp .idle) hq
  refine ⟨hregs, hsr, hevents, (clockEdge_rest ..).1, fun hedge => ?_, fun hedge => ?_⟩
  · exact clockEdge_starts tm d (hstarts.2 ⟨hedge, hedge.2⟩)
  · exact clockEdge_stays_idle tm d hq fun h => hedge (hstarts.1 h).1

/-- Settles O39: the host port leaves the sequencer idle. -/
theorem transactionGoesBeforeTheSampleStep : Obligations.TransactionGoesBeforeTheSampleStep := by
  intro tm d tx s u hq hst hedge harmed hleft hp harmed' hleft'
  obtain ⟨_, hidden⟩ := perform_hostEffect hp
  have hport : hostPort (some tx) s = .next u := by rw [hostPort, hst]; exact hp
  have huq : u.seq = .idle := hidden.seq.trans hq
  obtain ⟨hfaults, hresp, _⟩ := clockEdge_rest tm d s u
  have hstarts : startsSample s u = true := (startsSample_iff hq huq).2 ⟨⟨hedge, harmed, hleft⟩, harmed', hleft'⟩
  exact ⟨_, clockCycle_eq rfl hport, (clockEdge_of_idle tm d huq).1, hresp, hfaults, clockEdge_starts tm d hstarts⟩

/-! ## A silent converter -/

/-- With the data line high in every stage there is no edge (R152). -/
theorem fallingEdge_of_high {s : State} (h : ∀ b ∈ s.dsync, b = true) : s.fallingEdge = false := by
  have hline : s.dataLine = true := by
    rw [State.dataLine, List.getLastD_eq_getLast?]
    cases hlast : s.dsync.getLast? with
    | none => rfl
    | some b => exact h b (List.mem_of_getLast? hlast)
  rw [State.fallingEdge, hline, Bool.not_true, Bool.and_false]

/-- A request-free cycle with the data line high, after others that left it high in every stage. -/
theorem clockCycle_silent (tm : Timing) {s : State} (hq : s.seq = .idle) (hd : ∀ b ∈ s.dsync, b = true) :
    ∃ t, clockCycle tm ⟨true, true, none⟩ s = .next t ∧ t.regs = s.regs ∧ t.seq = .idle ∧ t.stall = false ∧
      t.events = s.events ∧ ∀ b ∈ t.dsync, b = true := by
  obtain ⟨hregs, _, hevents⟩ := clockEdge_of_idle tm true (s := s) (u := s.withResp .idle) hq
  obtain ⟨hseq, hstall⟩ := clockEdge_stays_idle tm true (s := s) (u := s.withResp .idle) hq
    (by simp [startsSample, fallingEdge_of_high hd])
  refine ⟨_, clockCycle_quiet tm true s, hregs, hseq, hstall, hevents, fun b hb => ?_⟩
  obtain ⟨hsync, _⟩ := clockCycle_detector rfl (clockCycle_quiet tm true s)
  rw [hsync, shiftIntoSync_eq_take] at hb
  obtain rfl | hb := List.mem_cons.1 (List.mem_of_mem_take hb)
  · rfl
  · exact hd b hb

/-- Settles O45, by induction on the number of cycles. -/
theorem silentConverterHangsTheAcquisition : Obligations.SilentConverterHangsTheAcquisition := by
  intro tm n s hq hst hd
  induction n generalizing s with
  | zero => exact ⟨s, rfl, rfl, hq, hst, rfl⟩
  | succ n ih =>
    obtain ⟨u, hu, uregs, useq, ustall, uevents, udsync⟩ := clockCycle_silent tm hq hd
    obtain ⟨t, ht, tregs, tseq, tstall, tevents⟩ := ih u useq ustall udsync
    exact ⟨t, by rw [List.replicate_succ, runCycles_cons hu, ht], tregs.trans uregs, tseq, tstall,
      tevents.trans uevents⟩

/-! ## An acquisition in flight -/

/-- R194, R244: while busy the host's part leaves REMAINING, or records the start that may have written it. -/
theorem RegsEffect.remaining_of_busy {carried : Instr → Prop} {r : Regs} {u : State} (h : RegsEffect carried r u)
    (hb : r.busy = true) : u.regs.remaining = r.remaining ∨ .startWhileBusy ∈ u.faults := by
  cases h with
  | started _ _ _ _ _ _ _ _ idle => rw [hb] at idle; cases idle
  | startedBusy _ _ _ _ _ _ _ _ _ _ recorded => exact .inr recorded
  | _ => exact .inl (by simp [*, Regs.acknowledgeIrq])

/-- R159: the controller counts down by one, at the end of a sample step. -/
theorem SampleEffect.remaining {s t : State} (h : SampleEffect s t) :
    t.regs.remaining = s.regs.remaining ∨ t.regs.remaining = s.regs.remaining - 1 := by
  cases h with
  | none regs | detached _ regs => exact .inl (by rw [regs])
  | rearmed _ _ regs | finalised _ _ _ _ regs => exact .inr (by rw [regs]; rfl)

/-- Settles O33: while busy only a start that is recorded, the controller's count and a reset write REMAINING. -/
theorem noStepAbortsAnAcquisition : Obligations.NoStepAbortsAnAcquisition := by
  intro s t h hb
  have hm : s.takeMove.2.regs = s.regs := by rw [takeMove_frame]
  obtain ⟨hreset, _⟩ | ⟨u, hu, ht, hfaults⟩ := runMove_effect h
  · exact .inl hreset
  obtain hhost | hrecorded := hu.regsEffect.remaining_of_busy (by rw [hm]; exact hb)
  · rw [hm] at hhost
    obtain hkept | htaken := ht.remaining
    · exact .inr (.inr (.inl (hkept.trans hhost)))
    · have hne := (Regs.busy_iff _).1 hb
      have hpos : s.regs.remaining.toNat ≠ 0 := BitVec.toNat_ne.1 hne
      rw [htaken, hhost, remaining_sub_one hne]
      exact .inr (.inr (.inr (by omega)))
  · exact .inr (.inl (by rw [hfaults]; exact hrecorded))

end Sys2Proof.Machine
end

section
/-! PROOFS. The result of a finalisation (42_controller.md R163-R165, 00_scope.md R10, R16): the range of the average, and
how exactly binary32 represents it.

The idea: the exponent that `roundRatio` chooses for an integer of at most 25 bits divides it in units of 2^-149, so the
rounding leaves it alone. -/

namespace Sys2Proof.Machine

/-! ## Integers that binary32 represents exactly -/

/-- A multiple of the divisor needs no rounding. -/
theorem divNearestEven_mul {d : Nat} (hd : 0 < d) (k : Nat) : divNearestEven (d * k) d = k := by
  rw [divNearestEven_eq, Nat.mul_mod_right, Nat.mul_div_cancel_left k hd, if_neg (by omega)]

/-- Up to 2^24 the exponent that normalises an integer divides it, in units. -/
theorem Normalises.dvd {n x : Nat} (h : Normalises (n * 2 ^ 149) 1 x) (hn : n ≤ 2 ^ 24) : 2 ^ x ∣ n * 2 ^ 149 := by
  obtain hle | hlt := le_or_gt x 149
  · exact Dvd.dvd.mul_left (Nat.pow_dvd_pow 2 hle) n
  · -- only 2^24 itself has an exponent beyond that of the unit
    have hlower := h.lower.resolve_left (by omega)
    have hx : x = 150 := by
      by_contra hne
      have : 2 ^ 151 ≤ 2 ^ x := Nat.pow_le_pow_right (by decide) (by omega)
      omega
    subst hx
    obtain rfl : n = 2 ^ 24 := by omega
    exact ⟨2 ^ 23, by decide⟩

/-- `i2f` is exact up to 2^24 (R164). -/
theorem f32Mag_i2f {z : Int} (hz : z.natAbs ≤ 2 ^ 24) : f32Mag (i2f z) = z.natAbs * 2 ^ 149 := by
  obtain ⟨x, hx, he⟩ := roundRatio_cases z.natAbs Nat.one_pos
  have hlt : z.natAbs * 2 ^ 149 < (2 ^ 25 - 1) * 2 ^ 252 * 1 := by omega
  obtain ⟨k, hk⟩ := hx.dvd hz
  rw [i2f, he, Nat.min_eq_left (hx.sum_lt Nat.one_pos hlt).le, hx.f32Mag_sum _ Nat.one_pos hlt, Nat.one_mul, hk,
    divNearestEven_mul (Nat.two_pow_pos x), Nat.mul_comm]

/-- So is its sign, and with it the value. -/
theorem f32Scaled_i2f {z : Int} (hz : z.natAbs ≤ 2 ^ 24) : f32Scaled (i2f z) = z * 2 ^ 149 := by
  rw [f32Scaled, f32Neg_i2f, f32Mag_i2f hz]
  by_cases hneg : z < 0
  · rw [if_pos (decide_eq_true hneg)]
    omega
  · rw [if_neg (by simpa using hneg)]
    omega

/-! ## The average -/

/-- The average of at least one sample is the truncated quotient (R163). -/
theorem Regs.average_eq {r : Regs} (h : r.requested ≠ 0) : r.average = r.acc.toInt.tdiv r.requested.toNat := by
  rw [Regs.average, if_neg (by simpa using h)]

/-- The average of readings is within their range (R10). -/
theorem Regs.Accounted.average_bounds {r : Regs} (h : r.Accounted) (hreq : r.requested ≠ 0) (hrem : r.remaining = 0) :
    -2 ^ 23 ≤ r.acc.toInt.tdiv r.requested.toNat ∧ r.acc.toInt.tdiv r.requested.toNat ≤ 2 ^ 23 - 1 := by
  have hcount : r.requested.toNat ≠ 0 := BitVec.toNat_ne.1 hreq
  have hpos : (0 : Int) < r.requested.toNat := by omega
  have hrem : ((r.requested.toNat : Int) - r.remaining.toNat) = r.requested.toNat := by simp [hrem]
  obtain ⟨hlow, hhigh⟩ := h
  rw [hrem] at hlow hhigh
  constructor
  · calc -2 ^ 23 = (-2 ^ 23 * (r.requested.toNat : Int)).tdiv r.requested.toNat := (Int.mul_tdiv_cancel _ hpos.ne').symm
      _ ≤ r.acc.toInt.tdiv r.requested.toNat := Int.tdiv_le_tdiv hpos (by rwa [Int.neg_mul])
  · calc r.acc.toInt.tdiv r.requested.toNat
        ≤ ((2 ^ 23 - 1) * (r.requested.toNat : Int)).tdiv r.requested.toNat := Int.tdiv_le_tdiv hpos hhigh
      _ = 2 ^ 23 - 1 := Int.mul_tdiv_cancel _ hpos.ne'

/-- Settles O51: an average of that range is an integer that `i2f` represents exactly. -/
theorem rawAverageIsExact : Obligations.RawAverageIsExact := by
  intro r hmode hreq hrem hacc avg
  obtain ⟨hlow, hhigh⟩ : -2 ^ 23 ≤ avg ∧ avg ≤ 2 ^ 23 - 1 := hacc.average_bounds hreq hrem
  have hresult : r.finalResult = i2f avg := by rw [Regs.finalResult, hmode, Regs.average_eq hreq]
  rw [hresult]
  refine ⟨by omega, hlow, (roundsTo_i2f (by omega)).finite, f32Scaled_i2f (by omega), fun hzero => ?_⟩
  rw [hzero, i2f_zero]

/-- Settles O52: the difference is within the range for which `i2f` rounds to nearest (O53). -/
theorem offsetValueIsTheRoundedDifference : Obligations.OffsetValueIsTheRoundedDifference := by
  intro r hmode hreq hrem hacc diff
  have hresult : r.finalResult = i2f diff := by rw [Regs.finalResult, hmode, Regs.average_eq hreq]
  obtain ⟨hlow, hhigh⟩ := hacc.average_bounds hreq hrem
  have olow := BitVec.le_toInt r.offset
  have ohigh := BitVec.toInt_lt (x := r.offset)
  have dlow : -(2 ^ 31) - 2 ^ 23 + 1 ≤ diff := by omega
  have dhigh : diff ≤ 2 ^ 31 + 2 ^ 23 - 1 := by omega
  obtain ⟨hfinite, hnearest⟩ := integerConversionRoundsToNearestEven diff (by omega)
  rw [hresult]
  exact ⟨rfl, dlow, dhigh, hfinite, f32Scaled_i2f, hnearest⟩

end Sys2Proof.Machine
end

section
/-! PROOFS. The sample step as one atomic step, and an acquisition from its start to its end (42_controller.md R154-R170,
00_scope.md R10).

The idea: after `k` ready edges the registers are those of the start with ACC the sum of the `k` readings and REMAINING
less by `k` (`Regs.afterReadings`). Each ready edge extends the list of readings by one (O49), and the last finalises
(O50). -/

namespace Sys2Proof.Machine

/-! ## One ready edge -/

/-- What qualifies a ready edge (R155). -/
theorem sampleEnabled_iff (s : State) :
    s.sampleEnabled = true ↔ s.seq = .idle ∧ s.regs.armed = true ∧ s.regs.remaining ≠ 0 := by
  simp [State.sampleEnabled, Regs.busy_iff, and_assoc]

/-- A qualified ready edge is a sample step. -/
theorem readyEdge_qualified (tm : Timing) (d : Raw) {s : State} (hq : s.seq = .idle) (harmed : s.regs.armed = true)
    (hleft : s.regs.remaining ≠ 0) : s.readyEdge tm d = (s.sampleStep tm d).withResp .idle := by
  rw [State.readyEdge, if_pos ((sampleEnabled_iff s).2 ⟨hq, harmed, hleft⟩)]

/-- Settles O48: each of the three conditions keeps a sample step from starting. -/
theorem unqualifiedEdgeIsLost : Obligations.UnqualifiedEdgeIsLost := by
  intro tm d s h
  have hlost : ¬s.sampleEnabled = true := by
    rw [sampleEnabled_iff]
    rintro ⟨hq, harmed, hleft⟩
    obtain h | h | h := h
    · rw [harmed] at h; cases h
    · exact hleft h
    · exact h hq
  rw [runMove, State.readyEdge, if_neg hlost]
  rfl

/-- PD_SCK stays as the transfer leaves it while the converter is powered up (R49). -/
theorem settleClockLine_powered {s : State} (h : s.regs.pwr = true) : s.settleClockLine = { s with pdSck := false } := by
  simp [State.settleClockLine, h]

/-- Settles O49: at least two samples were left, so the step re-arms. -/
theorem sampleStepAccumulatesAndRearms : Obligations.SampleStepAccumulatesAndRearms := by
  intro tm d s hq harmed hpwr hleft
  have hne : s.regs.remaining ≠ 0 := BitVec.toNat_ne.2 (by change _ ≠ 0; omega)
  have hbusy : (s.regs.accumulate (signExtend24 d)).busy = true := by
    have h1 := remaining_sub_one hne
    exact (Regs.busy_iff _).2 (BitVec.toNat_ne.2 (by change (s.regs.remaining - 1).toNat ≠ 0; omega))
  have hregs : { s.regs.accumulate (signExtend24 d) with armed := true } = s.regs.accumulate (d.signExtend 32) := by
    rw [signExtend24_eq, ← harmed]
    rfl
  rw [runMove, readyEdge_qualified tm d hq harmed hne, sampleStep_rearms hbusy, hregs,
    settleClockLine_powered (by exact hpwr)]
  rfl

/-- What a finalisation leaves, its average and its result known (R163-R170). -/
theorem finalize_eq {s : State} {avg : Int} {result : Word} (ha : s.regs.average = avg)
    (hr : s.regs.finalResult = result) :
    s.finalize =
      { s with
        regs :=
          { s.regs with
            pwr := false, result := result, ready := true
            offset := if s.regs.tareF then BitVec.ofInt 32 avg else s.regs.offset
            irqPend := s.regs.irqPend || s.regs.sinkEn }
        events := if s.regs.sinkEn then s.events ++ [result] else s.events } := by
  subst ha hr
  rfl

/-- Settles O50: the step takes the last sample, so it finalises. -/
theorem lastSampleStepFinalises : Obligations.LastSampleStepFinalises := by
  intro tm d s hq harmed hlast hreq acc avg result
  have hne : s.regs.remaining ≠ 0 := by rw [hlast]; decide
  have hidle : (s.regs.accumulate (signExtend24 d)).busy = false := by
    rw [Regs.busy_eq_false_iff, Regs.accumulate, hlast]
    rfl
  have hregs : s.detach.regs.accumulate (signExtend24 d) =
      { s.regs with acc := acc, remaining := 0, armed := false } := by
    rw [Regs.accumulate, signExtend24_eq, State.detach_regs, hlast]
    rfl
  have havg : Regs.average { s.regs with acc := acc, remaining := 0, armed := false } = avg := Regs.average_eq hreq
  have hresult : Regs.finalResult { s.regs with acc := acc, remaining := 0, armed := false } = result := by
    -- the statement's match on the mode may be another matcher than the model's
    rw [Regs.finalResult, havg] <;> rfl
  rw [runMove, readyEdge_qualified tm d hq harmed hne, sampleStep_finalises hidle, hregs,
    finalize_eq (by exact havg) (by exact hresult)]
  rfl

/-! ## Sums of readings -/

theorem readingSum_append (ds es : List Raw) : readingSum (ds ++ es) = readingSum ds + readingSum es := by
  simp [readingSum]

theorem readingSum_singleton (d : Raw) : readingSum [d] = d.toInt := by
  simp [readingSum]

theorem readingSum_replicate (n : Nat) (d : Raw) : readingSum (List.replicate n d) = d.toInt * n := by
  simp [readingSum, mul_comm]

/-- A sum of `n` readings is within `n` times their range (R10). -/
theorem readingSum_bounds (ds : List Raw) :
    -2 ^ 23 * (ds.length : Int) ≤ readingSum ds ∧ readingSum ds ≤ (2 ^ 23 - 1) * (ds.length : Int) := by
  induction ds using List.reverseRecOn with
  | nil => exact ⟨le_refl _, le_refl _⟩
  | append_singleton ds d ih =>
    rw [readingSum_append, readingSum_singleton, List.length_append, List.length_singleton]
    have hlow := BitVec.le_toInt d
    have hhigh := BitVec.toInt_lt (x := d)
    omega

/-! ## The registers after some readings -/

/-- The registers of an acquisition that a start left at `r` and that has taken the readings `ds` (R158, R159). -/
def Regs.afterReadings (r : Regs) (ds : List Raw) : Regs :=
  { r with acc := BitVec.ofInt 32 (readingSum ds), remaining := r.requested - BitVec.ofNat 8 ds.length }

namespace Regs

/-- A start leaves them at no reading yet (R194). -/
theorem started_afterReadings (r : Regs) (mode : Mode) (count : Count) (sink tare : Bool) :
    (r.started mode count sink tare).afterReadings [] = r.started mode count sink tare := by
  simp [afterReadings, started, readingSum]

/-- One more reading is added to ACC (R158). -/
theorem afterReadings_acc_concat (r : Regs) (ds : List Raw) (d : Raw) :
    (r.afterReadings ds).acc + d.signExtend 32 = (r.afterReadings (ds ++ [d])).acc := by
  simp only [afterReadings]
  rw [readingSum_append, readingSum_singleton, BitVec.ofInt_add]
  rfl

/-- And taken from REMAINING (R159). -/
theorem afterReadings_remaining_concat (r : Regs) (ds : List Raw) (d : Raw) :
    (r.afterReadings ds).remaining - 1 = (r.afterReadings (ds ++ [d])).remaining := by
  simp only [afterReadings, List.length_append, List.length_singleton]
  rw [BitVec.ofNat_add, ← sub_sub]
  rfl

/-- ACC is the exact sum: no count of readings overflows it (R10). -/
theorem afterReadings_acc_toInt (r : Regs) {ds : List Raw} (h : ds.length < 2 ^ 8) :
    (r.afterReadings ds).acc.toInt = readingSum ds := by
  obtain ⟨hlow, hhigh⟩ := readingSum_bounds ds
  rw [afterReadings, BitVec.toInt_ofInt]
  exact Int.bmod_eq_of_le (by omega) (by omega)

/-- REMAINING counts the readings that are left. -/
theorem afterReadings_remaining_toNat {r : Regs} {ds : List Raw} (h : ds.length ≤ r.requested.toNat) :
    (r.afterReadings ds).remaining.toNat = r.requested.toNat - ds.length := by
  have hlt := r.requested.isLt
  have hlen : (BitVec.ofNat 8 ds.length).toNat = ds.length := by
    rw [BitVec.toNat_ofNat]
    exact Nat.mod_eq_of_lt (by omega)
  rw [afterReadings, BitVec.toNat_sub_of_le (by rw [BitVec.le_def, hlen]; exact h), hlen]

end Regs

/-! ## A run of ready edges -/

/-- Runs of moves compose. -/
theorem runMoves_append (tm : Timing) {ms : List Move} (ns : List Move) {s t : State} (h : runMoves tm ms s = .next t) :
    runMoves tm (ms ++ ns) s = runMoves tm ns t := by
  induction ms generalizing s with
  | nil => injection h with h; rw [← h]; rfl
  | cons m ms ih =>
    obtain ⟨u, hu⟩ := runMove_next tm m s
    rw [runMoves, hu] at h
    rw [List.cons_append, runMoves, hu]
    exact ih h

/-- A run of one move. -/
theorem runMoves_singleton (tm : Timing) (m : Move) (s : State) : runMoves tm [m] s = runMove tm m s := by
  obtain ⟨u, hu⟩ := runMove_next tm m s
  rw [runMoves, hu]
  rfl

/-- The state `u` of an acquisition that began in `s` with the registers `r` of its start, after the readings `ds`. -/
structure AfterReadings (s : State) (r : Regs) (ds : List Raw) (u : State) : Prop where
  seq    : u.seq = .idle
  regs   : u.regs = r.afterReadings ds
  events : u.events = s.events
  faults : u.faults = s.faults

namespace AfterReadings
variable {s u : State} {r : Regs} {ds : List Raw} (h : AfterReadings s r ds u)
include h

theorem remaining_toNat (hds : ds.length ≤ r.requested.toNat) :
    u.regs.remaining.toNat = r.requested.toNat - ds.length := by
  rw [h.regs, Regs.afterReadings_remaining_toNat hds]

theorem acc_toInt (hds : ds.length < 2 ^ 8) : u.regs.acc.toInt = readingSum ds := by
  rw [h.regs, Regs.afterReadings_acc_toInt r hds]

/-- Before its last reading an acquisition has one sample left. -/
theorem remaining_eq_one (hds : ds.length + 1 = r.requested.toNat) : u.regs.remaining = 1 := by
  apply BitVec.eq_of_toNat_eq
  rw [h.remaining_toNat (by omega), ← hds, Nat.add_sub_cancel_left]
  rfl

/-- With the next reading ACC is the exact sum still (R10). -/
theorem acc_concat_toInt (hds : ds.length + 1 < 2 ^ 8) (d : Raw) :
    (u.regs.acc + d.signExtend 32).toInt = readingSum (ds ++ [d]) := by
  rw [h.regs, Regs.afterReadings_acc_concat, Regs.afterReadings_acc_toInt r (by simpa using hds)]

end AfterReadings

/-- An accepted start as a move (R194). -/
theorem runMove_start (tm : Timing) {i : Instr} {mode : Mode} {count : Count} {sink tare : Bool} {s : State}
    (operands : startOperands i = some (mode, count, sink, tare)) (hq : s.seq = .idle) (hst : s.stall = false)
    (hbegun : s.regs.begun = true) (hidle : s.regs.remaining = 0) (hcount : count ≠ 0) :
    ∃ u, runMove tm (.host (encode i)) s = .next u ∧ AfterReadings s (s.regs.started mode count sink tare) [] u := by
  have hperform : perform (encode i) s = .next (s.finishWrite (s.regs.started mode count sink tare)) := by
    rw [perform, decodeEncodeRoundTrip i, ← start_accepted hbegun ((Regs.busy_eq_false_iff _).2 hidle) hcount]
    exact exec_start operands s
  refine ⟨_, by rw [runMove, hst, if_neg Bool.false_ne_true, hostStep, hperform]; rfl, ?_⟩
  constructor
  · simpa using hq
  · simp [Regs.started_afterReadings]
  · simp
  · simp

/-- As long as readings are left after them, ready edges take one each (R158-R160). -/
theorem runMoves_readyEdges {tm : Timing} {ms : List Move} {s : State} {r : Regs} (harmed : r.armed = true)
    (hpwr : r.pwr = true) (hs : ∃ u, runMoves tm ms s = .next u ∧ AfterReadings s r [] u) {ds : List Raw}
    (hds : ds.length < r.requested.toNat) :
    ∃ u, runMoves tm (ms ++ ds.map Move.readyEdge) s = .next u ∧ AfterReadings s r ds u := by
  induction ds using List.reverseRecOn with
  | nil => rwa [List.map_nil, List.append_nil]
  | append_singleton ds d ih =>
    rw [List.length_append, List.length_singleton] at hds
    obtain ⟨u, hu, after⟩ := ih (by omega)
    have hleft : 1 < u.regs.remaining.toNat := by
      rw [after.remaining_toNat (by omega)]
      omega
    obtain ⟨hseq, hregs, hevents, hfaults⟩ := after
    have hedge := sampleStepAccumulatesAndRearms tm d u hseq (by rw [hregs]; exact harmed) (by rw [hregs]; exact hpwr)
      hleft
    rw [List.map_append, ← List.append_assoc, runMoves_append tm _ hu, List.map_singleton, runMoves_singleton]
    refine ⟨_, hedge, hseq, ?_, hevents, hfaults⟩
    rw [hregs, Regs.afterReadings_acc_concat, Regs.afterReadings_remaining_concat]
    rfl

/-- Settles O56: all but the last edge by induction on the readings, the last by O50. -/
theorem acquisitionRunsToCompletion : Obligations.AcquisitionRunsToCompletion := by
  intro tm i mode count sink tare ds s operands hq hst hbegun hidle hcount hlen
  have hlt := count.isLt
  have hstart : ∃ u, runMoves tm [.host (encode i)] s = .next u ∧
      AfterReadings s (s.regs.started mode count sink tare) [] u := by
    rw [runMoves_singleton]
    exact runMove_start tm operands hq hst hbegun hidle hcount
  have hrun {es : List Raw} (h : es.length < count.toNat) := runMoves_readyEdges rfl rfl hstart h
  refine ⟨fun k hk => ?_, ?_⟩
  · have hk' : (ds.take k).length = k := List.length_take_of_le hk.le
    obtain ⟨u, hu, after⟩ := hrun (es := ds.take k) (by omega)
    refine ⟨u, hu, ?_, after.acc_toInt (by omega), by rw [after.regs]; rfl, by rw [after.regs]; rfl, after.events⟩
    rw [after.remaining_toNat (by rw [hk']; exact hlen ▸ hk.le), hk']
    rfl
  · have hne : ds ≠ [] := by
      rw [← List.length_pos_iff, hlen]
      exact Nat.pos_of_ne_zero (BitVec.toNat_ne.1 hcount)
    obtain ⟨qs, d, rfl⟩ : ∃ qs d, ds = qs ++ [d] := ⟨_, _, (List.dropLast_append_getLast hne).symm⟩
    have hqs : qs.length + 1 = count.toNat := by simpa using hlen
    obtain ⟨u, hu, after⟩ := hrun (es := qs) (by omega)
    have hlast := after.remaining_eq_one hqs
    have hacc := after.acc_concat_toInt (by omega) d
    obtain ⟨hseq, hregs, hevents, hfaults⟩ := after
    have hedge := lastSampleStepFinalises tm d u hseq (by rw [hregs]; rfl) hlast (by rw [hregs]; exact hcount)
    rw [List.map_append, List.map_singleton, ← List.singleton_append, ← List.append_assoc, runMoves_append tm _ hu,
      runMoves_singleton]
    refine ⟨_, hedge, rfl, hacc, rfl, rfl, rfl, ?_, ?_, ?_, ?_, hfaults⟩
    · rw [hacc, hregs]
      rfl
    · rw [hacc, hregs]
      rfl
    · rw [hregs]
      rfl
    · rw [hregs, hevents]
      rfl

/-- Settles O57: the average of constant readings is the reading, which binary32 represents exactly. -/
theorem tareOfConstantReadingsLoadsIt : Obligations.TareOfConstantReadingsLoadsIt := by
  intro tm count k s hq hst hbegun hidle hcount
  obtain ⟨_, t, ht, _, _, hready, _, _, hresult, hoffset, hirq, hevents, _⟩ :=
    acquisitionRunsToCompletion tm (.tare count) .rawAverage count false true (List.replicate count.toNat k) s rfl hq hst
      hbegun hidle hcount List.length_replicate
  have hpos : (count.toNat : Int) ≠ 0 := Int.natCast_ne_zero.2 (BitVec.toNat_ne.1 hcount)
  have havg : (readingSum (List.replicate count.toNat k)).tdiv count.toNat = k.toInt := by
    rw [readingSum_replicate, Int.mul_tdiv_cancel _ hpos]
  rw [List.map_replicate] at ht
  have hlow := BitVec.le_toInt k
  have hhigh := BitVec.toInt_lt (x := k)
  refine ⟨t, ht, ?_, ?_, hready, by simpa using hirq, by simpa using hevents⟩
  · rw [hoffset, havg]
    rfl
  · rw [hresult, havg]
    exact f32Scaled_i2f (by omega)

end Sys2Proof.Machine
end

section
/-! PROOFS. The host operations and the step that runs one (43_host_commands.md R190-R210, 20_memory.md R70): what each
operation answers, and where in a step it is performed. -/

namespace Sys2Proof.Machine

/-! ## The four starts -/

/-- A start while busy records its fault, whatever the free response is (R244). -/
theorem startBusy_faults (s : State) (full : Regs) :
    (s.startBusy full).faults = insertFault .startWhileBusy s.faults := by
  obtain ⟨n, e⟩ | ⟨b, n, e⟩ := startBusy_cases s full <;> rw [e] <;> rfl

/-- Settles O17: the four outcomes of a start. -/
theorem startsFollowTheCommonSequence : Obligations.StartsFollowTheCommonSequence := by
  intro i mode count sink tare s operands
  rw [exec_start operands, ← Regs.busy_eq_false_iff, Ne, ← Regs.busy_eq_false_iff, Bool.not_eq_false]
  refine ⟨fun hb => ?_, fun hb hr => ?_, fun hb hr hc => ?_, fun hb hr hc => ?_⟩
  · rw [start_notBegun hb]
    rfl
  · rw [start_busy hb hr]
    exact ⟨_, rfl, startBusy_faults ..⟩
  · rw [start_countZero hb hr hc]
    rfl
  · rw [start_accepted hb hr hc]
    rfl

/-! ## Setup -/

/-- The selected gain, factor by factor (R102). -/
theorem selectGain_eq (f : BitVec 16) (g : GainCode) :
    selectGain f g = if f = 128 then .one else if f = 64 then .three else if f = 32 then .two else g := by
  simp only [selectGain, gainMap, beq_iff_eq]
  split_ifs <;> rfl

/-- The first BEGIN (R191). -/
theorem execBegin_fresh (f : BitVec 16) {s : State} (h : s.regs.begun = false) :
    execBegin f s = .next (s.finishWrite
      { s.regs with gainCode := selectGain f s.regs.gainCode, pwr := false, armed := true, begun := true }) :=
  if_neg (by simp [h])

/-- A BEGIN after another (R191). -/
theorem execBegin_again (f : BitVec 16) {s : State} (h : s.regs.begun = true) :
    execBegin f s = .next (s.raiseFault .beginTwice false) :=
  if_pos h

/-- Settles O15: the two branches of BEGIN, with the gain map written out. -/
theorem beginSetsUpOnce : Obligations.BeginSetsUpOnce := by
  intro f s
  refine ⟨fun h => ?_, execBegin_again f⟩
  rw [← selectGain_eq]
  exact execBegin_fresh f h

/-- Settles O16: the operation is one write, of the gain map written out. -/
theorem setGainMapsTheFactor : Obligations.SetGainMapsTheFactor := by
  intro f s
  rw [← selectGain_eq]
  rfl

/-! ## The interrupt and the registers -/

/-- Settles O19: acknowledging is the operation's one write. -/
theorem irqAckClearsPending : Obligations.IrqAckClearsPending :=
  fun _ => rfl

/-- Settles O20: a read that leaves the registers. -/
theorem plainReadsReturnTheirRegister : Obligations.PlainReadsReturnTheirRegister :=
  fun _ => ⟨rfl, rfl, rfl, rfl, rfl⟩

/-- Settles O21: a read that writes READY. -/
theorem resultReadClearsReady : Obligations.ResultReadClearsReady :=
  fun _ => rfl

/-- Settles O22: each is one write of the given word. -/
theorem calibrationWritesStoreEveryValue : Obligations.CalibrationWritesStoreEveryValue :=
  fun _ _ => ⟨rfl, rfl⟩

/-! ## The step that runs an operation -/

/-- A scheduled move is the one that the step runs. -/
theorem step_of_sched {s : State} {m : Move} {rest : List Move} (h : s.sched = m :: rest) :
    step s = runMove Config.timing m { s with sched := rest } := by
  rw [step_eq, State.takeMove, h]

/-- A transaction that decodes to an operation performs it (R190). -/
theorem perform_op {t : Txn} {i : Instr} (h : decode t = .op i) (s : State) : perform t s = exec i s := by
  rw [perform, h]

/-- A transaction as an atomic move that finds no sample step running (R70). -/
theorem runMove_host (tm : Timing) {t : Txn} {s u : State} (hst : s.stall = false) (h : perform t s = .next u) :
    runMove tm (.host t) s = .next (u.followPower tm s.regs.pwr) := by
  rw [runMove, hst, if_neg Bool.false_ne_true, hostStep, h, mapNext]

/-- A transaction in a cycle that finds no sample step running (R91). -/
theorem runMove_clock (tm : Timing) (d : Bool) {t : Txn} {s u : State} (hst : s.stall = false)
    (h : perform t s = .next u) : runMove tm (.clock ⟨true, d, some t⟩) s = .next (clockEdge tm d s u) :=
  clockCycle_eq rfl (by rw [hostPort, hst, if_neg Bool.false_ne_true, h])

/-- PD_SCK and its hold after an atomic transaction, in closed form (R49, R287, log 6). -/
theorem followPower_eq (tm : Timing) (before : Bool) (s : State) :
    s.followPower tm before =
      { s with
        pdSck :=
          if s.regs.pwr = before then s.pdSck
          else !s.regs.pwr || (s.pdSck && decide (s.pdHold < tm.tPD))
        pdHold := if s.regs.pwr = false ∧ before = true ∧ s.pdSck = false then 0 else s.pdHold } := by
  by_cases h : s.regs.pwr = before
  · subst h
    rw [followPower_unchanged, if_pos rfl, if_neg fun ⟨hoff, hon, _⟩ => by simp [hoff] at hon]
  · have hbefore : before = !s.regs.pwr := (Bool.not_eq.2 h).symm
    rw [followPower_switched tm h, nextPdSck, State.lineHeld, if_neg h, Bool.or_comm, hbefore]
    cases s.regs.pwr <;> cases s.pdSck <;> simp

/-- Settles O10: each case is the move's equation, with the operation for the transaction. -/
theorem stepRunsDecodedOperation : Obligations.StepRunsDecodedOperation := by
  intro s t rest i u hstall hdecode hexec
  have hperform : perform t { s with sched := rest } = .next u := (perform_op hdecode _).trans hexec
  refine ⟨fun hs => ?_, fun d hs => ?_⟩
  · rw [step_of_sched hs, runMove_host _ (s := { s with sched := rest }) hstall hperform, followPower_eq]
  · exact (step_of_sched hs).trans (runMove_clock _ d hstall hperform)

end Sys2Proof.Machine
end

section
/-! PROOFS. Faults and the completion interrupt (60_exceptions.md R240-R252): every step goes on, a refused transaction
changes nothing but the record, recorded faults stay, and the interrupt line follows finalisations and
acknowledgements. -/

namespace Sys2Proof.Machine

/-! ## Every step goes on -/

/-- Settles O13: every move and every operation answers a next state. -/
theorem everyStepAnswersNext : Obligations.EveryStepAnswersNext := by
  refine ⟨fun s => runMove_next Config.timing s.takeMove.1 s.takeMove.2, fun i s => ?_⟩
  obtain ⟨t, ht, _⟩ := exec_next i s
  exact ⟨t, ht⟩

/-! ## A refused transaction as an atomic step -/

/-- What decodes to an operation has the direction of the operation's encoding (R92). -/
theorem we_of_decode {t : Txn} {i : Instr} (h : decode t = .op i) : t.we = (encode i).we := by
  rw [decodedTransactionIsTheEncoding t i h]

/-- The starts are commands (R98). -/
theorem encode_start_we {i : Instr} (h : (startOperands i).isSome = true) : (encode i).we = true := by
  cases i with
  | startAverage | startValue | startUnits | tare => rfl
  | _ => cases h

/-- A transaction that leaves `PWR` is, as an atomic step, no more than the operation it performs (R190, log 6). -/
theorem step_of_host {s u : State} {t : Txn} {rest : List Move} (hs : s.sched = .host t :: rest)
    (hst : s.stall = false) (h : perform t { s with sched := rest } = .next u) (hpwr : u.regs.pwr = s.regs.pwr) :
    step s = .next u := by
  rw [step_of_sched hs, runMove_host Config.timing (s := { s with sched := rest }) hst h, ← hpwr, followPower_unchanged]

/-- A command that raises a fault changes as an atomic step nothing but the record and the bus outputs (R242). -/
theorem step_of_refused_command {s : State} {t : Txn} {rest : List Move} {i : Instr} {c : FaultCode}
    (hs : s.sched = .host t :: rest) (hst : s.stall = false) (hd : decode t = .op i) (hw : (encode i).we = true)
    (h : exec i { s with sched := rest } = .next ({ s with sched := rest }.raiseFault c false)) :
    step s = .next { s with
      sched := rest, faults := insertFault c s.faults, resp := ⟨true, true, if t.we then none else some 0⟩ } := by
  rw [step_of_host hs hst ((perform_op hd _).trans h) rfl, we_of_decode hd, hw]
  rfl

/-- Settles O11: the decoder's refusals, then the three caller errors, each of a command that raises its fault. -/
theorem refusedStepChangesOnlyFaults : Obligations.RefusedStepChangesOnlyFaults := by
  intro s t rest hs hst refusedAs
  refine ⟨fun c hd => step_of_host hs hst (perform_refuse hd _) rfl,
    fun f hd hb => step_of_refused_command hs hst hd rfl (execBegin_again f hb),
    fun i mode count sink tare hd operands => ?_⟩
  have hw : (encode i).we = true := encode_start_we (by rw [operands]; rfl)
  have refused {c : FaultCode}
      (h : { s with sched := rest }.start mode count sink tare = { s with sched := rest }.raiseFault c false) :
      refusedAs c := step_of_refused_command hs hst hd hw (by rw [exec_start operands, h])
  exact ⟨fun hb => refused (start_notBegun hb),
    fun hb hr hc => refused (start_countZero hb ((Regs.busy_eq_false_iff _).2 hr) hc)⟩

/-! ## A refused transaction in a cycle -/

/-- The sequencer's work neither reads nor writes the recorded faults and the bus outputs. -/
theorem sequencerWork_withRecord (tm : Timing) (s : State) (f : List FaultCode) (b : BusResp) :
    { s with faults := f, resp := b }.sequencerWork tm = { s.sequencerWork tm with faults := f, resp := b } := by
  obtain ⟨hregs, hsr, hevents⟩ :=
    sequencerWork_congr tm (s := s) (u := { s with faults := f, resp := b }) rfl rfl rfl rfl rfl
  rw [sequencerWork_frame tm { s with faults := f, resp := b }, sequencerWork_frame tm s, hregs, hsr, hevents]

/-- The block's cycle neither reads nor writes the recorded faults and the bus outputs. -/
theorem clockEdge_withRecord (tm : Timing) (d : Bool) (s u : State) (f : List FaultCode) (b : BusResp) :
    clockEdge tm d s { u with faults := f, resp := b } = { clockEdge tm d s u with faults := f, resp := b } := by
  rw [clockEdge, sequencerWork_withRecord]
  rfl

/-- Settles O12: both cycles are the block's own, after host ports that differ in the record and the bus outputs. -/
theorem refusedCycleDiffersOnlyInFaults : Obligations.RefusedCycleDiffersOnlyInFaults := by
  intro tm d t c s u hst hd h
  have hquiet : clockCycle tm ⟨true, d, none⟩ s = .next (clockEdge tm d s (s.withResp .idle)) := clockCycle_eq rfl rfl
  obtain rfl : clockEdge tm d s (s.withResp .idle) = u := by rw [hquiet] at h; injection h
  obtain ⟨hfaults, _⟩ := clockEdge_rest tm d s (s.withResp .idle)
  rw [← clockEdge_withRecord, hfaults]
  exact runMove_clock tm d hst (perform_refuse hd s)

/-! ## A start while busy -/

/-- Each of the start's writes is performed or left, whatever the response `b` (R244). -/
theorem partlyStarted_bounds (r full : Regs) (b : BusyStart) :
    let p := r.partlyStarted full b
    (p.acc = r.acc ∨ p.acc = full.acc) ∧ (p.remaining = r.remaining ∨ p.remaining = full.remaining) ∧
      (p.requested = r.requested ∨ p.requested = full.requested) ∧ (p.mode = r.mode ∨ p.mode = full.mode) ∧
      (p.sinkEn = r.sinkEn ∨ p.sinkEn = full.sinkEn) ∧ (p.tareF = r.tareF ∨ p.tareF = full.tareF) ∧
      (p.ready = r.ready ∨ p.ready = full.ready) ∧ (p.pwr = r.pwr ∨ p.pwr = full.pwr) ∧
      (p.armed = r.armed ∨ p.armed = full.armed) := by
  have left_or_written {α : Type} (write : Bool) (new old : α) :
      (if write then new else old) = old ∨ (if write then new else old) = new := (ite_eq_or_eq _ _ _).symm
  exact ⟨left_or_written .., left_or_written .., left_or_written .., left_or_written .., left_or_written ..,
    left_or_written .., left_or_written .., left_or_written .., left_or_written ..⟩

/-- A start while busy is acknowledged and performs some of the writes; a refusal is the response that performs none
(R244). -/
theorem startBusy_eq (s : State) (full : Regs) :
    ∃ b resp n, s.startBusy full =
        { s with
          regs := s.regs.partlyStarted full b, faults := insertFault .startWhileBusy s.faults, resp := resp
          freeIdx := n } ∧
      resp.ack = true ∧ (resp.err = true → s.regs.partlyStarted full b = s.regs) := by
  obtain ⟨n, e⟩ | ⟨b, n, e⟩ := startBusy_cases s full
  · exact ⟨default, .refused false, n, e, rfl, fun _ => rfl⟩
  · exact ⟨b, .wrote, n, e, rfl, fun h => by cases h⟩

/-- Settles O18: the bounds of the partial start, and the frame of the whole response. -/
theorem busyStartStaysWithinItsBounds : Obligations.BusyStartStaysWithinItsBounds := by
  intro i mode count sink tare s operands hb hr
  obtain ⟨b, resp, n, hstart, hack, herr⟩ := startBusy_eq s (s.regs.started mode count sink tare)
  obtain ⟨hacc, hremaining, hrequested, hmode, hsink, htare, hready, hpwr, harmed⟩ :=
    partlyStarted_bounds s.regs (s.regs.started mode count sink tare) b
  refine ⟨_, exec_start operands s, ?_⟩
  rw [start_busy hb ((Regs.busy_iff _).2 hr), hstart]
  exact ⟨rfl, hack, herr, hacc, hremaining, hrequested, hmode, hsink, htare, hready, hpwr, harmed,
    rfl, rfl, rfl, rfl, rfl, rfl, rfl⟩

/-! ## The record over a step -/

/-- Settles O32: a reset cycle keeps the record, and the host's part of any other step adds at most one code to it. -/
theorem faultsOnlyGrow : Obligations.FaultsOnlyGrow := by
  intro s t c h hc
  have htake : s.takeMove.2.faults = s.faults := by rw [takeMove_frame]
  rw [← htake] at hc
  obtain ⟨_, rfl⟩ | ⟨u, hu, _, ht⟩ := runMove_effect h
  · exact hc
  · rw [ht]
    obtain hkept | ⟨d, hadded⟩ := hu.faults
    · rwa [hkept]
    · rw [hadded]
      exact mem_insertFault.2 (.inr hc)

/-! ## The interrupt line over a step -/

/-- R35, R170: the controller sets IRQ_PEND at a finalisation with a completion sink, and never clears it. -/
theorem SampleEffect.irqPend {s t : State} (h : SampleEffect s t) :
    t.regs.irqPend = s.regs.irqPend ∨ t.regs.irqPend = true ∧
      t.regs.sinkEn = true ∧ t.regs.ready = true ∧ t.events = s.events ++ [t.regs.result] := by
  cases h with
  | none regs | detached _ regs | rearmed _ _ regs => exact .inl (congrArg Regs.irqPend regs :)
  | finalised raw armed _ _ regs events =>
    cases hs : s.regs.sinkEn with
    | false => exact .inl (by simp [regs, Regs.accumulate, Regs.finalized, hs])
    | true =>
      exact .inr ⟨by simp [regs, Regs.accumulate, Regs.finalized, hs], by rw [regs]; exact hs, by rw [regs]; rfl,
        by rw [events, hs, if_pos rfl]⟩

/-- Settles O30: only the controller sets IRQ_PEND, and only the host's IRQ_ACK and a reset clear it. -/
theorem irqRisesAndFallsAsSignalled : Obligations.IrqRisesAndFallsAsSignalled := by
  intro s t h
  unfold State.irq
  obtain ⟨hreset, rfl⟩ | ⟨u, hu, uevents, ht⟩ := step_cases h
  · exact ⟨fun _ hrise => (Bool.false_ne_true hrise).elim, fun _ _ => .inl hreset⟩
  refine ⟨fun hlow hrise => ?_, fun hhigh hfall => .inr ?_⟩
  · have ulow : u.regs.irqPend = false := hu.irqPend.elim (·.trans hlow) And.right
    obtain tkept | ⟨_, hsink, hready, tevents⟩ := ht.irqPend
    · rw [tkept, ulow] at hrise; cases hrise
    · exact ⟨hsink, hready, by rw [tevents, uevents]⟩
  · obtain tkept | ⟨tset, _⟩ := ht.irqPend
    · obtain ukept | ⟨hack, _⟩ := hu.irqPend
      · rw [tkept, ukept, hhigh] at hfall; cases hfall
      · exact hack
    · rw [tset] at hfall; cases hfall

end Sys2Proof.Machine
end

section
/-! PROOFS. Reset, the power-down hold and the course of a sample step (70_reset_and_hazards.md R270-R273, R287-R290): what
a reset cycle leaves, how long a power-down keeps PD_SCK high, how a sample step waits for it, and what the course of a
sample step depends on.

The idea: before the pulses of a sample step the sequencer does not move on while PD_SCK is high, and a hold that has not
ended keeps PD_SCK high there. So every move but an atomic ready edge uses up at most one cycle of the hold
(`State.HeldFor`), and the setup with PD_SCK low comes whole after it. -/

namespace Sys2Proof.Machine

/-! ## Reset -/

/-- A cycle with `rst_n` = 0 is a reset cycle, whatever the request and the data line. -/
theorem clockCycle_reset (tm : Timing) {p : Pins} (s : State) (hr : p.rstN = false) :
    clockCycle tm p s = .next (s.resetCycle tm) := by
  rw [clockCycle, hr, if_neg Bool.false_ne_true]

/-- The STATUS word of the reset registers: `GAIN_CODE` = 1 alone (R41, R271). -/
theorem reset_statusWord : Regs.reset.statusWord = 0x00000200 := by decide

/-- The COUNTS word of the reset registers (R42, R271). -/
theorem reset_countsWord : Regs.reset.countsWord = 0 := by decide

/-- Settles O1, element by element. -/
theorem resetStateHasTheSpecsValues : Obligations.ResetStateHasTheSpecsValues :=
  ⟨rfl, rfl, rfl, rfl, Nat.le_add_left .., rfl, rfl, rfl, rfl, rfl, rfl, reset_statusWord, reset_countsWord⟩

/-- Settles O2, element by element of the state that a reset cycle leaves. -/
theorem resetCycleTakesResetValues : Obligations.ResetCycleTakesResetValues :=
  fun _ _ s hr => ⟨_, clockCycle_reset _ s hr, rfl, rfl, rfl, rfl, rfl, rfl, rfl, rfl, rfl, rfl, rfl⟩

/-- Settles O3: the reset cycle does not look at the sequencer. -/
theorem resetAbandonsSampleStep : Obligations.ResetAbandonsSampleStep :=
  fun _ _ s hr _ => ⟨_, clockCycle_reset _ s hr, rfl, rfl, rfl, rfl, rfl, rfl, rfl, rfl⟩

/-! ## The course of a sample step -/

/-- A position of the setup follows one of the setup. -/
theorem setup_of_nextSeq_setup {tm : Timing} {s : State} {c : Nat} (h : s.nextSeq tm = .setup c) :
    ∃ k, s.seq = .setup k := by
  cases hq : s.seq with
  | setup k => exact ⟨k, rfl⟩
  | idle => rw [nextSeq_idle hq] at h; cases h
  | fin k => rw [nextSeq_fin hq] at h; split_ifs at h
  | data i k => rw [nextSeq_advances (by simp [hq]), hq, Seq.advance] at h; split_ifs at h
  | gainp i k => rw [nextSeq_advances (by simp [hq]), hq, Seq.advance] at h; split_ifs at h

/-- The next position depends on the position, GAIN_CODE and, in the setup, PD_SCK alone. -/
theorem nextSeq_congr (tm : Timing) {s t : State} (hq : s.seq = t.seq) (hg : s.regs.gainCode = t.regs.gainCode)
    (hp : ∀ c, s.seq = .setup c → s.pdSck = t.pdSck) : s.nextSeq tm = t.nextSeq tm := by
  have hwaits : s.waitsForHold = t.waitsForHold := by
    unfold State.waitsForHold
    cases h : s.seq with
    | setup c => rw [← hq, h]; exact hp c h
    | _ => rw [← hq, h]
  rw [State.nextSeq, State.nextSeq, hwaits, hq, hg]

/-- Within a sample step, PD_SCK is given by the position and, in the setup, the hold. -/
theorem nextPdSck_congr (tm : Timing) {q : Seq} {s t : State} (hq : q ≠ .idle)
    (hheld : ∀ c, q = .setup c → s.lineHeld tm = t.lineHeld tm) : nextPdSck tm q s = nextPdSck tm q t := by
  cases q with
  | idle => exact absurd rfl hq
  | setup c => exact hheld c rfl
  | _ => rfl

/-- Settles O43: both cycles are the block's own, and a position of the setup, where the hold counts, comes from one. -/
theorem sampleStepCourseIgnoresData : Obligations.SampleStepCourseIgnoresData := by
  intro tm p q s t u v hpr hqr hs ht hne hseq hgain hsetup hu hv
  obtain rfl : s.stalledCycle tm p = u := by rw [clockCycle_eq_stalledCycle hpr hs] at hu; injection hu
  obtain rfl : t.stalledCycle tm q = v := by rw [clockCycle_eq_stalledCycle hqr ht] at hv; injection hv
  have unext := stalledCycle_nextSeq (tm := tm) (p := p) hne
  have vnext := stalledCycle_nextSeq (tm := tm) (p := q) (hseq ▸ hne)
  have hnext : (s.stalledCycle tm p).seq = (t.stalledCycle tm q).seq := by
    rw [unext, vnext, nextSeq_congr tm hseq hgain fun c hc => (hsetup c hc).1]
  have line_of_setup (c : Nat) (hc : (s.stalledCycle tm p).seq = .setup c) : s.pdSck = t.pdSck ∧ s.pdHold = t.pdHold :=
    (setup_of_nextSeq_setup (unext.symm.trans hc)).elim hsetup
  obtain ⟨ulevel, uhold⟩ := stalledCycle_line tm p s
  obtain ⟨vlevel, vhold⟩ := stalledCycle_line tm q t
  refine ⟨hnext, congrArg (· != Seq.idle) hnext, ?_, fun hrun => ?_, fun c hc => ?_⟩
  · rw [stalledCycle_gainCode, stalledCycle_gainCode, hgain]
  · rw [ulevel, vlevel, ← hnext]
    refine nextPdSck_congr tm hrun fun c hc => ?_
    obtain ⟨hsck, hhold⟩ := line_of_setup c hc
    simp only [State.lineHeld, hsck, hhold]
  · rw [uhold, vhold, ← hnext, hc, (line_of_setup c hc).2]
    rfl

/-! ## A power-down hold over moves -/

/-- PD_SCK is high before the pulses of a sample step, in a hold that has `n` cycles left (R287). -/
structure State.HeldFor (tm : Timing) (n : Nat) (s : State) : Prop where
  high   : s.pdSck = true
  before : s.seq = .idle ∨ ∃ c, s.seq = .setup c
  left   : s.pdHold + n ≤ tm.tPD

/-- While PD_SCK is high a cycle does not take the sequencer to the pulses. -/
theorem clockEdge_seq_before_pulses (tm : Timing) (d : Bool) {s u : State} (hp : u.pdSck = true)
    (hq : u.seq = .idle ∨ ∃ c, u.seq = .setup c) :
    (clockEdge tm d s u).seq = .idle ∨ ∃ c, (clockEdge tm d s u).seq = .setup c := by
  obtain hq | ⟨c, hq⟩ := hq
  · exact (clockEdge_seq_of_idle tm d hq).imp_right fun h => ⟨0, h⟩
  · exact .inr ⟨c, clockEdge_seq_of_waiting tm d hq hp⟩

/-- Every transaction answers a next state, and has the frame of a host operation. -/
theorem perform_next (tx : Txn) (s : State) : ∃ u, perform tx s = .next u ∧ HiddenUnchanged s u := by
  obtain ⟨_, u, _, _, hp, hidden⟩ | ⟨_, _, hp⟩ := perform_cases tx s
  · exact ⟨u, hp, hidden⟩
  · exact ⟨_, hp, (perform_hostEffect hp).2⟩

namespace State.HeldFor

variable {tm : Timing} {n : Nat} {s u : State}

/-- A hold that has `n + 1` cycles left has `n` left too. -/
theorem pred (h : s.HeldFor tm (n + 1)) : s.HeldFor tm n := ⟨h.high, h.before, Nat.le_of_succ_le h.left⟩

/-- A reset begins a power-down of its own (R272). -/
theorem after_reset (h : s.HeldFor tm n) : (s.resetCycle tm).HeldFor tm n :=
  ⟨rfl, .inl rfl, (Nat.zero_add n).trans_le (Nat.le_of_add_left_le h.left)⟩

/-- An atomic transaction takes no time (log 6). -/
theorem after_transaction (h : s.HeldFor tm (n + 1)) (hidden : HiddenUnchanged s u) (before : Bool) :
    (u.followPower tm before).HeldFor tm (n + 1) := by
  obtain ⟨high, hq, left⟩ := h
  rw [← hidden.pdSck] at high
  rw [← hidden.pdHold] at left
  rw [← hidden.seq] at hq
  have hlt : u.pdHold < tm.tPD := by omega
  rw [followPower_eq]
  exact ⟨by simp [high, hlt], hq, by simpa [high] using left⟩

/-- A cycle uses up one cycle of the hold (R48). -/
theorem after_cycle (h : s.HeldFor tm (n + 1)) {p : Pins} (hrun : clockCycle tm p s = .next u) : u.HeldFor tm n := by
  cases hr : p.rstN with
  | false =>
    rw [clockCycle_reset tm s hr] at hrun
    injection hrun with hrun
    exact hrun ▸ h.pred.after_reset
  | true =>
    obtain ⟨high, hq, left⟩ := h
    obtain ⟨v, _, hidden, rfl⟩ := clockCycle_run hr hrun
    refine ⟨clockEdge_pdSck_of_held p.dout hidden high (by omega) hq,
      clockEdge_seq_before_pulses tm p.dout (hidden.pdSck.trans high) (hidden.seq ▸ hq), ?_⟩
    rw [(clockEdge_line tm p.dout hidden).2, high, Bool.not_true, Bool.and_false, if_neg Bool.false_ne_true]
    omega

/-- So each move but an atomic ready edge uses up at most one; a transaction that finds STALL = 1 is a cycle (R70). -/
theorem after_move (h : s.HeldFor tm (n + 1)) {m : Move} (hm : ∀ d, m ≠ .readyEdge d)
    (hrun : runMove tm m s = .next u) : u.HeldFor tm n := by
  cases m with
  | readyEdge d => exact absurd rfl (hm d)
  | clock p => exact h.after_cycle hrun
  | host tx =>
    cases hst : s.stall with
    | true =>
      rw [runMove, if_pos hst] at hrun
      have held : { s with sched := .host tx :: s.sched, freeIdx := s.freeIdx + 1 }.HeldFor tm (n + 1) :=
        ⟨h.high, h.before, h.left⟩
      exact held.after_cycle hrun
    | false =>
      obtain ⟨v, hv, hidden⟩ := perform_next tx s
      rw [runMove_host tm hst hv] at hrun
      injection hrun with hrun
      exact hrun ▸ (h.after_transaction hidden _).pred

end State.HeldFor

/-- Settles O58, by induction on the moves. -/
theorem powerDownLastsItsHold : Obligations.PowerDownLastsItsHold := by
  intro tm ms s t high hq left hms hrun
  have held : s.HeldFor tm ms.length := ⟨high, hq, left⟩
  clear high hq left
  induction ms generalizing s with
  | nil => injection hrun with hrun; exact hrun ▸ held.high
  | cons m ms ih =>
    obtain ⟨u, hu⟩ := runMove_next tm m s
    rw [runMoves, hu] at hrun
    exact ih u (fun m hm => hms m (.tail _ hm)) hrun (held.after_move (hms m (.head _)) hu)

/-! ## The wait for a hold -/

section
variable {tm : Timing} {s : State} (hq : s.seq = .setup 0)
include hq

/-- While a sample step waits for a hold it stands in its first position, with PD_SCK high, detached after its first cycle
(R157, R287). -/
theorem stalledRun_waiting {ps : List Pins} (hl : ps.length < s.holdWait tm) :
    (s.stalledRun tm ps).seq = .setup 0 ∧ (s.stalledRun tm ps).pdSck = true ∧
      (s.stalledRun tm ps).regs = if ps = [] then s.regs else { s.regs with armed := false } := by
  cases hp : s.pdSck with
  | false => simp [State.holdWait, hp] at hl
  | true =>
    rw [State.holdWait, hp, if_pos rfl] at hl
    obtain ⟨hseq, high, _⟩ := stalledRun_waits tm ps s hq hp (by rw [← List.length_eq_zero_iff]; omega)
    refine ⟨hseq, high, ?_⟩
    obtain rfl | ⟨qs, p, rfl⟩ := List.eq_nil_or_concat' ps
    · rfl
    · rw [List.length_append, List.length_singleton] at hl
      obtain ⟨wseq, whigh, _, wregs, _⟩ := stalledRun_waits tm qs s hq hp (.inl (by omega))
      obtain ⟨_, _, hregs, _⟩ := stalledCycle_waits tm p wseq whigh
      rw [stalledRun_concat, hregs, wregs, if_neg (by simp)]
      rfl

/-- After that wait PD_SCK is low in the setup. -/
theorem stalledRun_setupLow {ps : List Pins} {k : Nat} (hl : ps.length = s.holdWait tm + k)
    (hk : k ≤ tm.sampleCycles s.regs.gainCode) : (s.stalledRun tm ps).SetupLow := by
  induction k generalizing ps with
  | zero =>
    obtain ⟨_, wlow, _⟩ := stalledRun_holdWait tm ps s hq hl
    exact fun _ _ => wlow
  | succ k ih =>
    obtain ⟨qs, p, rfl⟩ : ∃ qs p, ps = qs ++ [p] :=
      (List.eq_nil_or_concat' ps).resolve_left (by rintro rfl; cases hl)
    rw [List.length_append, List.length_singleton] at hl
    rw [stalledRun_concat]
    exact stalledCycle_setupLow (stalledRun_running hq (by omega)) (ih (by omega) (by omega))

end

/-- The setup and the first cycle of the pulses are within a sample step (R289). -/
theorem setup_lt_sampleCycles (tm : Timing) (g : GainCode) : 1 + tm.tSU < tm.sampleCycles g := by
  have hfin := tFIN_pos tm
  rw [sampleCycles_eq]
  omega

/-- Settles O60: the wait, then the setup and the first pulse as the course of a sample step gives them. -/
theorem sampleStepWaitsForTheHold : Obligations.SampleStepWaitsForTheHold := by
  intro tm ps s hq hst hr
  have hsetup := setup_lt_sampleCycles tm s.regs.gainCode
  have run (hl : ps.length ≤ s.holdWait tm + (1 + tm.tSU)) :
      runCycles tm ps s = .next (s.stalledRun tm ps) ∧ (s.stalledRun tm ps).stall = true :=
    ⟨runCycles_sampleStep hq hst hr (by omega), stalledRun_stalled hq hst (by omega)⟩
  refine ⟨fun hwait => ?_, fun hge hle => ?_, fun hl => ?_⟩
  · obtain ⟨hrun, hstall⟩ := run (by omega)
    obtain ⟨hseq, high, hregs⟩ := stalledRun_waiting hq hwait
    exact ⟨_, hrun, hseq, high, hstall, hregs⟩
  · obtain ⟨hrun, hstall⟩ := run (by omega)
    obtain ⟨k, hk⟩ := Nat.exists_eq_add_of_le hge
    have hseq : (s.stalledRun tm ps).seq = .setup k := by
      rw [stalledRun_seq_after_wait hq hk (by omega), course_setup tm _ k 0 (by omega), Nat.zero_add]
    have hlow := stalledRun_setupLow hq hk (by omega) k hseq
    exact ⟨_, hrun, by rw [hseq, hk, Nat.add_sub_cancel_left], hlow, hstall⟩
  · obtain ⟨hrun, hstall⟩ := run hl.le
    have hseq : (s.stalledRun tm ps).seq = .data 0 0 := by
      rw [stalledRun_seq_after_wait hq hl hsetup.le]
      simpa using course_reaches_data tm s.regs.gainCode 0 (by decide)
    have high := (stalledRun_pulseTrain hq ps).1 0 0 hseq
    exact ⟨_, hrun, hseq, high.trans (decide_eq_true (tH_pos tm)), hstall⟩

end Sys2Proof.Machine
end
